-- ==== Sys2Proof/Word.lean ====
section
/-! DEFINITION. The word type: every payload word, every header word and the accumulator are 32-bit
unsigned values (spec/00_scope.md rules R9 `WORD_BITS`, R10, R13). -/

namespace Sys2Proof

/-- A 32-bit unsigned value, bit 31 most significant (R10, R13). -/
abbrev Word := BitVec 32

/-- One byte of the byte stream S3 (spec/20_memory.md R54). -/
abbrev Byte := BitVec 8

end Sys2Proof
end

