-- ==== Sys2Proof/Config.lean ====
section
/-! DEFINITION. What an instance of the block is built with: the constants of spec/10_state.md rule R28
(the parameters of spec/00_scope.md R9 that a model takes as arguments), the records of FAMILY_TABLE
(spec/43_config_spec.md R151) and GENREC (spec/44_family_generator.md R171), and the values the spec
leaves OPEN, each an opaque constant with no body. The default VALUES of the tables stand in
Sys2Proof/Machine/Tables.lean and Sys2Proof/Machine/Instance.lean. -/

namespace Sys2Proof

/-! ## Named parameters with one fixed value (R9) -/

/-- `T1_MAX_WORDS`: the largest Type-1 word count, an 11-bit field (R9, R71). -/
def t1MaxWords : Nat := 2047

/-- `T2_MAX_WORDS`: the largest Type-2 word count, a 27-bit field (R9, R72). -/
def t2MaxWords : Nat := 134217727

/-- `FDRI_T1_THRESHOLD`: the named policy of spec/44_family_generator.md R175; not the 2047-word limit. -/
def fdriT1Threshold : Nat := 1024

/-! ## The records of FAMILY_TABLE and GENREC -/

/-- `BlockSubType`: a name and `framesPerConfigurationBlock` (R151). -/
structure BlockSubType where
  name : String
  fpcb : Nat
  deriving DecidableEq, Repr, Inhabited

/-- `BlockType`: a name and its ordered subtypes; the order is significant (R151, R237). -/
structure BlockType where
  name     : String
  subtypes : List BlockSubType
  deriving DecidableEq, Repr, Inhabited

/-- `GENREC[family]`: counts and values of the initial and ending blocks (R171), in the table's order. -/
structure GenRec where
  nSyncNop    : Nat
  wbstarReset : Word
  timerReset  : Word
  calReg      : String
  calReset    : Word
  corReg      : String
  corValue    : Word
  cmdSwitch   : Word
  initMask    : Word
  initCtlReg  : String
  initCtl     : Word
  nInitPad    : Nat
  nEndPad1    : Nat
  cmdGrestore : Word
  nEndPad2    : Nat
  cmdStart    : Word
  endingFar   : Word
  endMask     : Word
  endCtlReg   : String
  endCtl      : Word
  cmdDesync   : Word
  nEndTrail   : Nat
  deriving DecidableEq, Repr, Inhabited

/-- One entry of `FAMILY_TABLE` (R151) with its "bound generator" `GENREC[family]` (R171): the two tables
have the same keys (R225), so they are held as one (log entry 12). -/
structure ConfigurationSpecification where
  family     : String
  frameWords : Nat
  blockTypes : List BlockType
  logicBt    : Nat
  bramBt     : Nat
  generator  : GenRec
  deriving DecidableEq, Repr, Inhabited

/-- The frame address tuple of spec/43_config_spec.md R157. -/
structure FrameAddr where
  bt   : Nat
  col  : Nat
  sub  : Nat
  base : Nat
  frm  : Nat
  deriving DecidableEq, Repr, Inhabited

/-! ## The constants of an instance (R28, R225) -/

/-- `OPCODE_CODE`: the numeric value of the four opcode names (R73, parameter D4). -/
structure OpcodeCode where
  nop      : BitVec 2
  read     : BitVec 2
  write    : BitVec 2
  reserved : BitVec 2
  deriving DecidableEq, Repr

/-- Which function `CRC_STEP` is (spec/42_crc_sequence.md R131): the default bit-serial CRC, or another
total function of accumulator and word alone that the instance binds. A bound one is uninterpreted
(`Config.boundCrcStep`), so a statement for every `CrcFunction` assumes nothing of `CRC_STEP`, as R131 asks. -/
inductive CrcFunction where
  | bitSerial
  | bound (id : Nat)
  deriving DecidableEq, Repr

/-- The constants of R28 that are parameters of the step function (R9): fixed for a whole run, written by
no operation and not touched by reset (R221). `FAMILIES` is the key set of `familyTable` (D35). -/
structure Constants where
  opcodeCode  : OpcodeCode
  regAddr     : List (String × BitVec 14)
  crcFunction : CrcFunction
  crcInit     : Word
  crcResetCmd : Option Word
  familyTable : List ConfigurationSpecification
  deriving DecidableEq, Repr

/-! ## OPEN values: opaque, no body (log entry 3) -/

namespace Config

/-- A `CRC_STEP` other than the default, one for each identifier: nothing is known of it (R131, U14;
log entry 13). -/
opaque boundCrcStep : Nat → Word → Word → Word

/-- `FAR_PACK`: OPEN, used by no rule (R9, R157, D30). -/
opaque farPack : FrameAddr → Word

/-- Frame size of the V6 family: OPEN (R151, N7). -/
opaque v6FrameWords : Nat

/-- Block types of the V6 family: OPEN (R151, N7). -/
opaque v6BlockTypes : List BlockType

/-- Index of the V6 family's logic block type: OPEN (R151, N7). -/
opaque v6LogicBt : Nat

/-- Index of the V6 family's BRAM block type: OPEN (R151, N7). -/
opaque v6BramBt : Nat

/-- `N_SYNC_NOP` of V6: OPEN (R171). -/
opaque v6NSyncNop : Nat

/-- `COR_VALUE` of V6: OPEN (R171). -/
opaque v6CorValue : Word

/-- `INIT_MASK` of V6: OPEN (R171). -/
opaque v6InitMask : Word

/-- `INIT_CTL` of V6: OPEN (R171). -/
opaque v6InitCtl : Word

/-- `N_INIT_PAD` of V6: OPEN (R171). -/
opaque v6NInitPad : Nat

/-- `N_END_PAD1` of V6: OPEN (R171). -/
opaque v6NEndPad1 : Nat

/-- `N_END_PAD2` of V6: OPEN (R171). -/
opaque v6NEndPad2 : Nat

/-- `END_MASK` of V6: OPEN (R171). -/
opaque v6EndMask : Word

/-- `END_CTL` of V6: OPEN (R171). -/
opaque v6EndCtl : Word

/-- `N_END_TRAIL` of V6: OPEN (R171, R177). -/
opaque v6NEndTrail : Nat

end Config

end Sys2Proof
end

