-- ==== Sys2Proof/Syntax.lean ====
section
/-! DEFINITION. The instruction set: one constructor of `Instr` per row of spec/opcode_table.json, the
packet record, and what stands on the host's side of the command port (spec/30_encoding.md R80, R81;
spec/10_state.md R24, R34). -/

namespace Sys2Proof

/-- `PacketOpcode`: the closed set {NOP, READ, WRITE, RESERVED} (R13, R73). -/
inductive Opcode where
  | nop | read | write | reserved
  deriving DecidableEq, Repr

/-- A register operand: a symbol, or the marker `NONE` for "register absent" (R13, R81). The symbol need not
be a key of `REG_ADDR`: an unknown one is no encoding error but faults at the lookup (R81;
log entry 14). -/
inductive RegName where
  | none
  | named (name : String)
  deriving DecidableEq, Repr

/-- Header type of a packet (R13). -/
inductive HType where
  | t1 | t2
  deriving DecidableEq, Repr

/-- The `Packet` record (R13, R24). -/
structure Packet where
  htype   : HType
  opcode  : Opcode
  reg     : RegName
  count   : Nat
  payload : List Word
  deriving DecidableEq, Repr

/-- The instructions, one per row of the opcode table and in its order. The first eight rows are wire-level
header words (R71, R72) with the fields the word holds; the other twenty-one are the operations of the
command port (R80) with their operands. -/
inductive Instr where
  | t1Nop (reg : BitVec 14) (rsvd : BitVec 2) (wc : BitVec 11)
  | t1Read (reg : BitVec 14) (rsvd : BitVec 2) (wc : BitVec 11)
  | t1Write (reg : BitVec 14) (rsvd : BitVec 2) (wc : BitVec 11)
  | t1Reserved (reg : BitVec 14) (rsvd : BitVec 2) (wc : BitVec 11)
  | t2Nop (wc : BitVec 27)
  | t2Read (wc : BitVec 27)
  | t2Write (wc : BitVec 27)
  | t2Reserved (wc : BitVec 27)
  | lkReg (name : RegName)
  | lkOp (name : String)
  | pkNop
  | pkW1 (opname : String) (regname : RegName) (value : Word)
  | pkT1 (opname : String) (regname : RegName) (count : Nat) (payload : List Word)
  | pkT2 (opname : String) (regname : RegName) (count : Nat) (payload : List Word)
  | decHdr (w : Word)
  | sqNew
  | sqAdd
  | sqAddAll (packets : List Packet)
  | sqCrcw
  | csResolve (family : String)
  | csTotal (bt : Nat)
  | csLocate (bt col t : Nat)
  | faStart (ncols : List Nat)
  | faNext
  | gnInit (idcode : Word)
  | gnFdri (payload : List Word)
  | gnEnd
  | gnInitp (idcode : Word)
  | gnEndp
  deriving DecidableEq, Repr

/-- The operands that travel beside an operation code (R80): two symbol operands, a word, three naturals,
and the list on the payload port, which is of words, of packets or of naturals. An operation reads the
operands its row lists and no others (log entry 4). -/
structure Operands where
  symbol  : String := ""
  reg     : RegName := .none
  word    : Word := 0#32
  nat0    : Nat := 0
  nat1    : Nat := 0
  nat2    : Nat := 0
  words   : List Word := []
  packets : List Packet := []
  nats    : List Nat := []
  deriving DecidableEq, Repr

/-- What the host gives the block at one time: an operation of the command port (R80), or a wire-level header
word for the header decoder (R75; log entry 5). -/
inductive Transaction where
  | operation (code : BitVec 8) (operands : Operands)
  | headerWord (w : Word)
  deriving DecidableEq, Repr

/-- The moves the outside world has: a transaction, or reset, which happens between operations only
(spec/70_reset_and_hazards.md R220, R224; log entry 11). -/
inductive HostEvent where
  | transaction (t : Transaction)
  | reset
  deriving DecidableEq, Repr

end Sys2Proof
end

