-- ==== Sys2Proof/Machine/Tables.lean ====
section
/-! DEFINITION. The default values of the tables (spec/30_encoding.md R73, R78; spec/42_crc_sequence.md
R131, R133), which the spec takes from general knowledge (log entry 10), and the look-ups into the tables of
an instance. -/

namespace Sys2Proof

/-- `OPCODE_CODE`: NOP 0, READ 1, WRITE 2, RESERVED 3 (R73). -/
def Config.opcodeCode : OpcodeCode := ⟨0#2, 1#2, 2#2, 3#2⟩

/-- `REG_ADDR` (R78), in the table's order. -/
def Config.regAddr : List (String × BitVec 14) :=
  [("CRC", 0#14), ("FAR", 1#14), ("FDRI", 2#14), ("CMD", 4#14), ("CTL0", 5#14), ("MASK", 6#14),
   ("COR0", 9#14), ("IDCODE", 12#14), ("COR1", 14#14), ("WBSTAR", 16#14), ("TIMER", 17#14),
   ("CTL1", 24#14)] ++
  [("FDRO", 3#14), ("STAT", 7#14), ("LOUT", 8#14), ("MFWR", 10#14), ("CBC", 11#14), ("AXSS", 13#14),
   ("CSOB", 15#14), ("CAL", 19#14), ("BOOTSTS", 22#14)]

/-- `CRC_INIT` (R131). -/
def Config.crcInit : Word := 0#32

/-- `CRC_RESET_CMD` (R133). -/
def Config.crcResetCmd : Option Word := some 0x00000007#32

/-- The entry of `REG_ADDR` for a register operand; `NONE` has none (R78, R79). -/
def Constants.addrOf? (c : Constants) : RegName → Option (BitVec 14)
  | .none => none
  | .named n => (c.regAddr.find? (fun e => e.1 = n)).map (·.2)

/-- "`name` is a key of `REG_ADDR`" (R100); never so for `NONE`. -/
abbrev Constants.IsRegister (c : Constants) (r : RegName) : Prop := (c.addrOf? r).isSome = true

/-- `reg_of_addr(a)` (R75): the name at an address, `NONE` where there is none. -/
def Constants.regOfAddr (c : Constants) (a : BitVec 14) : RegName :=
  match c.regAddr.find? (fun e => e.2 = a) with
  | some e => .named e.1
  | none => .none

/-- The entry of `FAMILY_TABLE` for a family identifier (R151, R154). -/
def Constants.family? (c : Constants) (f : String) : Option ConfigurationSpecification :=
  c.familyTable.find? (fun S => S.family = f)

/-- `OPCODE_CODE[opcode]` (R73). -/
def Constants.codeOf (c : Constants) : Opcode → BitVec 2
  | .nop => c.opcodeCode.nop
  | .read => c.opcodeCode.read
  | .write => c.opcodeCode.write
  | .reserved => c.opcodeCode.reserved

/-- `name_of_opc` (R75): the inverse of `OPCODE_CODE`, total on 2 bits. -/
def Constants.nameOfOpc (c : Constants) (v : BitVec 2) : Opcode :=
  if v = c.opcodeCode.nop then .nop
  else if v = c.opcodeCode.read then .read
  else if v = c.opcodeCode.write then .write
  else .reserved

/-- The largest count the word-count field of a header type holds (R9, R24). -/
def HType.maxWords : HType → Nat
  | .t1 => t1MaxWords
  | .t2 => t2MaxWords

end Sys2Proof
end

