-- ==== Sys2Proof/WellFormed.lean ====
section
/-! DEFINITION. The checks: a well-formed constant set (spec/70_reset_and_hazards.md R225), a well-formed
packet (spec/10_state.md R32) and a well-formed instruction (spec/30_encoding.md R71, R77, R79). -/

namespace Sys2Proof

/-- `wf(p)` (R32), clauses (a) to (e) in order. -/
abbrev Packet.WellFormed (c : Constants) (p : Packet) : Prop :=
  (p.opcode = .write → p.count = p.payload.length) ∧
  (p.opcode ≠ .write → p.payload.length = 0 ∨ p.payload.length = p.count) ∧
  (p.htype = .t1 → p.count ≤ t1MaxWords) ∧
  (p.htype = .t2 → p.count ≤ t2MaxWords) ∧
  (p.opcode = .nop → p.reg = .none) ∧
  (p.opcode ≠ .nop → c.IsRegister p.reg)

/-- The bounds of R151 on one block type: at least one subtype, each with at least one frame, names distinct. -/
abbrev BlockType.WellFormed (b : BlockType) : Prop :=
  b.subtypes ≠ [] ∧ (∀ s ∈ b.subtypes, 1 ≤ s.fpcb) ∧ (b.subtypes.map (·.name)).Nodup

/-- The bounds of R151 on one entry of `FAMILY_TABLE`. -/
abbrev ConfigurationSpecification.WellFormed (S : ConfigurationSpecification) : Prop :=
  1 ≤ S.frameWords ∧ S.blockTypes ≠ [] ∧ (∀ b ∈ S.blockTypes, b.WellFormed) ∧
  (S.blockTypes.map (·.name)).Nodup ∧ S.logicBt < S.blockTypes.length ∧ S.bramBt < S.blockTypes.length

/-- `OPCODE_CODE` is a bijection onto `0..3` (R73, R225). -/
abbrev OpcodeCode.WellFormed (o : OpcodeCode) : Prop := [o.nop, o.read, o.write, o.reserved].Nodup

/-- A well-formed constant set (R225): `REG_ADDR` injective (names and addresses distinct; every address is
below 2^14 by its type), `OPCODE_CODE` a bijection, every record of `FAMILY_TABLE` within the bounds of R151
and the families distinct. That `GENREC` has the same keys holds by construction. A `GENREC` register name
that is no key of `REG_ADDR` is no ill-formedness: the generator operations then fault (R225). -/
abbrev Constants.WellFormed (c : Constants) : Prop :=
  (c.regAddr.map (·.1)).Nodup ∧ (c.regAddr.map (·.2)).Nodup ∧ c.opcodeCode.WellFormed ∧
  (∀ S ∈ c.familyTable, S.WellFormed) ∧ (c.familyTable.map (·.family)).Nodup

/-- A well-formed instruction. A wire-level header word is well formed when it is one the encoder can
produce: the reserved bits are 0 (R71), a NOP's register field is 0 (R79), and there is no Type-2 NOP
(R114); which addresses `REG_ADDR` holds is a constant of the instance and not checked here. Every
operation of the command port is well formed: an operand out of range or an unknown name is a fault of the
operation, not an encoding error (R81). Ill-formed words still decode and run (R75: the decoder is total). -/
def Instr.wellFormed : Instr → Bool
  | .t1Nop reg rsvd _ => reg == 0#14 && rsvd == 0#2
  | .t1Read _ rsvd _ => rsvd == 0#2
  | .t1Write _ rsvd _ => rsvd == 0#2
  | .t1Reserved _ rsvd _ => rsvd == 0#2
  | .t2Nop _ => false
  | .t2Read _ | .t2Write _ | .t2Reserved _ => true
  | .lkReg _ | .lkOp _ => true
  | .pkNop | .pkW1 _ _ _ | .pkT1 _ _ _ _ | .pkT2 _ _ _ _ | .decHdr _ => true
  | .sqNew | .sqAdd | .sqAddAll _ | .sqCrcw => true
  | .csResolve _ | .csTotal _ | .csLocate _ _ _ | .faStart _ | .faNext => true
  | .gnInit _ | .gnFdri _ | .gnEnd | .gnInitp _ | .gnEndp => true

end Sys2Proof
end

