-- ==== Sys2Proof/Decode.lean ====
section
/-! DEFINITION. Decoding and encoding: the fields of a wire-level header word (spec/30_encoding.md R71, R72,
R75), the operation codes of the command port (R80, R82), and the encoder written from the same tables. -/

namespace Sys2Proof

/-! ## Fields of a header word -/

/-- `w[31:29]`, the frame-type field (R71, R72). -/
def hdrType (w : Word) : BitVec 3 := w.extractLsb' 29 3

/-- `w[28:27]`, the opcode field (R71, R72). -/
def hdrOpc (w : Word) : BitVec 2 := w.extractLsb' 27 2

/-- `w[26:13]`, the register address of a Type-1 header (R71). -/
def hdrReg (w : Word) : BitVec 14 := w.extractLsb' 13 14

/-- `w[12:11]`, the two reserved bits of a Type-1 header (R71, D3). -/
def hdrRsvd (w : Word) : BitVec 2 := w.extractLsb' 11 2

/-- `w[10:0]`, the word count of a Type-1 header (R71). -/
def hdrWc1 (w : Word) : BitVec 11 := w.extractLsb' 0 11

/-- `w[26:0]`, the word count of a Type-2 header (R72). -/
def hdrWc2 (w : Word) : BitVec 27 := w.extractLsb' 0 27

/-- A Type-1 header word from its fields: `{001, opc, reg, rsvd, wc}` (R71). -/
def t1Word (opc : BitVec 2) (reg : BitVec 14) (rsvd : BitVec 2) (wc : BitVec 11) : Word :=
  1#3 ++ opc ++ reg ++ rsvd ++ wc

/-- A Type-2 header word from its fields: `{010, opc, wc}` (R72). -/
def t2Word (opc : BitVec 2) (wc : BitVec 27) : Word := 2#3 ++ opc ++ wc

/-! ## Decoding -/

/-- Why a transaction stands for no row of the opcode table. -/
inductive DecodeError where
  /-- An operation code that R80 does not list (R82). -/
  | unknownOp (code : BitVec 8)
  /-- A word whose type field is not 1 or 2: no packet of that type is defined (R77 (a)). -/
  | otherHeader (htype : BitVec 3)
  deriving DecidableEq, Repr

/-- The row of a Type-1 header word, by its opcode field (R73). -/
def t1Instr (opc : BitVec 2) (reg : BitVec 14) (rsvd : BitVec 2) (wc : BitVec 11) : Instr :=
  if opc = 0#2 then .t1Nop reg rsvd wc
  else if opc = 1#2 then .t1Read reg rsvd wc
  else if opc = 2#2 then .t1Write reg rsvd wc
  else .t1Reserved reg rsvd wc

/-- The row of a Type-2 header word, by its opcode field (R73). -/
def t2Instr (opc : BitVec 2) (wc : BitVec 27) : Instr :=
  if opc = 0#2 then .t2Nop wc
  else if opc = 1#2 then .t2Read wc
  else if opc = 2#2 then .t2Write wc
  else .t2Reserved wc

/-- A header word, total on all 2^32 words (R75, R77). -/
def decodeHeader (w : Word) : Except DecodeError Instr :=
  if hdrType w = 1#3 then .ok (t1Instr (hdrOpc w) (hdrReg w) (hdrRsvd w) (hdrWc1 w))
  else if hdrType w = 2#3 then .ok (t2Instr (hdrOpc w) (hdrWc2 w))
  else .error (.otherHeader (hdrType w))

/-- An operation code and its operands, total on all 256 codes (R80, R82). -/
def decodeOperation (code : BitVec 8) (o : Operands) : Except DecodeError Instr :=
  if code = 0x01#8 then .ok (.lkReg o.reg)
  else if code = 0x02#8 then .ok (.lkOp o.symbol)
  else if code = 0x10#8 then .ok .pkNop
  else if code = 0x11#8 then .ok (.pkW1 o.symbol o.reg o.word)
  else if code = 0x12#8 then .ok (.pkT1 o.symbol o.reg o.nat0 o.words)
  else if code = 0x13#8 then .ok (.pkT2 o.symbol o.reg o.nat0 o.words)
  else if code = 0x14#8 then .ok (.decHdr o.word)
  else if code = 0x20#8 then .ok .sqNew
  else if code = 0x21#8 then .ok .sqAdd
  else if code = 0x22#8 then .ok (.sqAddAll o.packets)
  else if code = 0x23#8 then .ok .sqCrcw
  else if code = 0x30#8 then .ok (.csResolve o.symbol)
  else if code = 0x31#8 then .ok (.csTotal o.nat0)
  else if code = 0x32#8 then .ok (.csLocate o.nat0 o.nat1 o.nat2)
  else if code = 0x33#8 then .ok (.faStart o.nats)
  else if code = 0x34#8 then .ok .faNext
  else if code = 0x40#8 then .ok (.gnInit o.word)
  else if code = 0x41#8 then .ok (.gnFdri o.words)
  else if code = 0x42#8 then .ok .gnEnd
  else if code = 0x43#8 then .ok (.gnInitp o.word)
  else if code = 0x44#8 then .ok .gnEndp
  else .error (.unknownOp code)

/-- A transaction, total; a refusal names its reason. -/
def decode : Transaction → Except DecodeError Instr
  | .operation code o => decodeOperation code o
  | .headerWord w => decodeHeader w

/-! ## Encoding -/

/-- The transaction an instruction is given to the block as (R71, R72, R80). Operands that the row does
not list stand at their defaults. -/
def encode : Instr → Transaction
  | .t1Nop reg rsvd wc => .headerWord (t1Word 0#2 reg rsvd wc)
  | .t1Read reg rsvd wc => .headerWord (t1Word 1#2 reg rsvd wc)
  | .t1Write reg rsvd wc => .headerWord (t1Word 2#2 reg rsvd wc)
  | .t1Reserved reg rsvd wc => .headerWord (t1Word 3#2 reg rsvd wc)
  | .t2Nop wc => .headerWord (t2Word 0#2 wc)
  | .t2Read wc => .headerWord (t2Word 1#2 wc)
  | .t2Write wc => .headerWord (t2Word 2#2 wc)
  | .t2Reserved wc => .headerWord (t2Word 3#2 wc)
  | .lkReg name => .operation 0x01#8 { reg := name }
  | .lkOp name => .operation 0x02#8 { symbol := name }
  | .pkNop => .operation 0x10#8 {}
  | .pkW1 opname regname value => .operation 0x11#8 { symbol := opname, reg := regname, word := value }
  | .pkT1 opname regname count payload =>
    .operation 0x12#8 { symbol := opname, reg := regname, nat0 := count, words := payload }
  | .pkT2 opname regname count payload =>
    .operation 0x13#8 { symbol := opname, reg := regname, nat0 := count, words := payload }
  | .decHdr w => .operation 0x14#8 { word := w }
  | .sqNew => .operation 0x20#8 {}
  | .sqAdd => .operation 0x21#8 {}
  | .sqAddAll packets => .operation 0x22#8 { packets := packets }
  | .sqCrcw => .operation 0x23#8 {}
  | .csResolve family => .operation 0x30#8 { symbol := family }
  | .csTotal bt => .operation 0x31#8 { nat0 := bt }
  | .csLocate bt col t => .operation 0x32#8 { nat0 := bt, nat1 := col, nat2 := t }
  | .faStart ncols => .operation 0x33#8 { nats := ncols }
  | .faNext => .operation 0x34#8 {}
  | .gnInit idcode => .operation 0x40#8 { word := idcode }
  | .gnFdri payload => .operation 0x41#8 { words := payload }
  | .gnEnd => .operation 0x42#8 {}
  | .gnInitp idcode => .operation 0x43#8 { word := idcode }
  | .gnEndp => .operation 0x44#8 {}

/-! ## The table's bits -/

/-- The transaction whose bits, numbered as spec/opcode_table.json numbers them, are `w`: an 8-bit row is an
operation code with every operand zero or empty, a 32-bit row is a header word. -/
def tableTransaction (nbits w : Nat) : Option Transaction :=
  if nbits = 8 then some (.operation (BitVec.ofNat 8 w) {})
  else if nbits = 32 then some (.headerWord (BitVec.ofNat 32 w))
  else none

/-- The instruction the decoder reads from an instruction whose bits are `w`. -/
def decodeTableWord (nbits w : Nat) : Option Instr :=
  match tableTransaction nbits w with
  | some t => (decode t).toOption
  | none => none

end Sys2Proof
end

