-- ==== Sys2Proof/Machine/Instance.lean ====
section
/-! DEFINITION. The constants of the instance that `State.reset` describes (spec/00_scope.md R9): the default
tables and the one family the source names, V6 (spec/92_eei_decisions.md D35). What the spec leaves OPEN of
V6 stays open here, within the bounds spec/43_config_spec.md R151 sets (log entry 3). -/

namespace Sys2Proof

/-- `GENREC[V6]` (R171): the source's `ENDING_FAR`, the defaults the table marks G, and the OPEN fields. -/
def Config.v6GenRec : GenRec where
  nSyncNop    := Config.v6NSyncNop
  wbstarReset := 0x00000000#32
  timerReset  := 0x00000000#32
  calReg      := "CAL"
  calReset    := 0x00000000#32
  corReg      := "COR0"
  corValue    := Config.v6CorValue
  cmdSwitch   := 0x00000009#32
  initMask    := Config.v6InitMask
  initCtlReg  := "CTL0"
  initCtl     := Config.v6InitCtl
  nInitPad    := Config.v6NInitPad
  nEndPad1    := Config.v6NEndPad1
  cmdGrestore := 0x0000000A#32
  nEndPad2    := Config.v6NEndPad2
  cmdStart    := 0x00000005#32
  endingFar   := 0x00EF8000#32
  endMask     := Config.v6EndMask
  endCtlReg   := "CTL0"
  endCtl      := Config.v6EndCtl
  cmdDesync   := 0x0000000D#32
  nEndTrail   := Config.v6NEndTrail

/-- The block types of V6: any list within the bounds of R151, none chosen; the second branch is never a
claim about V6, it only keeps the bounds. -/
def Config.v6BlockTypesBounded : List BlockType :=
  if Config.v6BlockTypes ≠ [] ∧ (∀ b ∈ Config.v6BlockTypes, b.WellFormed) ∧
      (Config.v6BlockTypes.map (·.name)).Nodup then
    Config.v6BlockTypes
  else [⟨"", [⟨"", 1⟩]⟩]

/-- The V6 entry of `FAMILY_TABLE` (R151): every number of it is OPEN, within its bound. -/
def Config.v6 : ConfigurationSpecification where
  family     := "V6"
  frameWords := max 1 Config.v6FrameWords
  blockTypes := Config.v6BlockTypesBounded
  logicBt    := Config.v6LogicBt % Config.v6BlockTypesBounded.length
  bramBt     := Config.v6BramBt % Config.v6BlockTypesBounded.length
  generator  := Config.v6GenRec

/-- The constants of the instance that `State.reset` describes: every parameter at the value
"this hardware takes" (R9), and the one family the source names (D35; log entry 3). -/
def Config.constants : Constants where
  opcodeCode  := Config.opcodeCode
  regAddr     := Config.regAddr
  crcFunction := .bitSerial
  crcInit     := Config.crcInit
  crcResetCmd := Config.crcResetCmd
  familyTable := [Config.v6]

end Sys2Proof
end

