-- ==== Sys2Proof/Machine/State.lean ====
section
/-! DEFINITION. The state of the block (spec/10_state.md R20 to R34), the faults an operation raises
(spec/60_exceptions.md R190, R191), what the result port carries, and the two ways a step of the MODEL can
stop. A fault of the block is not a stop: it is a next state with the fault latch written (R193). -/

namespace Sys2Proof.Machine

/-! ## The block's own faults -/

/-- The subcodes of MalformedPacket (R191). -/
inductive MalformedSub where
  | countMismatch
  | nopWithRegister
  | t2Orphan
  deriving DecidableEq, Repr

/-- The subcodes of IllegalOperation (R191). -/
inductive IllegalSub where
  | noPacket
  | noFamily
  | badOperand
  | faInactive
  | faDone
  | unknownOp (code : BitVec 8)
  deriving DecidableEq, Repr

/-- The eight faults of R190, each with what its information word reports (R191). -/
inductive BlockFault where
  | invalidRegister
  | invalidOpcode
  | packetOverflow (length : Nat)
  | malformedPacket (sub : MalformedSub)
  | unsupportedFamily
  | unimplementedOperation (op : BitVec 8)
  | frameIndexOutOfRange (t : Nat)
  | illegalOperation (sub : IllegalSub)
  deriving DecidableEq, Repr

/-! ## The result port -/

/-- A decoded header word (R75). -/
inductive DecHdr where
  | t1 (opcode : Opcode) (addr : BitVec 14) (rsvd : BitVec 2) (count : BitVec 11)
  | t2 (opcode : Opcode) (count : BitVec 27)
  | other (htype : BitVec 3)
  deriving DecidableEq, Repr

/-- The result values of an operation that succeeds (R80, column "result on success"). -/
inductive ResultValue where
  | unit
  | addr (a : BitVec 14)
  | opc (code : BitVec 2)
  | header (d : DecHdr) (regname : Option RegName)
  | acc (a : Word)
  | accNpkt (a : Word) (npkt : Nat)
  | spec (frameWords : Nat) (blockTypeNames : List String) (logicBt bramBt : Nat)
  | frames (n : Nat)
  | frameAddr (a : FrameAddr)
  | frameAddrLast (a : FrameAddr) (last : Bool)
  deriving DecidableEq, Repr

/-- The result port (R34): `ok` with the result values, or `fault(code, info)`; `idle` before the first
operation after reset (log entry 2). -/
inductive ResultPort where
  | idle
  | ok (v : ResultValue)
  | fault (code : BitVec 8) (info : Word)
  deriving DecidableEq, Repr

/-! ## The state -/

/-- `FA`, the frame-address cursor (R25). -/
structure Cursor where
  active : Bool
  done   : Bool
  ncols  : List Nat
  bt     : Nat
  col    : Nat
  sub    : Nat
  frm    : Nat
  deriving DecidableEq, Repr

/-- `FA` cleared: its reset value (R25, R30) and what `CS.RESOLVE` leaves (R154). -/
def Cursor.cleared : Cursor := ⟨false, false, [], 0, 0, 0, 0⟩

/-- The state. `acc` to `lastinfo` are the state elements of R22 to R27; `result` is the result port of R34.
`pkt` is `none` exactly when `PKT.valid = 0`: the other fields are then unspecified and never read, and
spec/93_implementation_defined.md U11 asks for an option type (log entry 6). The last two fields are the model's own, no
state of the block: `host`, what the outside world will do, oldest first (the block buffers nothing: a step
takes the first event and no operation reads the rest; log entry 1), and `consts`, the constants this
instance was built with (R28: no operation writes them, reset does not touch them; log entry 3). -/
structure State where
  acc      : Word
  seq      : List Packet
  pkt      : Option Packet
  fa       : Cursor
  fam      : Option String
  lasterr  : BitVec 8
  lastinfo : Word
  result   : ResultPort
  host     : List HostEvent
  consts   : Constants
  deriving DecidableEq, Repr

/-- The state after reset of an instance built with constants `c`: the values of R30. -/
def State.resetOf (c : Constants) : State where
  acc      := c.crcInit
  seq      := []
  pkt      := none
  fa       := Cursor.cleared
  fam      := none
  lasterr  := 0#8
  lastinfo := 0#32
  result   := .idle
  host     := []
  consts   := c

/-- The state after reset (R30) of the instance with the parameter values of R9. -/
def State.reset : State := State.resetOf Config.constants

/-! ## Stops of the model -/

/-- Why a step of the model stops with a fault. The spec's own faults are no stops (R193). -/
inductive Fault where
  /-- Raised by the operations that read `FAMILY_TABLE[FAM]` (`CS.TOTAL`, `CS.LOCATE`, `FA.START`, `FA.NEXT`,
  `GN.INIT`, `GN.END`) when `FAM` holds an identifier with no entry. R26 says it never does: no run reaches
  such a state (log entry 9). Safe. -/
  | familyUnbound
  /-- Raised by `FA.NEXT` when an active cursor points outside the family's table. R158 and R159 never leave one
  there when the table is well formed (R151): no such run reaches it (log entry 9). Safe. -/
  | cursorOutsideTable
  deriving DecidableEq, Repr

/-- Why a step of the model is refused. -/
inductive Refusal where
  /-- Raised by an arm of `exec` whose instruction has no meaning yet; no arm is of that kind. Safe. -/
  | notModelled (mnemonic : String)
  deriving DecidableEq, Repr

end Sys2Proof.Machine
end

