-- ==== Sys2Proof/Machine/Flags.lean ====
section
/-! DEFINITION. The status bits and the fault latch (spec/10_state.md R27): the numeric fault codes and
information words (spec/60_exceptions.md R190, R191) and what `FA.active`, `FA.done` and `PKT.valid` are. -/

namespace Sys2Proof.Machine

/-- The fault code of R190. -/
def BlockFault.code : BlockFault → BitVec 8
  | .invalidRegister => 1#8
  | .invalidOpcode => 2#8
  | .packetOverflow _ => 3#8
  | .malformedPacket _ => 4#8
  | .unsupportedFamily => 5#8
  | .unimplementedOperation _ => 6#8
  | .frameIndexOutOfRange _ => 7#8
  | .illegalOperation _ => 8#8

/-- The subcode of MalformedPacket (R191). -/
def MalformedSub.info : MalformedSub → Word
  | .countMismatch => 1#32
  | .nopWithRegister => 2#32
  | .t2Orphan => 3#32

/-- The information word of IllegalOperation (R191): the subcode in bits [7:0], and for UNKNOWN_OP the
operation code in bits [15:8]. -/
def IllegalSub.info : IllegalSub → Word
  | .noPacket => 1#32
  | .noFamily => 2#32
  | .badOperand => 3#32
  | .faInactive => 4#32
  | .faDone => 5#32
  | .unknownOp code => 0#16 ++ code ++ 6#8

/-- The information word (R191); a length or an index is cut to its low 32 bits. -/
def BlockFault.info : BlockFault → Word
  | .invalidRegister => 0#32
  | .invalidOpcode => 0#32
  | .packetOverflow length => BitVec.ofNat 32 length
  | .malformedPacket sub => sub.info
  | .unsupportedFamily => 0#32
  | .unimplementedOperation op => op.setWidth 32
  | .frameIndexOutOfRange t => BitVec.ofNat 32 t
  | .illegalOperation sub => sub.info

/-- `PKT.valid` (R24, R27). -/
def State.pktValid (s : State) : Bool := s.pkt.isSome

/-- `FA.done` as `FA.START` sets it: 1 exactly when no frame exists (R158). -/
def doneAtStart (n : Nat) : Bool := n == 0

end Sys2Proof.Machine
end

