-- ==== Sys2Proof/Machine/Operands.lean ====
section
/-! DEFINITION. The operand forms of the command level (spec/30_encoding.md R81): names of the closed sets,
counts with their lists, block type indices. Each check raises the fault its rule names. -/

namespace Sys2Proof.Machine

/-- `lookup_reg(name)` (spec/40_lookup.md R100). -/
def lookupReg (c : Constants) (name : RegName) : Except BlockFault (BitVec 14) :=
  match c.addrOf? name with
  | some a => .ok a
  | none => .error .invalidRegister

/-- The opcode an opcode name stands for, compared exactly and case-sensitively (R81, R100). -/
def opcodeOfName? (name : String) : Option Opcode :=
  if name = "NOP" then some .nop
  else if name = "READ" then some .read
  else if name = "WRITE" then some .write
  else if name = "RESERVED" then some .reserved
  else none

/-- The check of an opcode name that every build operation makes first (R100, R115). -/
def lookupOpcode (name : String) : Except BlockFault Opcode :=
  match opcodeOfName? name with
  | some o => .ok o
  | none => .error .invalidOpcode

/-- `lookup_op(name)` (R100): the 2-bit code. -/
def lookupOp (c : Constants) (name : String) : Except BlockFault (BitVec 2) :=
  match opcodeOfName? name with
  | some o => .ok (c.codeOf o)
  | none => .error .invalidOpcode

/-- The length PacketOverflow reports: the larger of the declared count and the payload length (R191). -/
def overflowLength (p : Packet) : Nat := max p.count p.payload.length

/-- Steps (3) and (4) of R115, for either header type: field overflow, then count against payload length. -/
def checkCount (p : Packet) : Except BlockFault Unit :=
  if p.htype.maxWords < overflowLength p then .error (.packetOverflow (overflowLength p))
  else if p.opcode = .write ∧ p.payload.length ≠ p.count then .error (.malformedPacket .countMismatch)
  else if p.opcode ≠ .write ∧ p.payload.length ≠ 0 ∧ p.payload.length ≠ p.count then
    .error (.malformedPacket .countMismatch)
  else .ok ()

/-- The block type an index operand names (R155, R156). -/
def blockTypeOperand (S : ConfigurationSpecification) (bt : Nat) : Except BlockFault BlockType :=
  match S.blockTypes[bt]? with
  | some B => .ok B
  | none => .error (.illegalOperation .badOperand)

end Sys2Proof.Machine
end

