-- ==== Sys2Proof/Machine/Ops.lean ====
section
/-! DEFINITION. The shared operations: how an operation ends (spec/60_exceptions.md R193), reset, the wire
format of a packet (spec/30_encoding.md R74, R75; spec/20_memory.md R53, R54), the rolling checksum
(spec/42_crc_sequence.md R131 to R133) and the one path by which a packet enters the sequence (R135). -/

namespace Sys2Proof.Machine

/-! ## How an operation ends -/

/-- `raise F(info)` (R193): nothing but the latch changes, and the result port carries the fault. There
is no return from it: the block takes its next operation from the state this leaves (R194). -/
def raise (f : BlockFault) (s : State) : State :=
  { s with lasterr := f.code, lastinfo := f.info, result := .fault f.code f.info }

/-- A successful operation clears the latch and gives its result (R193). -/
def succeed (v : ResultValue) (s : State) : State :=
  { s with lasterr := 0#8, lastinfo := 0#32, result := .ok v }

/-- The end of an operation begun in `s`: its effect and result, or its first fault with everything restored
to what `s` held (R193, R195). -/
def complete (s : State) : Except BlockFault (State × ResultValue) → State
  | .ok (t, v) => succeed v t
  | .error f => raise f s

/-- Reset (R220, R221, R30): every state element takes its reset value, the constants stay, and what the
host will do next is not the block's to change. -/
def resetBlock (s : State) : State := { State.resetOf s.consts with host := s.host }

/-- `FAM` and its table entry for an operation that needs a family: the NO_FAMILY check comes first (R195). -/
def withFamily (s : State)
    (k : ConfigurationSpecification → Host.Outcome State Fault Refusal) :
    Host.Outcome State Fault Refusal :=
  match s.fam with
  | none => .next (raise (.illegalOperation .noFamily) s)
  | some f =>
    match s.consts.family? f with
    | none => .fault .familyUnbound
    | some S => k S

/-! ## The wire format -/

/-- The register field of a Type-1 header: `REG_ADDR[reg]`, or 0 when `reg = NONE` (R74, R79). `header` is
applied to packets whose register is a key of `REG_ADDR`, so the 0 of an unknown name is never seen
(log entry 15). -/
def regField (c : Constants) (r : RegName) : BitVec 14 := (c.addrOf? r).getD 0#14

/-- `header(p)` (R74). -/
def header (c : Constants) (p : Packet) : Word :=
  match p.htype with
  | .t1 => t1Word (c.codeOf p.opcode) (regField c p.reg) 0#2 (BitVec.ofNat 11 p.count)
  | .t2 => t2Word (c.codeOf p.opcode) (BitVec.ofNat 27 p.count)

/-- `dec_hdr(w)` (R75), total. -/
def decHdr (c : Constants) (w : Word) : DecHdr :=
  if hdrType w = 1#3 then .t1 (c.nameOfOpc (hdrOpc w)) (hdrReg w) (hdrRsvd w) (hdrWc1 w)
  else if hdrType w = 2#3 then .t2 (c.nameOfOpc (hdrOpc w)) (hdrWc2 w)
  else .other (hdrType w)

/-- The register name a decoded Type-1 header carries beside its address (spec/41_packet.md R117). -/
def DecHdr.regname (c : Constants) : DecHdr → Option RegName
  | .t1 _ addr _ _ => some (c.regOfAddr addr)
  | .t2 _ _ => none
  | .other _ => none

/-- The header decoder as an operation (R117): the result port carries the decoded fields, nothing else changes. -/
def presentHeader (w : Word) (s : State) : State :=
  succeed (.header (decHdr s.consts w) ((decHdr s.consts w).regname s.consts)) s

/-- `words(p) = [header(p)] ++ p.payload` (R53). -/
def words (c : Constants) (p : Packet) : List Word := header c p :: p.payload

/-- `WORDS(SEQ)` (R53). -/
def wordStream (c : Constants) : List Packet → List Word
  | [] => []
  | p :: ps => words c p ++ wordStream c ps

/-- `bytes(w)`: most significant byte first (R54). -/
def bytesOfWord (w : Word) : List Byte :=
  [w.extractLsb' 24 8, w.extractLsb' 16 8, w.extractLsb' 8 8, w.extractLsb' 0 8]

/-- `BYTES` of a word stream (R54). -/
def byteStream : List Word → List Byte
  | [] => []
  | w :: ws => bytesOfWord w ++ byteStream ws

/-- The sequence port's `WORDS(SEQ)` (R34, R53). -/
def State.words (s : State) : List Word := wordStream s.consts s.seq

/-- `BYTES(SEQ)` (R54). -/
def State.bytes (s : State) : List Byte := byteStream s.words

/-- The sequence port's `NPKT` (R31). -/
def State.npkt (s : State) : Nat := s.seq.length

/-- The sequence port's `NWORDS` (R31). -/
def State.nwords (s : State) : Nat := s.words.length

/-! ## The rolling checksum -/

/-- `CRC_POLY` (R131). -/
def crcPoly : Word := 0x1EDC6F41#32

/-- The loop of R131 over the `k` low bits of `w` that remain, from bit `k - 1` down. -/
def crcBits : Nat → Word → Word → Word
  | 0, acc, _ => acc
  | k + 1, acc, w =>
    crcBits k (if acc.getLsbD 31 != w.getLsbD k then (acc <<< 1) ^^^ crcPoly else acc <<< 1) w

/-- `CRC_STEP(acc, w)` (R131): the default bit-serial function, or the one the instance binds. -/
def crcStep (f : CrcFunction) (acc w : Word) : Word :=
  match f with
  | .bitSerial => crcBits 32 acc w
  | .bound id => Config.boundCrcStep id acc w

/-- `fold(acc, ws)` (R132). -/
def fold (f : CrcFunction) (acc : Word) : List Word → Word
  | [] => acc
  | w :: ws => fold f (crcStep f acc w) ws

/-- Whether a payload word of `p` resets the accumulator (R133, R240). -/
abbrev ResetsCrc (c : Constants) (p : Packet) (w : Word) : Prop :=
  c.crcResetCmd = some w ∧ p.opcode = .write ∧ p.reg = .named "CMD"

/-- The loop of `absorb` over the payload (R133). -/
def absorbPayload (c : Constants) (p : Packet) (acc : Word) : List Word → Word
  | [] => acc
  | w :: ws =>
    absorbPayload c p (if ResetsCrc c p w then c.crcInit else crcStep c.crcFunction acc w) ws

/-- `absorb(acc, p)` (R133): the header, then the payload in order. -/
def absorb (c : Constants) (acc : Word) (p : Packet) : Word :=
  absorbPayload c p (crcStep c.crcFunction acc (header c p)) p.payload

/-- `fold_seq(acc, ps)` (R133). -/
def foldSeq (c : Constants) (acc : Word) : List Packet → Word
  | [] => acc
  | p :: ps => foldSeq c (absorb c acc p) ps

/-! ## The sequence -/

/-- `SEQ` and `ACC`, which change together and nowhere else (spec/20_memory.md R52). -/
structure Stream where
  seq : List Packet
  acc : Word
  deriving DecidableEq, Repr

/-- A fresh sequence (R17): `SEQ = []`, `ACC = CRC_INIT`. -/
def Stream.fresh (c : Constants) : Stream := ⟨[], c.crcInit⟩

/-- The stream a state holds. -/
def State.stream (s : State) : Stream := ⟨s.seq, s.acc⟩

/-- The state with its stream replaced. -/
def State.withStream (s : State) (q : Stream) : State := { s with seq := q.seq, acc := q.acc }

/-- Part (1) of `append_packet` (R135), in its order (R195): the packet alone. -/
def checkPacket (c : Constants) (p : Packet) : Except BlockFault Unit :=
  if p.htype = .t2 ∧ p.opcode = .nop then .error (.malformedPacket .nopWithRegister)
  else if p.opcode = .nop ∧ p.reg ≠ .none then .error (.malformedPacket .nopWithRegister)
  else if p.opcode ≠ .nop ∧ ¬ c.IsRegister p.reg then .error .invalidRegister
  else checkCount p

/-- The packet before a Type-2 packet must be its zero-word Type-1 header (R135 part (2)); only the register
is compared, not the opcode (D10). -/
abbrev HeaderFor (q p : Packet) : Prop := q.htype = .t1 ∧ q.count = 0 ∧ q.reg = p.reg

/-- Part (2) of `append_packet` (R135): the packet against the sequence. -/
def checkPairing (seq : List Packet) (p : Packet) : Except BlockFault Unit :=
  if p.htype = .t2 then
    match seq.getLast? with
    | none => .error (.malformedPacket .t2Orphan)
    | some q => if HeaderFor q p then .ok () else .error (.malformedPacket .t2Orphan)
  else .ok ()

/-- Part (3): `ACC <- absorb(ACC, p)`; `SeqAppend(p)` (R52, R135). -/
def commitPacket (c : Constants) (p : Packet) (q : Stream) : Stream :=
  ⟨q.seq ++ [p], absorb c q.acc p⟩

/-- `append_packet(p)` (R135). -/
def appendPacket (c : Constants) (p : Packet) (q : Stream) : Except BlockFault Stream :=
  match checkPacket c p with
  | .error f => .error f
  | .ok () =>
    match checkPairing q.seq p with
    | .error f => .error f
    | .ok () => .ok (commitPacket c p q)

/-- `append_packet` for each packet of a list in order; the first fault ends it (R137, R195). -/
def appendAll (c : Constants) : List Packet → Stream → Except BlockFault Stream
  | [], q => .ok q
  | p :: ps, q =>
    match appendPacket c p q with
    | .error f => .error f
    | .ok q' => appendAll c ps q'

/-- `T1(NOP, NONE, 0, [])` (spec/41_packet.md R111, spec/44_family_generator.md R172). -/
def nopPacket : Packet := ⟨.t1, .nop, .none, 0, []⟩

/-- `W(r, v) = T1(WRITE, r, 1, [v])` (R172). -/
def writePacket (reg : String) (v : Word) : Packet := ⟨.t1, .write, .named reg, 1, [v]⟩

/-- The CRC write of R138: the accumulator is sampled before anything of the packet is folded. -/
def appendCrcWrite (c : Constants) (q : Stream) : Except BlockFault Stream :=
  appendPacket c (writePacket "CRC" q.acc) q

/-- The end of an appending operation: all packets and their checksum, or nothing (R57, R193). -/
def completeAppend (s : State) (r : Except BlockFault Stream) (v : State → ResultValue) : State :=
  complete s (match r with
    | .ok q => .ok (s.withStream q, v (s.withStream q))
    | .error f => .error f)

/-! ## What a step does with a transaction that is no instruction -/

/-- An unknown operation code raises IllegalOperation(UNKNOWN_OP) (R82); a header word of another type is
reported by the decoder as `OTHER` (R75, R77 (a)). -/
def rejectTransaction (e : DecodeError) (s : State) : State :=
  match e with
  | .unknownOp code => raise (.illegalOperation (.unknownOp code)) s
  | .otherHeader htype => succeed (.header (.other htype) none) s

end Sys2Proof.Machine
end

