-- ==== Sys2Proof/Machine/FrameAddress.lean ====
section
/-! DEFINITION. FASG, the configuration specification and the frame-address generator
(spec/43_config_spec.md R150 to R161). -/

namespace Sys2Proof.Machine

/-! ## The walks -/

/-- The sum of `fpcb` over a list of subtypes. -/
def sumFpcb : List BlockSubType → Nat
  | [] => 0
  | t :: ts => t.fpcb + sumFpcb ts

/-- `total(B)` (R155): the frames of one column. -/
def total (B : BlockType) : Nat := sumFpcb B.subtypes

/-- The loop of `locate` (R156) over the subtypes from index `s` on, `base` frames lying before them. -/
def locateFrom (t s base : Nat) : List BlockSubType → Option (Nat × Nat × Nat)
  | [] => none
  | x :: xs => if t < base + x.fpcb then some (s, base, t - base) else locateFrom t (s + 1) (base + x.fpcb) xs

/-- `locate(B, t)` (R156): subtype index, frames before it, frame within it. -/
def locate (B : BlockType) (t : Nat) : Except BlockFault (Nat × Nat × Nat) :=
  match locateFrom t 0 0 B.subtypes with
  | some r => .ok r
  | none => .error (.frameIndexOutOfRange t)

/-- The frames of a device: `ncols[i] * total(block_types[i])`, summed (R158). -/
def deviceFrames : List Nat → List BlockType → Nat
  | n :: ns, B :: Bs => n * total B + deviceFrames ns Bs
  | _, _ => 0

/-- The least index with a column count above 0, if any (R158). -/
def firstWithColumns : List Nat → Option Nat
  | [] => none
  | n :: ns => if 0 < n then some 0 else (firstWithColumns ns).map (· + 1)

/-- The least `i > bt` with `ncols[i] > 0`, if any (R159). -/
def nextWithColumns (ncols : List Nat) (bt : Nat) : Option Nat :=
  (firstWithColumns (ncols.drop (bt + 1))).map (· + (bt + 1))

/-- The cursor `FA.START` sets (R158). -/
def startCursor (S : ConfigurationSpecification) (ncols : List Nat) : Cursor where
  active := true
  done   := doneAtStart (deviceFrames ncols S.blockTypes)
  ncols  := ncols
  bt     := if 0 < deviceFrames ncols S.blockTypes then (firstWithColumns ncols).getD 0 else 0
  col    := 0
  sub    := 0
  frm    := 0

/-- The frame address at the cursor (R159), `B` being its block type. -/
def cursorAddr (B : BlockType) (fa : Cursor) : FrameAddr where
  bt   := fa.bt
  col  := fa.col
  sub  := fa.sub
  base := sumFpcb (B.subtypes.take fa.sub)
  frm  := fa.frm

/-- The cursor one frame further (R159): `nsub` subtypes in the column, `fpcb` frames in this one, `ncol`
columns in this block type. -/
def advanceCursor (nsub fpcb ncol : Nat) (fa : Cursor) : Cursor :=
  if fa.frm + 1 < fpcb then { fa with frm := fa.frm + 1 }
  else if fa.sub + 1 < nsub then { fa with sub := fa.sub + 1, frm := 0 }
  else if fa.col + 1 < ncol then { fa with col := fa.col + 1, sub := 0, frm := 0 }
  else
    match nextWithColumns fa.ncols fa.bt with
    | some b => { fa with bt := b, col := 0, sub := 0, frm := 0 }
    | none => { fa with done := true }

/-! ## The operations -/

/-- `CS.RESOLVE family` (R154). -/
def execCsResolve (family : String) (s : State) : Host.Outcome State Fault Refusal :=
  match s.consts.family? family with
  | none => .next (raise .unsupportedFamily s)
  | some S =>
    .next (succeed (.spec S.frameWords (S.blockTypes.map (·.name)) S.logicBt S.bramBt)
      { s with fam := some family, fa := Cursor.cleared })

/-- `CS.TOTAL bt` (R155). -/
def execCsTotal (bt : Nat) (s : State) : Host.Outcome State Fault Refusal :=
  withFamily s fun S =>
    .next (complete s ((blockTypeOperand S bt).map fun B => (s, .frames (total B))))

/-- `CS.LOCATE bt, col, t` (R156); `col` is copied into the result and not checked. -/
def execCsLocate (bt col t : Nat) (s : State) : Host.Outcome State Fault Refusal :=
  withFamily s fun S =>
    .next (complete s (match blockTypeOperand S bt with
      | .error f => .error f
      | .ok B => (locate B t).map fun (sub, base, frm) => (s, .frameAddr ⟨bt, col, sub, base, frm⟩)))

/-- `FA.START ncols` (R158). -/
def execFaStart (ncols : List Nat) (s : State) : Host.Outcome State Fault Refusal :=
  withFamily s fun S =>
    if ncols.length ≠ S.blockTypes.length then .next (raise (.illegalOperation .badOperand) s)
    else
      .next (succeed (.frames (deviceFrames ncols S.blockTypes)) { s with fa := startCursor S ncols })

/-- The block type, subtype and column count at the cursor, if the cursor lies within the table. -/
def cursorEntry (S : ConfigurationSpecification) (fa : Cursor) : Option (BlockType × BlockSubType × Nat) :=
  match S.blockTypes[fa.bt]? with
  | none => none
  | some B =>
    match B.subtypes[fa.sub]?, fa.ncols[fa.bt]? with
    | some x, some n => some (B, x, n)
    | _, _ => none

/-- `FA.NEXT` (R159). The family's table is read at the cursor; where `FAM` or the cursor points at no entry
(which no run reaches, R26, R158) the model stops. -/
def execFaNext (s : State) : Host.Outcome State Fault Refusal :=
  if s.fa.active = false then .next (raise (.illegalOperation .faInactive) s)
  else if s.fa.done = true then .next (raise (.illegalOperation .faDone) s)
  else
    match s.fam.bind s.consts.family? with
    | none => .fault .familyUnbound
    | some S =>
      match cursorEntry S s.fa with
      | none => .fault .cursorOutsideTable
      | some (B, x, n) =>
        .next (succeed
          (.frameAddrLast (cursorAddr B s.fa) (advanceCursor B.subtypes.length x.fpcb n s.fa).done)
          { s with fa := advanceCursor B.subtypes.length x.fpcb n s.fa })

end Sys2Proof.Machine
end

