-- ==== Sys2Proof/Machine/Generator.lean ====
section
/-! DEFINITION. GEN, the family generator layer (spec/44_family_generator.md R170 to R181). -/

namespace Sys2Proof.Machine

/-- `[NOP] * n` (R172). -/
def padding (n : Nat) : List Packet := List.replicate n nopPacket

/-- The packets of the initial block (R172), in its order. -/
def initBlock (g : GenRec) (idcode : Word) : List Packet :=
  padding g.nSyncNop ++
  [writePacket "WBSTAR" g.wbstarReset, writePacket "TIMER" g.timerReset, writePacket g.calReg g.calReset] ++
  [writePacket g.corReg g.corValue] ++
  [writePacket "IDCODE" idcode] ++
  [writePacket "CMD" g.cmdSwitch] ++
  [writePacket "MASK" g.initMask, writePacket g.initCtlReg g.initCtl] ++
  padding g.nInitPad

/-- The packets of frame data (R174) of at most `T2_MAX_WORDS` words, by the named policy of R175. -/
def fdriBlock (payload : List Word) : List Packet :=
  if payload.length < fdriT1Threshold then
    [⟨.t1, .write, .named "FDRI", payload.length, payload⟩]
  else
    [⟨.t1, .write, .named "FDRI", 0, []⟩, ⟨.t2, .write, .named "FDRI", payload.length, payload⟩]

/-- Steps 2 to 8 of the ending block (R176). -/
def endBlockMiddle (g : GenRec) : List Packet :=
  padding g.nEndPad1 ++
  [writePacket "CMD" g.cmdGrestore] ++
  padding g.nEndPad2 ++
  [writePacket "CMD" g.cmdStart, writePacket "FAR" g.endingFar, writePacket "MASK" g.endMask,
   writePacket g.endCtlReg g.endCtl]

/-- Steps 10 and 11 of the ending block (R176). -/
def endBlockTail (g : GenRec) : List Packet :=
  [writePacket "CMD" g.cmdDesync] ++ padding g.nEndTrail

/-- The ending block (R176): two CRC commits, each of the accumulator at its own moment. -/
def appendEndBlock (c : Constants) (g : GenRec) (q : Stream) : Except BlockFault Stream :=
  match appendCrcWrite c q with
  | .error f => .error f
  | .ok q1 =>
    match appendAll c (endBlockMiddle g) q1 with
    | .error f => .error f
    | .ok q2 =>
      match appendCrcWrite c q2 with
      | .error f => .error f
      | .ok q3 => appendAll c (endBlockTail g) q3

/-- The result of a generator operation: `(ACC, NPKT)` (R172, R174, R176). -/
def accNpktResult (t : State) : ResultValue := .accNpkt t.acc t.npkt

/-- `GN.INIT idcode` (R172): the initial block on a fresh sequence; on a fault the old sequence is kept. -/
def execGnInit (idcode : Word) (s : State) : Host.Outcome State Fault Refusal :=
  withFamily s fun S =>
    .next (completeAppend s (appendAll s.consts (initBlock S.generator idcode) (.fresh s.consts)) accNpktResult)

/-- `GN.FDRI payload` (R174); the same for every family, `FAM` is not read. -/
def execGnFdri (payload : List Word) (s : State) : Host.Outcome State Fault Refusal :=
  if t2MaxWords < payload.length then .next (raise (.packetOverflow payload.length) s)
  else .next (completeAppend s (appendAll s.consts (fdriBlock payload) s.stream) accNpktResult)

/-- `GN.END` (R176). -/
def execGnEnd (s : State) : Host.Outcome State Fault Refusal :=
  withFamily s fun S =>
    .next (completeAppend s (appendEndBlock s.consts S.generator s.stream) accNpktResult)

/-- `GN.INITP idcode` (R178): always raises UnimplementedOperation with its operation code. -/
def execGnInitp (_idcode : Word) (s : State) : Host.Outcome State Fault Refusal :=
  .next (raise (.unimplementedOperation 0x43#8) s)

/-- `GN.ENDP` (R179): always raises UnimplementedOperation with its operation code. -/
def execGnEndp (s : State) : Host.Outcome State Fault Refusal :=
  .next (raise (.unimplementedOperation 0x44#8) s)

end Sys2Proof.Machine
end

