-- ==== Sys2Proof/Machine/Lookup.lean ====
section
/-! DEFINITION. LKUP, the register and opcode model (spec/40_lookup.md R100 to R103). -/

namespace Sys2Proof.Machine

/-- `LK.REG name` (R101). -/
def execLkReg (name : RegName) (s : State) : Host.Outcome State Fault Refusal :=
  .next (complete s ((lookupReg s.consts name).map fun a => (s, .addr a)))

/-- `LK.OP name` (R102). -/
def execLkOp (name : String) (s : State) : Host.Outcome State Fault Refusal :=
  .next (complete s ((lookupOp s.consts name).map fun code => (s, .opc code)))

end Sys2Proof.Machine
end

