-- ==== Sys2Proof/Machine/PacketEncoder.lean ====
section
/-! DEFINITION. PKTE, the packet encoder (spec/41_packet.md R110 to R118): each build operation either stages
a packet in `PKT` or raises the first failing check of R115 and leaves `PKT` as it was. -/

namespace Sys2Proof.Machine

/-- The end of a build operation (R110). -/
def stage (s : State) (r : Except BlockFault Packet) : State :=
  complete s (r.map fun p => ({ s with pkt := some p }, .unit))

/-- The packet of `PK.W1` (R112): opcode name, register name, then the NOP-register rule. -/
def buildW1 (c : Constants) (opname : String) (regname : RegName) (value : Word) :
    Except BlockFault Packet :=
  match lookupOpcode opname with
  | .error f => .error f
  | .ok o =>
    match lookupReg c regname with
    | .error f => .error f
    | .ok _ =>
      if o = .nop then .error (.malformedPacket .nopWithRegister)
      else .ok ⟨.t1, o, regname, 1, [value]⟩

/-- The register check of `PK.T1` (R113): a NOP has none, any other opcode a known one. -/
def checkRegT1 (c : Constants) (o : Opcode) (regname : RegName) : Except BlockFault Unit :=
  if o = .nop then
    if regname = .none then .ok () else .error (.malformedPacket .nopWithRegister)
  else if c.IsRegister regname then .ok ()
  else .error .invalidRegister

/-- The register check of `PK.T2` (R114): a Type-2 NOP is refused whatever its register, before the lookup. -/
def checkRegT2 (c : Constants) (o : Opcode) (regname : RegName) : Except BlockFault Unit :=
  if o = .nop then .error (.malformedPacket .nopWithRegister)
  else if c.IsRegister regname then .ok ()
  else .error .invalidRegister

/-- The packet of `PK.T1` or `PK.T2` (R113, R114), with the register check of its type. -/
def buildCounted (h : HType) (checkReg : Opcode → RegName → Except BlockFault Unit)
    (opname : String) (regname : RegName) (count : Nat) (payload : List Word) :
    Except BlockFault Packet :=
  match lookupOpcode opname with
  | .error f => .error f
  | .ok o =>
    match checkReg o regname with
    | .error f => .error f
    | .ok () => (checkCount ⟨h, o, regname, count, payload⟩).map fun _ => ⟨h, o, regname, count, payload⟩

/-- `PK.NOP` (R111). -/
def execPkNop (s : State) : Host.Outcome State Fault Refusal :=
  .next (stage s (.ok nopPacket))

/-- `PK.W1 opname, regname, value` (R112). -/
def execPkW1 (opname : String) (regname : RegName) (value : Word) (s : State) :
    Host.Outcome State Fault Refusal :=
  .next (stage s (buildW1 s.consts opname regname value))

/-- `PK.T1 opname, regname, count, list` (R113). -/
def execPkT1 (opname : String) (regname : RegName) (count : Nat) (payload : List Word) (s : State) :
    Host.Outcome State Fault Refusal :=
  .next (stage s (buildCounted .t1 (checkRegT1 s.consts) opname regname count payload))

/-- `PK.T2 opname, regname, count, list` (R114). -/
def execPkT2 (opname : String) (regname : RegName) (count : Nat) (payload : List Word) (s : State) :
    Host.Outcome State Fault Refusal :=
  .next (stage s (buildCounted .t2 (checkRegT2 s.consts) opname regname count payload))

/-- `DEC.HDR w` (R117). -/
def execDecHdr (w : Word) (s : State) : Host.Outcome State Fault Refusal :=
  .next (presentHeader w s)

end Sys2Proof.Machine
end

