-- ==== Sys2Proof/Machine/Sequence.lean ====
section
/-! DEFINITION. CRCU and SEQ, the packet sequence with rolling CRC (spec/42_crc_sequence.md R130 to R140). -/

namespace Sys2Proof.Machine

/-- `SQ.NEW` (R134). -/
def execSqNew (s : State) : Host.Outcome State Fault Refusal :=
  .next (succeed .unit (s.withStream (.fresh s.consts)))

/-- `SQ.ADD` (R136): appends the staged packet and leaves it staged. -/
def execSqAdd (s : State) : Host.Outcome State Fault Refusal :=
  match s.pkt with
  | none => .next (raise (.illegalOperation .noPacket) s)
  | some p => .next (completeAppend s (appendPacket s.consts p s.stream) fun t => .acc t.acc)

/-- `SQ.ADDALL list` (R137): all packets or none. -/
def execSqAddAll (packets : List Packet) (s : State) : Host.Outcome State Fault Refusal :=
  .next (completeAppend s (appendAll s.consts packets s.stream) fun t => .acc t.acc)

/-- `SQ.CRCW` (R138). -/
def execSqCrcw (s : State) : Host.Outcome State Fault Refusal :=
  .next (completeAppend s (appendCrcWrite s.consts s.stream) fun t => .acc t.acc)

end Sys2Proof.Machine
end

