-- ==== Sys2Proof/Machine/Wire.lean ====
section
/-! DEFINITION. The eight wire-level rows of spec/opcode_table.json: a Type-1 or Type-2 header word given to
the block (spec/30_encoding.md R71, R72). The spec has the block do one thing with a header word it is
given: decode it (R75, spec/41_packet.md R117); so each row shows its fields on the result port, and
changes nothing else (log entry 5). -/

namespace Sys2Proof.Machine

/-- T1.NOP (R71, R73, R75). -/
def execT1Nop (reg : BitVec 14) (rsvd : BitVec 2) (wc : BitVec 11) (s : State) :
    Host.Outcome State Fault Refusal :=
  .next (presentHeader (t1Word 0#2 reg rsvd wc) s)

/-- T1.READ (R71, R73, R75). -/
def execT1Read (reg : BitVec 14) (rsvd : BitVec 2) (wc : BitVec 11) (s : State) :
    Host.Outcome State Fault Refusal :=
  .next (presentHeader (t1Word 1#2 reg rsvd wc) s)

/-- T1.WRITE (R71, R73, R75). -/
def execT1Write (reg : BitVec 14) (rsvd : BitVec 2) (wc : BitVec 11) (s : State) :
    Host.Outcome State Fault Refusal :=
  .next (presentHeader (t1Word 2#2 reg rsvd wc) s)

/-- T1.RESERVED (R71, R73, R75). -/
def execT1Reserved (reg : BitVec 14) (rsvd : BitVec 2) (wc : BitVec 11) (s : State) :
    Host.Outcome State Fault Refusal :=
  .next (presentHeader (t1Word 3#2 reg rsvd wc) s)

/-- T2.NOP: decodable, though the encoder refuses to build it (R72, R75, R114). -/
def execT2Nop (wc : BitVec 27) (s : State) : Host.Outcome State Fault Refusal :=
  .next (presentHeader (t2Word 0#2 wc) s)

/-- T2.READ (R72, R73, R75). -/
def execT2Read (wc : BitVec 27) (s : State) : Host.Outcome State Fault Refusal :=
  .next (presentHeader (t2Word 1#2 wc) s)

/-- T2.WRITE (R72, R73, R75). -/
def execT2Write (wc : BitVec 27) (s : State) : Host.Outcome State Fault Refusal :=
  .next (presentHeader (t2Word 2#2 wc) s)

/-- T2.RESERVED (R72, R73, R75). -/
def execT2Reserved (wc : BitVec 27) (s : State) : Host.Outcome State Fault Refusal :=
  .next (presentHeader (t2Word 3#2 wc) s)

end Sys2Proof.Machine
end

