-- ==== Sys2Proof/Machine/Dispatch.lean ====
section
/-! DEFINITION. The meaning of every instruction: one arm per row of spec/opcode_table.json. -/

namespace Sys2Proof.Machine

def exec (i : Instr) (s : State) : Host.Outcome State Fault Refusal :=
  match i with
  | .t1Nop reg rsvd wc => Sys2Proof.Machine.execT1Nop reg rsvd wc s
  | .t1Read reg rsvd wc => Sys2Proof.Machine.execT1Read reg rsvd wc s
  | .t1Write reg rsvd wc => Sys2Proof.Machine.execT1Write reg rsvd wc s
  | .t1Reserved reg rsvd wc => Sys2Proof.Machine.execT1Reserved reg rsvd wc s
  | .t2Nop wc => Sys2Proof.Machine.execT2Nop wc s
  | .t2Read wc => Sys2Proof.Machine.execT2Read wc s
  | .t2Write wc => Sys2Proof.Machine.execT2Write wc s
  | .t2Reserved wc => Sys2Proof.Machine.execT2Reserved wc s
  | .lkReg name => Sys2Proof.Machine.execLkReg name s
  | .lkOp name => Sys2Proof.Machine.execLkOp name s
  | .pkNop => Sys2Proof.Machine.execPkNop s
  | .pkW1 opname regname value => Sys2Proof.Machine.execPkW1 opname regname value s
  | .pkT1 opname regname count payload => Sys2Proof.Machine.execPkT1 opname regname count payload s
  | .pkT2 opname regname count payload => Sys2Proof.Machine.execPkT2 opname regname count payload s
  | .decHdr w => Sys2Proof.Machine.execDecHdr w s
  | .sqNew => Sys2Proof.Machine.execSqNew s
  | .sqAdd => Sys2Proof.Machine.execSqAdd s
  | .sqAddAll packets => Sys2Proof.Machine.execSqAddAll packets s
  | .sqCrcw => Sys2Proof.Machine.execSqCrcw s
  | .csResolve family => Sys2Proof.Machine.execCsResolve family s
  | .csTotal bt => Sys2Proof.Machine.execCsTotal bt s
  | .csLocate bt col t => Sys2Proof.Machine.execCsLocate bt col t s
  | .faStart ncols => Sys2Proof.Machine.execFaStart ncols s
  | .faNext => Sys2Proof.Machine.execFaNext s
  | .gnInit idcode => Sys2Proof.Machine.execGnInit idcode s
  | .gnFdri payload => Sys2Proof.Machine.execGnFdri payload s
  | .gnEnd => Sys2Proof.Machine.execGnEnd s
  | .gnInitp idcode => Sys2Proof.Machine.execGnInitp idcode s
  | .gnEndp => Sys2Proof.Machine.execGnEndp s

end Sys2Proof.Machine
end

