-- ==== Sys2Proof/Machine/Step.lean ====
section
/-! DEFINITION. One step: the block takes the next move of the outside world (spec/10_state.md R34,
spec/60_exceptions.md R200, spec/70_reset_and_hazards.md R224). -/

namespace Sys2Proof.Machine

/-- One step. With nothing presented the block is idle (R222). Reset is a move between operations (R224). A
transaction is decoded and run, or answered as R75 and R82 say where it stands for no instruction. -/
def step (s : State) : Host.Outcome State Fault Refusal :=
  match s.host with
  | [] => .next s
  | .reset :: rest => .next (resetBlock { s with host := rest })
  | .transaction t :: rest =>
    match decode t with
    | .ok i => exec i { s with host := rest }
    | .error e => .next (rejectTransaction e { s with host := rest })

/-- `s` with the instruction whose bits are `w` presented as the next transaction. The block has no program
and no program counter (R21): a program is what the host presents (log entry 1). -/
def State.withFetchWord (s : State) (nbits w : Nat) : State :=
  match tableTransaction nbits w with
  | some t => { s with host := .transaction t :: s.host }
  | none => s

end Sys2Proof.Machine
end

