-- ==== Sys2Proof/Machine/Pseudo.lean ====
section
/-! DEFINITION. The pseudo-operations `EM.*` (spec/30_encoding.md R84): what a host issues for each, and how a
fault ends the expansion. -/

namespace Sys2Proof.Machine

/-- The pseudo-operations of R84; `EM.NOP` alone is `EM.NOP 1`. -/
inductive Pseudo where
  | nop (n : Nat)
  | w1 (opname : String) (regname : RegName) (value : Word)
  | t1 (opname : String) (regname : RegName) (count : Nat) (payload : List Word)
  | t2 (opname : String) (regname : RegName) (count : Nat) (payload : List Word)
  | hdr0 (opname : String) (regname : RegName)
  | cmd (value : Word)
  deriving DecidableEq, Repr

/-- The expansion (R84). In `EM.NOP n` the packet is built once and added `n` times, as program P1 of
spec/95_test_vectors.md issues it (log entry 7). -/
def expandPseudo : Pseudo → List Instr
  | .nop n => .pkNop :: List.replicate n .sqAdd
  | .w1 opname regname value => [.pkW1 opname regname value, .sqAdd]
  | .t1 opname regname count payload => [.pkT1 opname regname count payload, .sqAdd]
  | .t2 opname regname count payload => [.pkT2 opname regname count payload, .sqAdd]
  | .hdr0 opname regname => [.pkT1 opname regname 0 [], .sqAdd]
  | .cmd value => [.pkW1 "WRITE" (.named "CMD") value, .sqAdd]

/-- Operations in order; a fault of one ends the run there (R84). -/
def runUntilFault : List Instr → State → Host.Outcome State Fault Refusal
  | [], s => .next s
  | i :: is, s =>
    match exec i s with
    | .next t => if t.lasterr = 0#8 then runUntilFault is t else .next t
    | .fault r => .fault r
    | .refused r => .refused r

/-- A pseudo-operation from a state (R84). -/
def runPseudo (p : Pseudo) (s : State) : Host.Outcome State Fault Refusal := runUntilFault (expandPseudo p) s

end Sys2Proof.Machine
end

