-- ==== Sys2Proof/Machine/WireReader.lean ====
section
/-! DEFINITION. A reader of the word stream (spec/30_encoding.md R76; spec/93_implementation_defined.md U1):
it cuts `WORDS(SEQ)` into packets again. No operation of the block; it says what the wire format tells a
reader. A WRITE header is followed by `wc` words; a non-WRITE header is taken to be followed by none, which
is how a host writes a stream that can be cut (R76, R233; log entry 8). -/

namespace Sys2Proof.Machine

/-- Why a stream is not cut: the reader refuses it and guesses no length (U1). -/
inductive ReaderStop where
  | otherHeader (htype : BitVec 3)
  | payloadShort
  | unknownAddress (addr : BitVec 14)
  | type2Orphan
  | type2Nop
  deriving DecidableEq, Repr

/-- The register of a Type-1 header: a NOP has none, whatever its field (R79, R117). -/
def readerReg (c : Constants) (o : Opcode) (addr : BitVec 14) : Except ReaderStop RegName :=
  if o = .nop then .ok .none
  else
    match c.regOfAddr addr with
    | .none => .error (.unknownAddress addr)
    | .named n => .ok (.named n)

/-- The packet a header word begins, without its payload; `last` is the packet cut before it, which names a
Type-2 packet's register (R72, R76). A Type-2 NOP is no packet of the block (R114). DESIGN CHOICE (log entry 8): after
a zero-word NOP header, which names no register, a Type-2 header is accepted and its packet has register NONE; the spec
says nothing of it for a reader, and no sequence of the block holds such a packet (R32, R135). -/
def readerHeader (c : Constants) (last : Option Packet) (w : Word) : Except ReaderStop Packet :=
  match decHdr c w with
  | .other htype => .error (.otherHeader htype)
  | .t1 o addr _ wc => (readerReg c o addr).map fun r => ⟨.t1, o, r, wc.toNat, []⟩
  | .t2 o wc =>
    if o = .nop then .error .type2Nop
    else
      match last with
      | some q =>
        if q.htype = .t1 ∧ q.count = 0 then .ok ⟨.t2, o, q.reg, wc.toNat, []⟩ else .error .type2Orphan
      | none => .error .type2Orphan

/-- The number of payload words the reader takes after a header (R76). -/
def readerLength (p : Packet) : Nat := if p.opcode = .write then p.count else 0

/-- Cuts a word list into packets, at most `fuel` of them. -/
def cutPackets (c : Constants) : Nat → Option Packet → List Word → Except ReaderStop (List Packet)
  | _, _, [] => .ok []
  | 0, _, _ :: _ => .error .payloadShort
  | fuel + 1, last, w :: ws =>
    match readerHeader c last w with
    | .error e => .error e
    | .ok p =>
      if ws.length < readerLength p then .error .payloadShort
      else
        (cutPackets c fuel (some { p with payload := ws.take (readerLength p) })
          (ws.drop (readerLength p))).map fun ps => { p with payload := ws.take (readerLength p) } :: ps

/-- The packets of a word stream (every packet takes at least one word). -/
def readWordStream (c : Constants) (ws : List Word) : Except ReaderStop (List Packet) :=
  cutPackets c ws.length none ws

end Sys2Proof.Machine
end

