-- ==== Sys2Proof/Safety.lean ====
section
/-! DEFINITION. What a safe run is: the invariant of spec/10_state.md R33 with what R24, R26, R28, R30 and R32
say of the other elements, and the orders the rules of spec/43_config_spec.md are stated against. -/

namespace Sys2Proof.Safety

open Sys2Proof.Machine

/-- (I-a) of R33: a Type-2 packet directly follows a zero-word Type-1 header naming the same register. -/
def Paired (seq : List Packet) : Prop :=
  ∀ i p, seq[i]? = some p → p.htype = .t2 →
    1 ≤ i ∧ ∃ q, seq[i - 1]? = some q ∧ q.htype = .t1 ∧ q.count = 0 ∧ q.reg = p.reg

/-- The cursor has one count per block type, and while frames remain it stands on one of them (R25, R158). -/
def CursorInTable (S : ConfigurationSpecification) (fa : Cursor) : Prop :=
  fa.ncols.length = S.blockTypes.length ∧
  (fa.done = false → ∃ B x n, S.blockTypes[fa.bt]? = some B ∧ B.subtypes[fa.sub]? = some x ∧
    fa.ncols[fa.bt]? = some n ∧ fa.frm < x.fpcb ∧ fa.col < n)

/-- The invariant of a run. The cursor clause speaks of instances with well-formed constants only (R151, R225). -/
structure Inv (s : State) : Prop where
  /-- (I-a) of R33. -/
  paired : Paired s.seq
  /-- (I-b) of R33: the accumulator is the checksum of the whole sequence. -/
  checksum : s.acc = foldSeq s.consts s.consts.crcInit s.seq
  /-- "Every packet in `SEQ` is well formed" (R23, R32). -/
  seqWf : ∀ p ∈ s.seq, p.WellFormed s.consts
  /-- A staged packet is well formed (R32), and never a Type-2 NOP (R114). -/
  pktWf : ∀ p, s.pkt = some p → p.WellFormed s.consts ∧ ¬ (p.htype = .t2 ∧ p.opcode = .nop)
  /-- `FAM` holds only identifiers that have an entry (R26). -/
  famBound : ∀ f, s.fam = some f → (s.consts.family? f).isSome = true
  /-- An active cursor belongs to the selected family and lies in its table (R25, R154, R158, R159). -/
  cursor : s.consts.WellFormed → s.fa.active = true →
    ∃ f S, s.fam = some f ∧ s.consts.family? f = some S ∧ CursorInTable S s.fa

/-! ## The enumeration order of R158 -/

/-- The frames of one column in order: subtypes in declaration order, frames ascending (R152, R158). -/
def columnAddrs (bt col s base : Nat) : List BlockSubType → List FrameAddr
  | [] => []
  | x :: xs =>
    (List.range x.fpcb).map (fun k => ⟨bt, col, s, base, k⟩) ++ columnAddrs bt col (s + 1) (base + x.fpcb) xs

/-- The frames of a device from block type `bt` on: block types in declaration order, columns ascending (R158). -/
def deviceAddrs (bt : Nat) : List Nat → List BlockType → List FrameAddr
  | n :: ns, B :: Bs =>
    (List.range n).flatMap (fun col => columnAddrs bt col 0 0 B.subtypes) ++ deviceAddrs (bt + 1) ns Bs
  | _, _ => []

/-- What at most `k` issues of `FA.NEXT` in a row return, up to the first that gives no address. -/
def nextResults : Nat → State → List (FrameAddr × Bool)
  | 0, _ => []
  | k + 1, s =>
    match exec .faNext s with
    | .next t =>
      match t.result with
      | .ok (.frameAddrLast a last) => (a, last) :: nextResults k t
      | _ => []
    | _ => []

end Sys2Proof.Safety
end

