-- ==== Sys2Proof/Certificates/Slice0/Obligations.lean ====
section
/-! DEFINITION. The statements about the model, from the numbered rules of spec/. Each docstring names the
rule it formalises. A next state is written as an update of the state before, so each equation is at once the
result, the completion and the frame of its instruction: whatever the update does not name is unchanged. The
statement of an operation begins with its operation code (R80; the operands beside it are the record of log entry 4). -/

open Sys2Proof Sys2Proof.Machine Sys2Proof.Safety

/-! ## Encoding -/

/-- Words of spec/95_test_vectors.md V-ENC-1 and V-ENC-2 and codes of R80 decode to the instructions they stand
for (R71, R72, R73, R80). -/
def Obligations.SpecWordsDecode : Prop :=
  decode (.headerWord 0x20000000#32) = .ok (.t1Nop 0#14 0#2 0#11) ∧
  decode (.headerWord 0x28006005#32) = .ok (.t1Read 3#14 0#2 5#11) ∧
  decode (.headerWord 0x30009801#32) = .ok (.t1Write 4#14 3#2 1#11) ∧
  decode (.headerWord 0x3FFFE7FF#32) = .ok (.t1Reserved 16383#14 0#2 2047#11) ∧
  decode (.headerWord 0x48000005#32) = .ok (.t2Read 5#27) ∧
  decode (.headerWord 0x57FFFFFF#32) = .ok (.t2Write 134217727#27) ∧
  decode (.headerWord 0xAA995566#32) = .error (.otherHeader 5#3) ∧
  decode (.operation 0x23#8 {}) = .ok .sqCrcw ∧
  decode (.operation 0x11#8 { symbol := "WRITE", reg := .named "CMD", word := 7#32 }) =
    .ok (.pkW1 "WRITE" (.named "CMD") 7#32)

/-- Decoding the encoding of any instruction gives it back, whatever its operands (R71, R72, R80). -/
def Obligations.DecodeOfEncodeIsTheInstruction : Prop := ∀ i : Instr, decode (encode i) = .ok i

/-- A header word decodes exactly when its type field is 1 or 2, and encoding what it decodes to gives the word
back, so no bit of a header is dropped (R71, R72, R75, R77 (a)). -/
def Obligations.HeaderWordsDecodeExactly : Prop :=
  ∀ w : Word,
    ((∃ i, decode (.headerWord w) = .ok i) ↔ (w.toNat / 2 ^ 29 = 1 ∨ w.toNat / 2 ^ 29 = 2)) ∧
    ∀ i, decode (.headerWord w) = .ok i → encode i = .headerWord w

/-- The two headers as numbers (R74). -/
def Obligations.HeaderAsNumber : Prop :=
  ∀ (c : Constants) (p : Packet), p.WellFormed c →
    (p.htype = .t1 → (header c p).toNat =
      0x20000000 + (c.codeOf p.opcode).toNat * 0x08000000 + ((c.addrOf? p.reg).getD 0#14).toNat * 0x2000 +
        p.count) ∧
    (p.htype = .t2 → (header c p).toNat = 0x40000000 + (c.codeOf p.opcode).toNat * 0x08000000 + p.count)

/-- `dec_hdr(header(p))` returns the packet's type, opcode and count, reserved bits 0 and, for Type 1, its
address (the law of R75). -/
def Obligations.DecHdrInvertsHeader : Prop :=
  ∀ (c : Constants) (p : Packet), c.WellFormed → p.WellFormed c →
    (p.htype = .t1 → ∃ wc : BitVec 11, wc.toNat = p.count ∧
      decHdr c (header c p) = .t1 p.opcode ((c.addrOf? p.reg).getD 0#14) 0#2 wc) ∧
    (p.htype = .t2 → ∃ wc : BitVec 27, wc.toNat = p.count ∧ decHdr c (header c p) = .t2 p.opcode wc)

/-- `BYTES` is big-endian: four bytes a word, the most significant first (R54). -/
def Obligations.ByteStreamIsBigEndian : Prop :=
  ∀ ws : List Word, (byteStream ws).length = 4 * ws.length ∧
    ∀ (i : Nat) (w : Word), ws[i]? = some w →
      (byteStream ws)[4 * i]? = some (BitVec.ofNat 8 (w.toNat / 2 ^ 24)) ∧
      (byteStream ws)[4 * i + 1]? = some (BitVec.ofNat 8 (w.toNat / 2 ^ 16)) ∧
      (byteStream ws)[4 * i + 2]? = some (BitVec.ofNat 8 (w.toNat / 2 ^ 8)) ∧
      (byteStream ws)[4 * i + 3]? = some (BitVec.ofNat 8 w.toNat)

/-- A reader of the word stream gets the packets back: from `WORDS(SEQ)` of a paired sequence of well-formed
packets, in which no packet is a Type-2 NOP and non-WRITE packets carry no payload (the condition R76 and R233
put on a host), the reader of Machine/WireReader.lean (the model's, log entry 8) cuts exactly `SEQ`. -/
def Obligations.WordStreamCutsBackIntoItsPackets : Prop :=
  ∀ (c : Constants) (seq : List Packet), c.WellFormed → Paired seq →
    (∀ p ∈ seq, p.WellFormed c ∧ ¬ (p.htype = .t2 ∧ p.opcode = .nop) ∧
      (p.opcode ≠ .write → p.payload = [])) →
    readWordStream c (wordStream c seq) = .ok seq

/-! ## Steps, reset, faults -/

/-- A step runs the decoded instruction: when the transaction presented next decodes to `i`, the step is `exec i`
with that transaction taken (R80, R200). With nothing presented the block is idle (R222; log entry 1). -/
def Obligations.StepRunsTheDecodedInstruction : Prop :=
  (∀ (s : State) (t : Transaction) (i : Instr) (rest : List HostEvent),
    s.host = .transaction t :: rest → decode t = .ok i → step s = exec i { s with host := rest }) ∧
  (∀ s : State, s.host = [] → step s = .next s)

/-- An operation code that R80 does not list raises IllegalOperation(UNKNOWN_OP), the code in bits [15:8] of the
information word, and changes no other state (R82, R191). -/
def Obligations.UnknownOperationCodeFaults : Prop :=
  ∀ (s : State) (code : BitVec 8) (o : Operands) (rest : List HostEvent),
    s.host = .transaction (.operation code o) :: rest →
    code ∉ [0x01#8, 0x02#8, 0x10#8, 0x11#8, 0x12#8, 0x13#8, 0x14#8, 0x20#8, 0x21#8, 0x22#8, 0x23#8, 0x30#8,
      0x31#8, 0x32#8, 0x33#8, 0x34#8, 0x40#8, 0x41#8, 0x42#8, 0x43#8, 0x44#8] →
    step s = .next { s with
      host := rest, lasterr := 8#8, lastinfo := BitVec.ofNat 32 (code.toNat * 256 + 6),
      result := .fault 8#8 (BitVec.ofNat 32 (code.toNat * 256 + 6)) }

/-- A header word of another type is reported by the decoder as `OTHER` with its type, and nothing else changes
(R75, R77 (a); that a word may be presented on its own is the model's, log entry 5). -/
def Obligations.OtherHeaderWordIsReported : Prop :=
  ∀ (s : State) (w : Word) (rest : List HostEvent),
    s.host = .transaction (.headerWord w) :: rest → w.toNat / 2 ^ 29 ≠ 1 → w.toNat / 2 ^ 29 ≠ 2 →
    step s = .next { s with
      host := rest, lasterr := 0#8, lastinfo := 0#32,
      result := .ok (.header (.other (BitVec.ofNat 3 (w.toNat / 2 ^ 29))) none) }

/-- The values of R30 right after reset, which are the spec's own decision D22 (log entry 10). -/
def Obligations.ResetStateIsAsListed : Prop :=
  State.reset.acc = 0x00000000#32 ∧ State.reset.seq = [] ∧ State.reset.pktValid = false ∧
  State.reset.fam = none ∧ State.reset.fa = ⟨false, false, [], 0, 0, 0, 0⟩ ∧
  State.reset.lasterr = 0#8 ∧ State.reset.lastinfo = 0#32

/-- The reset event gives every state element its reset value and leaves the constants (R220, R221). The
reset values are the spec's own decision D22 (log entry 10). -/
def Obligations.ResetEventRestoresTheResetState : Prop :=
  ∀ (s : State) (rest : List HostEvent), s.host = .reset :: rest →
    ∃ t, step s = .next t ∧ t.acc = s.consts.crcInit ∧ t.seq = [] ∧ t.pktValid = false ∧ t.fam = none ∧
      t.fa = ⟨false, false, [], 0, 0, 0, 0⟩ ∧ t.lasterr = 0#8 ∧ t.lastinfo = 0#32 ∧ t.consts = s.consts ∧
      t.host = rest

/-- The codes and information words of R190 and R191. -/
def Obligations.FaultCodesAndInformationWords : Prop :=
  (∀ f : BlockFault, 1 ≤ f.code.toNat ∧ f.code.toNat ≤ 8) ∧
  (BlockFault.invalidRegister.code = 1#8 ∧ BlockFault.invalidRegister.info = 0#32) ∧
  (BlockFault.invalidOpcode.code = 2#8 ∧ BlockFault.invalidOpcode.info = 0#32) ∧
  (∀ n, (BlockFault.packetOverflow n).code = 3#8 ∧ (BlockFault.packetOverflow n).info = BitVec.ofNat 32 n) ∧
  ((BlockFault.malformedPacket .countMismatch).info = 1#32 ∧
    (BlockFault.malformedPacket .nopWithRegister).info = 2#32 ∧
    (BlockFault.malformedPacket .t2Orphan).info = 3#32 ∧ ∀ m, (BlockFault.malformedPacket m).code = 4#8) ∧
  (BlockFault.unsupportedFamily.code = 5#8 ∧ BlockFault.unsupportedFamily.info = 0#32) ∧
  (∀ op : BitVec 8, (BlockFault.unimplementedOperation op).code = 6#8 ∧
    (BlockFault.unimplementedOperation op).info.toNat = op.toNat) ∧
  (∀ t, (BlockFault.frameIndexOutOfRange t).code = 7#8 ∧
    (BlockFault.frameIndexOutOfRange t).info = BitVec.ofNat 32 t) ∧
  ((BlockFault.illegalOperation .noPacket).info = 1#32 ∧ (BlockFault.illegalOperation .noFamily).info = 2#32 ∧
    (BlockFault.illegalOperation .badOperand).info = 3#32 ∧
    (BlockFault.illegalOperation .faInactive).info = 4#32 ∧ (BlockFault.illegalOperation .faDone).info = 5#32 ∧
    (∀ op : BitVec 8, (BlockFault.illegalOperation (.unknownOp op)).info.toNat = op.toNat * 256 + 6) ∧
    ∀ m, (BlockFault.illegalOperation m).code = 8#8)

/-- How every operation ends: in success, with the latch cleared and `ok` on the result port, or in one fault,
with the latch written and everything else as before the operation (R193). -/
def Obligations.EveryOperationEndsInSuccessOrOneFault : Prop :=
  ∀ (i : Instr) (s t : State), exec i s = .next t →
    (t.lasterr = 0#8 ∧ t.lastinfo = 0#32 ∧ ∃ v, t.result = .ok v) ∨
    ∃ f : BlockFault,
      t = { s with lasterr := f.code, lastinfo := f.info, result := .fault f.code f.info }

/-- No operation reads the fault latch or what the result port last carried (R27, R29, R194). -/
def Obligations.LatchAndResultPortAreNeverRead : Prop :=
  ∀ (i : Instr) (s : State) (e : BitVec 8) (n : Word) (r : ResultPort),
    exec i { s with lasterr := e, lastinfo := n, result := r } = exec i s

/-- No step, not even a reset, changes the constants of the instance (R28, R221). -/
def Obligations.ConstantsNeverChange : Prop :=
  ∀ s t : State, step s = .next t → t.consts = s.consts

/-! ## Whole-machine rules -/

/-- The invariants of R33, R24, R26 and R32 hold after reset, for any constants, and the constants of the reset
state are well formed (R151, R225), whatever the OPEN values of the V6 family are. The reset values are decision D22
(log entry 10), the constants of `State.reset` those of log entry 3. -/
def Obligations.InvariantHoldsAtReset : Prop :=
  (∀ c : Constants, Inv (State.resetOf c)) ∧ State.reset.consts.WellFormed ∧ Inv State.reset

/-- Every step keeps the invariant: the pairing (I-a) and the checksum (I-b) of R33, well-formed packets in `SEQ`
and `PKT` (R32), a bound `FAM` (R26) and, with well-formed constants, a cursor within the table (R25). -/
def Obligations.StepKeepsTheInvariant : Prop :=
  ∀ s t : State, Inv s → step s = .next t → Inv t

/-- From every state that meets the invariant, with well-formed constants, the step has a next state: the block
has no stuck state and no hang (R247). -/
def Obligations.StepAlwaysHasANextState : Prop :=
  ∀ s : State, s.consts.WellFormed → Inv s → ∃ t, step s = .next t

/-- The model refuses no instruction, and stops in a fault only where the family's table has no entry at `FAM` or at an
active, unfinished cursor, which R26 and R158 say does not occur (R247). -/
def Obligations.StopsOnlyOutsideTheTable : Prop :=
  ∀ (i : Instr) (s : State),
    (∀ r, exec i s ≠ .refused r) ∧
    ∀ r, exec i s = .fault r →
      (r = .familyUnbound ∧ s.fam.bind s.consts.family? = none ∧
        ((∃ f, s.fam = some f) ∨ i = .faNext ∧ s.fa.active = true ∧ s.fa.done = false)) ∨
      (r = .cursorOutsideTable ∧ i = .faNext ∧ s.fa.active = true ∧ s.fa.done = false ∧
        ∃ f S, s.fam = some f ∧ s.consts.family? f = some S ∧
          ¬ ∃ B x n, S.blockTypes[s.fa.bt]? = some B ∧ B.subtypes[s.fa.sub]? = some x ∧
            s.fa.ncols[s.fa.bt]? = some n)

/-- Who writes what (R22 to R27): `FAM` only `CS.RESOLVE`, `PKT` only the build operations, which leave it valid,
`FA` only `FA.START`, `FA.NEXT` and `CS.RESOLVE`, `SEQ` and `ACC` only the operations R22 lists, and no
operation what the host does next. -/
def Obligations.OnlyTheListedOperationsWrite : Prop :=
  ∀ (i : Instr) (s t : State), exec i s = .next t →
    (t.fam ≠ s.fam → ∃ f, i = .csResolve f ∧ t.fam = some f) ∧
    (t.pkt ≠ s.pkt → t.pktValid = true ∧ (i = .pkNop ∨ (∃ o r v, i = .pkW1 o r v) ∨
      (∃ o r n l, i = .pkT1 o r n l) ∨ ∃ o r n l, i = .pkT2 o r n l)) ∧
    (t.fa ≠ s.fa → i = .faNext ∨ (∃ l, i = .faStart l) ∨ ∃ f, i = .csResolve f) ∧
    (t.seq ≠ s.seq ∨ t.acc ≠ s.acc → i = .sqNew ∨ i = .sqAdd ∨ (∃ l, i = .sqAddAll l) ∨ i = .sqCrcw ∨
      (∃ w, i = .gnInit w) ∨ (∃ l, i = .gnFdri l) ∨ i = .gnEnd) ∧
    t.host = s.host

/-- Append is the only mutator of `SEQ`: an operation other than `SQ.NEW` and `GN.INIT` leaves every packet where it
is and adds at the end (R23, R52). -/
def Obligations.AppendIsTheOnlyMutator : Prop :=
  ∀ (i : Instr) (s t : State), exec i s = .next t →
    i = .sqNew ∨ (∃ w, i = .gnInit w) ∨ ∃ ps, t.seq = s.seq ++ ps ∧ t.acc = foldSeq s.consts s.acc ps

/-- The frame-address unit neither reads nor writes `SEQ`, `ACC` or `PKT` (R160 law (L5)): with other contents in
them it does the same, and leaves them. -/
def Obligations.FrameAddressUnitIsIsolated : Prop :=
  ∀ (i : Instr), ((∃ f, i = .csResolve f) ∨ (∃ b, i = .csTotal b) ∨ (∃ b c t, i = .csLocate b c t) ∨
      (∃ l, i = .faStart l) ∨ i = .faNext) →
    ∀ (s : State) (q : List Packet) (a : Word) (p : Option Packet),
      (∀ t, exec i s = .next t →
        t.seq = s.seq ∧ t.acc = s.acc ∧ t.pkt = s.pkt ∧
        exec i { s with seq := q, acc := a, pkt := p } = .next { t with seq := q, acc := a, pkt := p })

/-! ## LKUP -/

/-- `LK.REG` (R101): a name of the table gives its address, any other name and `NONE` raise InvalidRegister. -/
def Obligations.LookupRegister : Prop :=
  (∀ o : Operands, decode (.operation 0x01#8 o) = .ok (.lkReg o.reg)) ∧
  ∀ s : State,
    (s.consts.WellFormed → ∀ n a, (n, a) ∈ s.consts.regAddr →
      exec (.lkReg (.named n)) s =
        .next { s with lasterr := 0#8, lastinfo := 0#32, result := .ok (.addr a) }) ∧
    (∀ n, (∀ a, (n, a) ∉ s.consts.regAddr) →
      exec (.lkReg (.named n)) s =
        .next { s with lasterr := 1#8, lastinfo := 0#32, result := .fault 1#8 0#32 }) ∧
    exec (.lkReg .none) s = .next { s with lasterr := 1#8, lastinfo := 0#32, result := .fault 1#8 0#32 }

/-- `LK.OP` (R102): the four names give their codes, any other raises InvalidOpcode. -/
def Obligations.LookupOpcode : Prop :=
  (∀ o : Operands, decode (.operation 0x02#8 o) = .ok (.lkOp o.symbol)) ∧
  ∀ s : State,
    (∀ n o, (n, o) ∈ [("NOP", Opcode.nop), ("READ", .read), ("WRITE", .write), ("RESERVED", .reserved)] →
      exec (.lkOp n) s =
        .next { s with lasterr := 0#8, lastinfo := 0#32, result := .ok (.opc (s.consts.codeOf o)) }) ∧
    (∀ n, n ∉ ["NOP", "READ", "WRITE", "RESERVED"] →
      exec (.lkOp n) s = .next { s with lasterr := 2#8, lastinfo := 0#32, result := .fault 2#8 0#32 })

/-- `lookup_reg` is injective and `lookup_op` a bijection with inverse `name_of_opc`, for well-formed constants
(R103). -/
def Obligations.LookupsAreInjective : Prop :=
  ∀ c : Constants, c.WellFormed →
    (∀ r r' a, c.addrOf? r = some a → c.addrOf? r' = some a → r = r') ∧
    (∀ n a, c.addrOf? (.named n) = some a → c.regOfAddr a = .named n) ∧
    (∀ o, c.nameOfOpc (c.codeOf o) = o) ∧ ∀ v, c.codeOf (c.nameOfOpc v) = v

/-! ## PKTE -/

/-- `PK.NOP` (R111); with NOP coded 0 its one word is 0x20000000. -/
def Obligations.BuildNop : Prop :=
  (∀ o : Operands, decode (.operation 0x10#8 o) = .ok .pkNop) ∧
  ∀ s : State,
    exec .pkNop s = .next { s with
      pkt := some ⟨.t1, .nop, .none, 0, []⟩, lasterr := 0#8, lastinfo := 0#32, result := .ok .unit } ∧
    (s.consts.opcodeCode.nop = 0#2 → words s.consts ⟨.t1, .nop, .none, 0, []⟩ = [0x20000000#32])

/-- `PK.W1` (R112), with its faults in their order. -/
def Obligations.BuildOneWordPacket : Prop :=
  (∀ o : Operands, decode (.operation 0x11#8 o) = .ok (.pkW1 o.symbol o.reg o.word)) ∧
  ∀ (s : State) (n : String) (r : RegName) (v : Word),
    (n ∉ ["NOP", "READ", "WRITE", "RESERVED"] →
      exec (.pkW1 n r v) s = .next { s with lasterr := 2#8, lastinfo := 0#32, result := .fault 2#8 0#32 }) ∧
    (n ∈ ["NOP", "READ", "WRITE", "RESERVED"] → ¬ s.consts.IsRegister r →
      exec (.pkW1 n r v) s = .next { s with lasterr := 1#8, lastinfo := 0#32, result := .fault 1#8 0#32 }) ∧
    (n = "NOP" → s.consts.IsRegister r →
      exec (.pkW1 n r v) s = .next { s with lasterr := 4#8, lastinfo := 2#32, result := .fault 4#8 2#32 }) ∧
    (∀ o, (n, o) ∈ [("READ", Opcode.read), ("WRITE", .write), ("RESERVED", .reserved)] →
      s.consts.IsRegister r →
      exec (.pkW1 n r v) s = .next { s with
        pkt := some ⟨.t1, o, r, 1, [v]⟩, lasterr := 0#8, lastinfo := 0#32, result := .ok .unit })

/-- `PK.T1` (R113): the packet is staged when every check passes; the faults come in the order of R115, opcode
name, register, overflow with the larger length, count mismatch. -/
def Obligations.BuildType1Packet : Prop :=
  (∀ o : Operands, decode (.operation 0x12#8 o) = .ok (.pkT1 o.symbol o.reg o.nat0 o.words)) ∧
  ∀ (s : State) (n : String) (r : RegName) (count : Nat) (l : List Word),
    (n ∉ ["NOP", "READ", "WRITE", "RESERVED"] →
      exec (.pkT1 n r count l) s =
        .next { s with lasterr := 2#8, lastinfo := 0#32, result := .fault 2#8 0#32 }) ∧
    ∀ o, (n, o) ∈ [("NOP", Opcode.nop), ("READ", .read), ("WRITE", .write), ("RESERVED", .reserved)] →
      (o = .nop → r ≠ .none →
        exec (.pkT1 n r count l) s =
          .next { s with lasterr := 4#8, lastinfo := 2#32, result := .fault 4#8 2#32 }) ∧
      (o ≠ .nop → ¬ s.consts.IsRegister r →
        exec (.pkT1 n r count l) s =
          .next { s with lasterr := 1#8, lastinfo := 0#32, result := .fault 1#8 0#32 }) ∧
      ((o = .nop → r = .none) → (o ≠ .nop → s.consts.IsRegister r) →
        (2047 < max count l.length →
          exec (.pkT1 n r count l) s = .next { s with
            lasterr := 3#8, lastinfo := BitVec.ofNat 32 (max count l.length),
            result := .fault 3#8 (BitVec.ofNat 32 (max count l.length)) }) ∧
        (max count l.length ≤ 2047 → l.length ≠ count → (o ≠ .write → l ≠ []) →
          exec (.pkT1 n r count l) s =
            .next { s with lasterr := 4#8, lastinfo := 1#32, result := .fault 4#8 1#32 }) ∧
        (max count l.length ≤ 2047 → (l.length = count ∨ o ≠ .write ∧ l = []) →
          exec (.pkT1 n r count l) s = .next { s with
            pkt := some ⟨.t1, o, r, count, l⟩, lasterr := 0#8, lastinfo := 0#32, result := .ok .unit }))

/-- `PK.T2` (R114): the packet is staged when every check passes, whatever `SEQ` holds; the faults come in the order
opcode name, Type-2 NOP whatever the register, register, overflow, count mismatch. -/
def Obligations.BuildType2Packet : Prop :=
  (∀ o : Operands, decode (.operation 0x13#8 o) = .ok (.pkT2 o.symbol o.reg o.nat0 o.words)) ∧
  ∀ (s : State) (n : String) (r : RegName) (count : Nat) (l : List Word),
    (n ∉ ["NOP", "READ", "WRITE", "RESERVED"] →
      exec (.pkT2 n r count l) s =
        .next { s with lasterr := 2#8, lastinfo := 0#32, result := .fault 2#8 0#32 }) ∧
    (n = "NOP" →
      exec (.pkT2 n r count l) s =
        .next { s with lasterr := 4#8, lastinfo := 2#32, result := .fault 4#8 2#32 }) ∧
    ∀ o, (n, o) ∈ [("READ", Opcode.read), ("WRITE", .write), ("RESERVED", .reserved)] →
      (¬ s.consts.IsRegister r →
        exec (.pkT2 n r count l) s =
          .next { s with lasterr := 1#8, lastinfo := 0#32, result := .fault 1#8 0#32 }) ∧
      (s.consts.IsRegister r → 134217727 < max count l.length →
        exec (.pkT2 n r count l) s = .next { s with
          lasterr := 3#8, lastinfo := BitVec.ofNat 32 (max count l.length),
          result := .fault 3#8 (BitVec.ofNat 32 (max count l.length)) }) ∧
      (s.consts.IsRegister r → max count l.length ≤ 134217727 → l.length ≠ count → (o ≠ .write → l ≠ []) →
        exec (.pkT2 n r count l) s =
          .next { s with lasterr := 4#8, lastinfo := 1#32, result := .fault 4#8 1#32 }) ∧
      (s.consts.IsRegister r → max count l.length ≤ 134217727 → (l.length = count ∨ o ≠ .write ∧ l = []) →
        exec (.pkT2 n r count l) s = .next { s with
          pkt := some ⟨.t2, o, r, count, l⟩, lasterr := 0#8, lastinfo := 0#32, result := .ok .unit })

/-- Every packet a build operation stages is well formed (R118 law (L1), R32). -/
def Obligations.StagedPacketsAreWellFormed : Prop :=
  ∀ (i : Instr) (s t : State) (p : Packet), exec i s = .next t → t.pkt = some p → s.pkt ≠ some p →
    p.WellFormed s.consts ∧ ¬ (p.htype = .t2 ∧ p.opcode = .nop)

/-- `DEC.HDR` (R117, R75): the fields by their bit positions, the register name beside a Type-1 address, and
nothing else changed; and a one-word write round-trips: its header decodes to WRITE, the register's address and name,
reserved bits 0 and count 1, its payload is the value. -/
def Obligations.DecodeHeaderOperation : Prop :=
  (∀ o : Operands, decode (.operation 0x14#8 o) = .ok (.decHdr o.word)) ∧
  (∀ (s : State) (w : Word),
    (w.toNat / 2 ^ 29 = 1 →
      exec (.decHdr w) s = .next { s with
        lasterr := 0#8, lastinfo := 0#32,
        result := .ok (.header
          (.t1 (s.consts.nameOfOpc (BitVec.ofNat 2 (w.toNat / 2 ^ 27))) (BitVec.ofNat 14 (w.toNat / 2 ^ 13))
            (BitVec.ofNat 2 (w.toNat / 2 ^ 11)) (BitVec.ofNat 11 w.toNat))
          (some (s.consts.regOfAddr (BitVec.ofNat 14 (w.toNat / 2 ^ 13))))) }) ∧
    (w.toNat / 2 ^ 29 = 2 →
      exec (.decHdr w) s = .next { s with
        lasterr := 0#8, lastinfo := 0#32,
        result := .ok (.header
          (.t2 (s.consts.nameOfOpc (BitVec.ofNat 2 (w.toNat / 2 ^ 27))) (BitVec.ofNat 27 w.toNat)) none) }) ∧
    (w.toNat / 2 ^ 29 ≠ 1 → w.toNat / 2 ^ 29 ≠ 2 →
      exec (.decHdr w) s = .next { s with
        lasterr := 0#8, lastinfo := 0#32,
        result := .ok (.header (.other (BitVec.ofNat 3 (w.toNat / 2 ^ 29))) none) }) ∧
    ∀ a, (∀ n, s.consts.regOfAddr a = .named n → (n, a) ∈ s.consts.regAddr) ∧
      (s.consts.regOfAddr a = .none → ∀ n, (n, a) ∉ s.consts.regAddr)) ∧
  ∀ (s : State) (n : String) (a : BitVec 14) (v : Word), s.consts.WellFormed → (n, a) ∈ s.consts.regAddr →
    ∃ t p, exec (.pkW1 "WRITE" (.named n) v) s = .next t ∧ t.pkt = some p ∧ p.payload = [v] ∧
      exec (.decHdr (header s.consts p)) s = .next { s with
        lasterr := 0#8, lastinfo := 0#32,
        result := .ok (.header (.t1 .write a 0#2 1#11) (some (.named n))) }

/-- A wire-level row shows its own fields on the result port and changes nothing else (R71 to R73, R75; that a
header word presented to the block is decoded and no more is the model's choice, log entry 5). -/
def Obligations.HeaderWordRowsShowTheirFields : Prop :=
  ∀ (s : State) (reg : BitVec 14) (rsvd : BitVec 2) (wc : BitVec 11) (wc2 : BitVec 27) (t1 t2 : Opcode → State),
    (∀ o, t1 o = { s with
      lasterr := 0#8, lastinfo := 0#32,
      result := .ok (.header (.t1 o reg rsvd wc) (some (s.consts.regOfAddr reg))) }) →
    (∀ o, t2 o = { s with
      lasterr := 0#8, lastinfo := 0#32, result := .ok (.header (.t2 o wc2) none) }) →
    exec (.t1Nop reg rsvd wc) s = .next (t1 (s.consts.nameOfOpc 0#2)) ∧
    exec (.t1Read reg rsvd wc) s = .next (t1 (s.consts.nameOfOpc 1#2)) ∧
    exec (.t1Write reg rsvd wc) s = .next (t1 (s.consts.nameOfOpc 2#2)) ∧
    exec (.t1Reserved reg rsvd wc) s = .next (t1 (s.consts.nameOfOpc 3#2)) ∧
    exec (.t2Nop wc2) s = .next (t2 (s.consts.nameOfOpc 0#2)) ∧
    exec (.t2Read wc2) s = .next (t2 (s.consts.nameOfOpc 1#2)) ∧
    exec (.t2Write wc2) s = .next (t2 (s.consts.nameOfOpc 2#2)) ∧
    exec (.t2Reserved wc2) s = .next (t2 (s.consts.nameOfOpc 3#2)) ∧
    (s.consts.opcodeCode = ⟨0#2, 1#2, 2#2, 3#2⟩ →
      s.consts.nameOfOpc 0#2 = .nop ∧ s.consts.nameOfOpc 1#2 = .read ∧ s.consts.nameOfOpc 2#2 = .write ∧
      s.consts.nameOfOpc 3#2 = .reserved)

/-! ## The checksum -/

/-- `fold` is append-associative for every `CRC_STEP` (R132). -/
def Obligations.FoldIsAppendAssociative : Prop :=
  ∀ (f : CrcFunction) (acc : Word) (a b : List Word), fold f acc (a ++ b) = fold f (fold f acc a) b

/-- The default `CRC_STEP` is the division by the generator polynomial of R131: one function of `acc xor w`, linear,
whose value at bit 0 is the polynomial and at each next bit one shift-and-reduce further (R131, R132). The default function is the spec's own choice from general
knowledge (log entry 10). -/
def Obligations.DefaultCrcIsPolynomialDivision : Prop :=
  (∀ acc w : Word, crcStep .bitSerial acc w = crcStep .bitSerial 0#32 (acc ^^^ w)) ∧
  (∀ a b : Word, crcStep .bitSerial 0#32 (a ^^^ b) = crcStep .bitSerial 0#32 a ^^^ crcStep .bitSerial 0#32 b) ∧
  crcStep .bitSerial 0#32 0#32 = 0#32 ∧ crcStep .bitSerial 0#32 1#32 = 0x1EDC6F41#32 ∧
  ∀ k, k < 31 → crcStep .bitSerial 0#32 (1#32 <<< (k + 1)) =
    let v := crcStep .bitSerial 0#32 (1#32 <<< k)
    if v.getLsbD 31 then (v <<< 1) ^^^ 0x1EDC6F41#32 else v <<< 1

/-- `absorb` (R133): header, then payload in order; a payload word equal to `CRC_RESET_CMD` of a WRITE to `CMD`
restarts the fold from `CRC_INIT` after it, and no other word does; `fold_seq` absorbs each packet in order, however the
appends are split. -/
def Obligations.AbsorbFoldsHeaderThenPayload : Prop :=
  (∀ (c : Constants) (acc : Word) (p : Packet),
    ((∀ w ∈ p.payload, ¬ (c.crcResetCmd = some w ∧ p.opcode = .write ∧ p.reg = .named "CMD")) →
      absorb c acc p = fold c.crcFunction acc (header c p :: p.payload)) ∧
    (∀ (pre : List Word) (w : Word) (post : List Word), p.payload = pre ++ w :: post →
      p.opcode = .write → p.reg = .named "CMD" → c.crcResetCmd = some w → w ∉ post →
      absorb c acc p = fold c.crcFunction c.crcInit post)) ∧
  (∀ (c : Constants) (acc : Word), foldSeq c acc [] = acc) ∧
  (∀ (c : Constants) (acc : Word) (p : Packet) (ps : List Packet),
    foldSeq c acc (p :: ps) = foldSeq c (absorb c acc p) ps) ∧
  ∀ (c : Constants) (acc : Word) (ps qs : List Packet),
    foldSeq c acc (ps ++ qs) = foldSeq c (foldSeq c acc ps) qs

/-- Where nothing resets the checksum, because `CRC_RESET_CMD` is `none` or because no packet of the sequence is a
WRITE to `CMD` with that word in its payload, the checksum of the sequence is the plain fold over its word stream
(R33 (I-b), R139 law (L5)). -/
def Obligations.ChecksumIsPlainFoldWithoutReset : Prop :=
  ∀ (c : Constants) (acc : Word) (seq : List Packet),
    (c.crcResetCmd = none ∨
      ∀ p ∈ seq, p.opcode = .write → p.reg = .named "CMD" → ∀ w ∈ p.payload, c.crcResetCmd ≠ some w) →
    foldSeq c acc seq = fold c.crcFunction acc (wordStream c seq)

/-- `NWORDS` counts one header and the payload words of every packet (R31, R53). -/
def Obligations.WordCountIsHeadersPlusPayloads : Prop :=
  ∀ s : State, s.nwords = (s.seq.map fun p => 1 + p.payload.length).sum

/-! ## SEQ -/

/-- `SQ.NEW` (R134). -/
def Obligations.NewSequenceIsFresh : Prop :=
  (∀ o : Operands, decode (.operation 0x20#8 o) = .ok .sqNew) ∧
  ∀ s : State, exec .sqNew s = .next { s with
    seq := [], acc := s.consts.crcInit, lasterr := 0#8, lastinfo := 0#32, result := .ok .unit }

/-- `SQ.ADD` (R136): the staged packet is appended and absorbed and stays staged; with nothing staged, or for a
Type-2 packet whose header is not the last packet, the fault its rule names. -/
def Obligations.AddAppendsTheStagedPacket : Prop :=
  (∀ o : Operands, decode (.operation 0x21#8 o) = .ok .sqAdd) ∧
  ∀ s : State,
    (s.pkt = none →
      exec .sqAdd s = .next { s with lasterr := 8#8, lastinfo := 1#32, result := .fault 8#8 1#32 }) ∧
    ∀ p, s.pkt = some p → p.WellFormed s.consts → ¬ (p.htype = .t2 ∧ p.opcode = .nop) →
      ((p.htype = .t2 → ∃ q, s.seq.getLast? = some q ∧ q.htype = .t1 ∧ q.count = 0 ∧ q.reg = p.reg) →
        exec .sqAdd s = .next { s with
          seq := s.seq ++ [p], acc := absorb s.consts s.acc p, lasterr := 0#8, lastinfo := 0#32,
          result := .ok (.acc (absorb s.consts s.acc p)) }) ∧
      (p.htype = .t2 → (∀ q, s.seq.getLast? = some q → ¬ (q.htype = .t1 ∧ q.count = 0 ∧ q.reg = p.reg)) →
        exec .sqAdd s = .next { s with lasterr := 4#8, lastinfo := 3#32, result := .fault 4#8 3#32 })

/-- `SQ.ADDALL` (R137) and the checks of `append_packet` (R135), in states that keep the pairing: well-formed packets that
keep the pairing are all appended in order and absorbed; otherwise the first offending packet decides the fault, its
first failing check in the order of R135, and nothing of the list is kept. -/
def Obligations.AddAllAppendsAllOrNothing : Prop :=
  (∀ o : Operands, decode (.operation 0x22#8 o) = .ok (.sqAddAll o.packets)) ∧
  (∀ (s : State) (ps : List Packet),
    (∀ p ∈ ps, p.WellFormed s.consts ∧ ¬ (p.htype = .t2 ∧ p.opcode = .nop)) →
    Paired (s.seq ++ ps) →
    exec (.sqAddAll ps) s = .next { s with
      seq := s.seq ++ ps, acc := foldSeq s.consts s.acc ps, lasterr := 0#8, lastinfo := 0#32,
      result := .ok (.acc (foldSeq s.consts s.acc ps)) }) ∧
  ∀ (s : State) (ps qs : List Packet) (p : Packet),
    (∀ x ∈ ps, x.WellFormed s.consts ∧ ¬ (x.htype = .t2 ∧ x.opcode = .nop)) →
    Paired (s.seq ++ ps) →
    (p.opcode = .nop → (p.htype = .t2 ∨ p.reg ≠ .none) →
      exec (.sqAddAll (ps ++ p :: qs)) s =
        .next { s with lasterr := 4#8, lastinfo := 2#32, result := .fault 4#8 2#32 }) ∧
    (p.opcode ≠ .nop → ¬ s.consts.IsRegister p.reg →
      exec (.sqAddAll (ps ++ p :: qs)) s =
        .next { s with lasterr := 1#8, lastinfo := 0#32, result := .fault 1#8 0#32 }) ∧
    ((p.opcode = .nop → p.htype = .t1 ∧ p.reg = .none) → (p.opcode ≠ .nop → s.consts.IsRegister p.reg) →
      (p.htype = .t1 ∧ 2047 < max p.count p.payload.length ∨
        p.htype = .t2 ∧ 134217727 < max p.count p.payload.length) →
      exec (.sqAddAll (ps ++ p :: qs)) s = .next { s with
        lasterr := 3#8, lastinfo := BitVec.ofNat 32 (max p.count p.payload.length),
        result := .fault 3#8 (BitVec.ofNat 32 (max p.count p.payload.length)) }) ∧
    ((p.opcode = .nop → p.htype = .t1 ∧ p.reg = .none) → (p.opcode ≠ .nop → s.consts.IsRegister p.reg) →
      (p.htype = .t1 → max p.count p.payload.length ≤ 2047) →
      (p.htype = .t2 → max p.count p.payload.length ≤ 134217727) →
      p.payload.length ≠ p.count → (p.opcode ≠ .write → p.payload ≠ []) →
      exec (.sqAddAll (ps ++ p :: qs)) s =
        .next { s with lasterr := 4#8, lastinfo := 1#32, result := .fault 4#8 1#32 }) ∧
    (p.WellFormed s.consts → p.opcode ≠ .nop → p.htype = .t2 →
      (∀ q, (s.seq ++ ps).getLast? = some q → ¬ (q.htype = .t1 ∧ q.count = 0 ∧ q.reg = p.reg)) →
      exec (.sqAddAll (ps ++ p :: qs)) s =
        .next { s with lasterr := 4#8, lastinfo := 3#32, result := .fault 4#8 3#32 })

/-- Splitting a list append changes nothing: `SQ.ADDALL (ps ++ qs)` succeeds with `u` exactly when `SQ.ADDALL ps` then
`SQ.ADDALL qs` do; and `SQ.ADD` is `SQ.ADDALL` of the staged packet (R139 law (L2)). -/
def Obligations.AddAllSplitsFreely : Prop :=
  (∀ (s u : State) (ps qs : List Packet),
    (exec (.sqAddAll (ps ++ qs)) s = .next u ∧ u.lasterr = 0#8) ↔
    ∃ t, exec (.sqAddAll ps) s = .next t ∧ t.lasterr = 0#8 ∧ exec (.sqAddAll qs) t = .next u ∧
      u.lasterr = 0#8) ∧
  ∀ (s : State) (p : Packet), s.pkt = some p → exec .sqAdd s = exec (.sqAddAll [p]) s

/-- `SQ.CRCW` (R138): a one-word WRITE to `CRC` whose payload is the accumulator before it; the accumulator then
folds its header and that value and is not reset. Under the default tables the header is 0x30000001. -/
def Obligations.CrcWriteEmbedsTheAccumulator : Prop :=
  (∀ o : Operands, decode (.operation 0x23#8 o) = .ok .sqCrcw) ∧
  ∀ s : State,
    (s.consts.IsRegister (.named "CRC") → ∀ (p : Packet) (a : Word),
      p = ⟨.t1, .write, .named "CRC", 1, [s.acc]⟩ →
      a = crcStep s.consts.crcFunction (crcStep s.consts.crcFunction s.acc (header s.consts p)) s.acc →
      exec .sqCrcw s = .next { s with
        seq := s.seq ++ [p], acc := a, lasterr := 0#8, lastinfo := 0#32, result := .ok (.acc a) }) ∧
    (¬ s.consts.IsRegister (.named "CRC") →
      exec .sqCrcw s = .next { s with lasterr := 1#8, lastinfo := 0#32, result := .fault 1#8 0#32 }) ∧
    (s.consts.addrOf? (.named "CRC") = some 0#14 → s.consts.opcodeCode.write = 2#2 →
      header s.consts ⟨.t1, .write, .named "CRC", 1, [s.acc]⟩ = 0x30000001#32)

/-! ## FASG -/

/-- `CS.RESOLVE` (R154): selects the family, clears the cursor and returns the specification; an unregistered
family raises UnsupportedFamily. -/
def Obligations.ResolveSelectsTheFamily : Prop :=
  (∀ o : Operands, decode (.operation 0x30#8 o) = .ok (.csResolve o.symbol)) ∧
  ∀ s : State,
    (s.consts.WellFormed → ∀ S ∈ s.consts.familyTable,
      exec (.csResolve S.family) s = .next { s with
        fam := some S.family, fa := ⟨false, false, [], 0, 0, 0, 0⟩, lasterr := 0#8, lastinfo := 0#32,
        result := .ok (.spec S.frameWords (S.blockTypes.map (·.name)) S.logicBt S.bramBt) }) ∧
    (∀ f, (∀ S ∈ s.consts.familyTable, S.family ≠ f) →
      exec (.csResolve f) s = .next { s with lasterr := 5#8, lastinfo := 0#32, result := .fault 5#8 0#32 })

/-- `CS.TOTAL` (R155): the sum of the block type's frame counts. -/
def Obligations.TotalSumsTheSubtypes : Prop :=
  (∀ o : Operands, decode (.operation 0x31#8 o) = .ok (.csTotal o.nat0)) ∧
  (∀ (s : State) (bt : Nat), s.fam = none →
    exec (.csTotal bt) s = .next { s with lasterr := 8#8, lastinfo := 2#32, result := .fault 8#8 2#32 }) ∧
  ∀ (s : State) (f : String) (S : ConfigurationSpecification) (bt : Nat),
    s.fam = some f → s.consts.family? f = some S →
    (S.blockTypes.length ≤ bt →
      exec (.csTotal bt) s = .next { s with lasterr := 8#8, lastinfo := 3#32, result := .fault 8#8 3#32 }) ∧
    ∀ B, S.blockTypes[bt]? = some B →
      exec (.csTotal bt) s = .next { s with
        lasterr := 0#8, lastinfo := 0#32, result := .ok (.frames (B.subtypes.map (·.fpcb)).sum) }

/-- `CS.LOCATE` (R156): a frame index below the block type's total is located in the one subtype whose range holds
it; at or above the total the fault reports the index. -/
def Obligations.LocateFindsTheSubtypeOfAFrame : Prop :=
  (∀ o : Operands, decode (.operation 0x32#8 o) = .ok (.csLocate o.nat0 o.nat1 o.nat2)) ∧
  (∀ (s : State) (bt col t : Nat), s.fam = none →
    exec (.csLocate bt col t) s = .next { s with lasterr := 8#8, lastinfo := 2#32, result := .fault 8#8 2#32 }) ∧
  ∀ (s : State) (f : String) (S : ConfigurationSpecification) (bt col t : Nat),
    s.fam = some f → s.consts.family? f = some S →
    (S.blockTypes.length ≤ bt →
      exec (.csLocate bt col t) s =
        .next { s with lasterr := 8#8, lastinfo := 3#32, result := .fault 8#8 3#32 }) ∧
    ∀ B, S.blockTypes[bt]? = some B →
      (t < (B.subtypes.map (·.fpcb)).sum → ∃ sub x base, B.subtypes[sub]? = some x ∧
        base = ((B.subtypes.take sub).map (·.fpcb)).sum ∧ base ≤ t ∧ t - base < x.fpcb ∧
        exec (.csLocate bt col t) s = .next { s with
          lasterr := 0#8, lastinfo := 0#32, result := .ok (.frameAddr ⟨bt, col, sub, base, t - base⟩) }) ∧
      ((B.subtypes.map (·.fpcb)).sum ≤ t →
        exec (.csLocate bt col t) s = .next { s with
          lasterr := 7#8, lastinfo := BitVec.ofNat 32 t, result := .fault 7#8 (BitVec.ofNat 32 t) })

/-- `locate` reaches every frame of every subtype and is monotone (R160 laws (L1) and (L2)). -/
def Obligations.LocateIsOntoAndMonotone : Prop :=
  ∀ B : BlockType,
    (∀ sub x k, B.subtypes[sub]? = some x → k < x.fpcb →
      locate B (((B.subtypes.take sub).map (·.fpcb)).sum + k) =
        .ok (sub, ((B.subtypes.take sub).map (·.fpcb)).sum, k)) ∧
    (∀ t t' sub base k sub' base' k', t ≤ t' → locate B t = .ok (sub, base, k) →
      locate B t' = .ok (sub', base', k') → sub ≤ sub')

/-- `FA.START` (R158): the number of frames of the device, and the cursor on the first block type with columns. -/
def Obligations.StartSetsTheCursor : Prop :=
  (∀ o : Operands, decode (.operation 0x33#8 o) = .ok (.faStart o.nats)) ∧
  (∀ (s : State) (ncols : List Nat), s.fam = none →
    exec (.faStart ncols) s = .next { s with lasterr := 8#8, lastinfo := 2#32, result := .fault 8#8 2#32 }) ∧
  ∀ (s : State) (ncols : List Nat) (f : String) (S : ConfigurationSpecification) (n : Nat),
    s.fam = some f → s.consts.family? f = some S →
    n = ((ncols.zip S.blockTypes).map fun kB => kB.1 * (kB.2.subtypes.map (·.fpcb)).sum).sum →
    (ncols.length ≠ S.blockTypes.length →
      exec (.faStart ncols) s = .next { s with lasterr := 8#8, lastinfo := 3#32, result := .fault 8#8 3#32 }) ∧
    (ncols.length = S.blockTypes.length → n = 0 →
      exec (.faStart ncols) s = .next { s with
        fa := ⟨true, true, ncols, 0, 0, 0, 0⟩, lasterr := 0#8, lastinfo := 0#32, result := .ok (.frames 0) }) ∧
    (ncols.length = S.blockTypes.length → 0 < n → ∀ b m, ncols[b]? = some m → 0 < m →
      (∀ j, j < b → ncols[j]? = some 0) →
      exec (.faStart ncols) s = .next { s with
        fa := ⟨true, false, ncols, b, 0, 0, 0⟩, lasterr := 0#8, lastinfo := 0#32, result := .ok (.frames n) })

/-- `FA.NEXT` (R159): the address at the cursor, then one frame further: next frame, next subtype, next column, next
block type with columns, or the end. -/
def Obligations.NextReturnsAndAdvances : Prop :=
  (∀ o : Operands, decode (.operation 0x34#8 o) = .ok .faNext) ∧
  ∀ s : State,
    (s.fa.active = false →
      exec .faNext s = .next { s with lasterr := 8#8, lastinfo := 4#32, result := .fault 8#8 4#32 }) ∧
    (s.fa.active = true → s.fa.done = true →
      exec .faNext s = .next { s with lasterr := 8#8, lastinfo := 5#32, result := .fault 8#8 5#32 }) ∧
    ∀ (f : String) (S : ConfigurationSpecification) (B : BlockType) (x : BlockSubType) (n : Nat) (r : FrameAddr),
      s.fa.active = true → s.fa.done = false → s.fam = some f → s.consts.family? f = some S →
      S.blockTypes[s.fa.bt]? = some B → B.subtypes[s.fa.sub]? = some x → s.fa.ncols[s.fa.bt]? = some n →
      r = ⟨s.fa.bt, s.fa.col, s.fa.sub, ((B.subtypes.take s.fa.sub).map (·.fpcb)).sum, s.fa.frm⟩ →
      (s.fa.frm + 1 < x.fpcb →
        exec .faNext s = .next { s with
          fa := { s.fa with frm := s.fa.frm + 1 }, lasterr := 0#8, lastinfo := 0#32,
          result := .ok (.frameAddrLast r false) }) ∧
      (x.fpcb ≤ s.fa.frm + 1 → s.fa.sub + 1 < B.subtypes.length →
        exec .faNext s = .next { s with
          fa := { s.fa with sub := s.fa.sub + 1, frm := 0 }, lasterr := 0#8, lastinfo := 0#32,
          result := .ok (.frameAddrLast r false) }) ∧
      (x.fpcb ≤ s.fa.frm + 1 → B.subtypes.length ≤ s.fa.sub + 1 → s.fa.col + 1 < n →
        exec .faNext s = .next { s with
          fa := { s.fa with col := s.fa.col + 1, sub := 0, frm := 0 }, lasterr := 0#8, lastinfo := 0#32,
          result := .ok (.frameAddrLast r false) }) ∧
      (x.fpcb ≤ s.fa.frm + 1 → B.subtypes.length ≤ s.fa.sub + 1 → n ≤ s.fa.col + 1 →
        (∀ b m, s.fa.bt < b → s.fa.ncols[b]? = some m → 0 < m →
          (∀ j, s.fa.bt < j → j < b → s.fa.ncols[j]? = some 0) →
          exec .faNext s = .next { s with
            fa := { s.fa with bt := b, col := 0, sub := 0, frm := 0 }, lasterr := 0#8, lastinfo := 0#32,
            result := .ok (.frameAddrLast r false) }) ∧
        ((∀ j m, s.fa.bt < j → s.fa.ncols[j]? = some m → m = 0) →
          exec .faNext s = .next { s with
            fa := { s.fa with done := true }, lasterr := 0#8, lastinfo := 0#32,
            result := .ok (.frameAddrLast r true) }))

/-- The enumeration of a device (R158 to R160 law (L3)): after `FA.START`, `FA.NEXT` returns every frame address once,
in the order block type, column, subtype, frame, as many as `FA.START` said, `last` on the final one and no
address after it. -/
def Obligations.EnumerationVisitsEveryFrameOnce : Prop :=
  ∀ (s : State) (f : String) (S : ConfigurationSpecification) (ncols : List Nat),
    s.consts.WellFormed → s.fam = some f → s.consts.family? f = some S →
    ncols.length = S.blockTypes.length →
    (deviceAddrs 0 ncols S.blockTypes).Nodup ∧
    ∃ t, exec (.faStart ncols) s = .next t ∧
      t.result = .ok (.frames (deviceAddrs 0 ncols S.blockTypes).length) ∧
      ∀ m, (deviceAddrs 0 ncols S.blockTypes).length ≤ m →
        (nextResults m t).map Prod.fst = deviceAddrs 0 ncols S.blockTypes ∧
        ∀ k r, (nextResults m t)[k]? = some r →
          (r.2 = true ↔ k + 1 = (deviceAddrs 0 ncols S.blockTypes).length)

/-! ## GEN -/

/-- `GN.INIT` (R172): the initial block on a fresh sequence, in the source's order; an unknown register name of the
record raises InvalidRegister and the old sequence is kept. -/
def Obligations.InitialBlockIsAsListed : Prop :=
  (∀ o : Operands, decode (.operation 0x40#8 o) = .ok (.gnInit o.word)) ∧
  (∀ (s : State) (idcode : Word), s.fam = none →
    exec (.gnInit idcode) s = .next { s with lasterr := 8#8, lastinfo := 2#32, result := .fault 8#8 2#32 }) ∧
  ∀ (s : State) (idcode : Word) (f : String) (S : ConfigurationSpecification) (g : GenRec) (nop : Packet)
    (W : String → Word → Packet) (L : List Packet) (regs : List String),
    s.fam = some f → s.consts.family? f = some S → g = S.generator →
    nop = ⟨.t1, .nop, .none, 0, []⟩ → (∀ r v, W r v = ⟨.t1, .write, .named r, 1, [v]⟩) →
    L = List.replicate g.nSyncNop nop ++
      [W "WBSTAR" g.wbstarReset, W "TIMER" g.timerReset, W g.calReg g.calReset, W g.corReg g.corValue,
       W "IDCODE" idcode, W "CMD" g.cmdSwitch, W "MASK" g.initMask, W g.initCtlReg g.initCtl] ++
      List.replicate g.nInitPad nop →
    regs = ["WBSTAR", "TIMER", g.calReg, g.corReg, "IDCODE", "CMD", "MASK", g.initCtlReg] →
    ((∀ r ∈ regs, s.consts.IsRegister (.named r)) →
      exec (.gnInit idcode) s = .next { s with
        seq := L, acc := foldSeq s.consts s.consts.crcInit L, lasterr := 0#8, lastinfo := 0#32,
        result := .ok (.accNpkt (foldSeq s.consts s.consts.crcInit L) (g.nSyncNop + 8 + g.nInitPad)) }) ∧
    ((∃ r ∈ regs, ¬ s.consts.IsRegister (.named r)) →
      exec (.gnInit idcode) s =
        .next { s with lasterr := 1#8, lastinfo := 0#32, result := .fault 1#8 0#32 })

/-- Input isolation (R172, R181 law (L2)): with two IDCODEs from one state `GN.INIT` gives sequences of equal length
that differ only in the payload of packet `N_SYNC_NOP + 4`, and word streams that differ only at word
`N_SYNC_NOP + 9`. -/
def Obligations.InitialBlockIsInputIsolated : Prop :=
  ∀ (s t u : State) (a b : Word) (f : String) (S : ConfigurationSpecification),
    s.fam = some f → s.consts.family? f = some S →
    exec (.gnInit a) s = .next t → exec (.gnInit b) s = .next u → t.lasterr = 0#8 →
    u.lasterr = 0#8 ∧ t.seq.length = u.seq.length ∧ t.words.length = u.words.length ∧
    (∀ i, i ≠ S.generator.nSyncNop + 4 → t.seq[i]? = u.seq[i]?) ∧
    (∃ p, t.seq[S.generator.nSyncNop + 4]? = some p ∧ p.payload = [a] ∧
      u.seq[S.generator.nSyncNop + 4]? = some { p with payload := [b] }) ∧
    (∀ i, i ≠ S.generator.nSyncNop + 9 → t.words[i]? = u.words[i]?) ∧
    t.words[S.generator.nSyncNop + 9]? = some a ∧ u.words[S.generator.nSyncNop + 9]? = some b

/-- `GN.FDRI` (R174): one Type-1 packet below 1024 words, a zero-word header and a Type-2 packet from 1024 on, the
same whatever family is selected; beyond the 27-bit field PacketOverflow. A register table without `FDRI` gives the
InvalidRegister of R135. -/
def Obligations.FrameDataPolicy : Prop :=
  (∀ o : Operands, decode (.operation 0x41#8 o) = .ok (.gnFdri o.words)) ∧
  ∀ (s : State) (l : List Word),
    (s.consts.IsRegister (.named "FDRI") → l.length < 1024 → ∀ L,
      L = [(⟨.t1, .write, .named "FDRI", l.length, l⟩ : Packet)] →
      exec (.gnFdri l) s = .next { s with
        seq := s.seq ++ L, acc := foldSeq s.consts s.acc L, lasterr := 0#8, lastinfo := 0#32,
        result := .ok (.accNpkt (foldSeq s.consts s.acc L) (s.npkt + 1)) }) ∧
    (s.consts.IsRegister (.named "FDRI") → 1024 ≤ l.length → l.length ≤ 134217727 → ∀ L,
      L = [(⟨.t1, .write, .named "FDRI", 0, []⟩ : Packet), ⟨.t2, .write, .named "FDRI", l.length, l⟩] →
      exec (.gnFdri l) s = .next { s with
        seq := s.seq ++ L, acc := foldSeq s.consts s.acc L, lasterr := 0#8, lastinfo := 0#32,
        result := .ok (.accNpkt (foldSeq s.consts s.acc L) (s.npkt + 2)) }) ∧
    (134217727 < l.length →
      exec (.gnFdri l) s = .next { s with
        lasterr := 3#8, lastinfo := BitVec.ofNat 32 l.length,
        result := .fault 3#8 (BitVec.ofNat 32 l.length) }) ∧
    (¬ s.consts.IsRegister (.named "FDRI") → l.length ≤ 134217727 →
      exec (.gnFdri l) s = .next { s with lasterr := 1#8, lastinfo := 0#32, result := .fault 1#8 0#32 })

/-- `GN.END` (R176): the ending block appended to the sequence, with two CRC commits, each of the accumulator at its
own moment; an unknown register name raises InvalidRegister and nothing is appended. -/
def Obligations.EndingBlockIsAsListed : Prop :=
  (∀ o : Operands, decode (.operation 0x42#8 o) = .ok .gnEnd) ∧
  (∀ (s : State), s.fam = none →
    exec .gnEnd s = .next { s with lasterr := 8#8, lastinfo := 2#32, result := .fault 8#8 2#32 }) ∧
  ∀ (s : State) (f : String) (S : ConfigurationSpecification) (g : GenRec) (nop : Packet)
    (W : String → Word → Packet) (L1 L : List Packet) (regs : List String),
    s.fam = some f → s.consts.family? f = some S → g = S.generator →
    nop = ⟨.t1, .nop, .none, 0, []⟩ → (∀ r v, W r v = ⟨.t1, .write, .named r, 1, [v]⟩) →
    L1 = [W "CRC" s.acc] ++ List.replicate g.nEndPad1 nop ++ [W "CMD" g.cmdGrestore] ++
      List.replicate g.nEndPad2 nop ++
      [W "CMD" g.cmdStart, W "FAR" g.endingFar, W "MASK" g.endMask, W g.endCtlReg g.endCtl] →
    L = L1 ++ [W "CRC" (foldSeq s.consts s.acc L1), W "CMD" g.cmdDesync] ++ List.replicate g.nEndTrail nop →
    regs = ["CRC", "CMD", "FAR", "MASK", g.endCtlReg] →
    ((∀ r ∈ regs, s.consts.IsRegister (.named r)) →
      exec .gnEnd s = .next { s with
        seq := s.seq ++ L, acc := foldSeq s.consts s.acc L, lasterr := 0#8, lastinfo := 0#32,
        result := .ok (.accNpkt (foldSeq s.consts s.acc L)
          (s.npkt + (8 + g.nEndPad1 + g.nEndPad2 + g.nEndTrail))) }) ∧
    ((∃ r ∈ regs, ¬ s.consts.IsRegister (.named r)) →
      exec .gnEnd s = .next { s with lasterr := 1#8, lastinfo := 0#32, result := .fault 1#8 0#32 })

/-- The partial phases always raise UnimplementedOperation with their code and change neither `SEQ` nor `ACC`
(R178, R179). -/
def Obligations.PartialPhasesAlwaysFault : Prop :=
  (∀ o : Operands, decode (.operation 0x43#8 o) = .ok (.gnInitp o.word) ∧
    decode (.operation 0x44#8 o) = .ok .gnEndp) ∧
  ∀ (s : State) (idcode : Word),
    exec (.gnInitp idcode) s =
      .next { s with lasterr := 6#8, lastinfo := 0x43#32, result := .fault 6#8 0x43#32 } ∧
    exec .gnEndp s = .next { s with lasterr := 6#8, lastinfo := 0x44#32, result := .fault 6#8 0x44#32 }

/-! ## Pseudo-operations -/

/-- The `EM.*` expansions (R84). `EM.NOP n` appends `n` NOP packets to any sequence. `EM.W1`, `EM.T1`, `EM.T2`,
`EM.HDR0` and `EM.CMD` run their build operation; a fault of it ends the expansion there; a packet it stages is
appended and absorbed, but for a Type-2 packet whose header is not the last packet: then `SQ.ADD` faults, and the
packet stays staged. In particular `EM.W1 WRITE` to a register of the table appends its packet, and `EM.W1` to any
other register appends nothing. (That `EM.NOP n` builds its packet once is the model's reading, log entry 7.) -/
def Obligations.PseudoOperationsExpand : Prop :=
  (∀ (s : State) (n : Nat), ∃ t, runPseudo (.nop n) s = .next t ∧
    t.seq = s.seq ++ List.replicate n ⟨.t1, .nop, .none, 0, []⟩ ∧
    t.acc = foldSeq s.consts s.acc (List.replicate n ⟨.t1, .nop, .none, 0, []⟩) ∧ t.lasterr = 0#8) ∧
  (∀ (s : State) (r : RegName) (v : Word), s.consts.IsRegister r →
    ∃ t, runPseudo (.w1 "WRITE" r v) s = .next t ∧ t.seq = s.seq ++ [⟨.t1, .write, r, 1, [v]⟩] ∧
      t.acc = absorb s.consts s.acc ⟨.t1, .write, r, 1, [v]⟩ ∧ t.lasterr = 0#8) ∧
  (∀ (s : State) (n : String) (r : RegName) (v : Word), ¬ s.consts.IsRegister r →
    ∃ t, runPseudo (.w1 n r v) s = .next t ∧ t.seq = s.seq ∧ t.acc = s.acc ∧ t.pkt = s.pkt ∧
      t.lasterr ≠ 0#8) ∧
  ∀ (s : State) (e : Pseudo) (b : Instr),
    ((∃ o r v, e = .w1 o r v ∧ b = .pkW1 o r v) ∨ (∃ o r n l, e = .t1 o r n l ∧ b = .pkT1 o r n l) ∨
      (∃ o r n l, e = .t2 o r n l ∧ b = .pkT2 o r n l) ∨ (∃ o r, e = .hdr0 o r ∧ b = .pkT1 o r 0 []) ∨
      ∃ v, e = .cmd v ∧ b = .pkW1 "WRITE" (.named "CMD") v) →
    (∃ f : BlockFault, ∀ t, t = { s with lasterr := f.code, lastinfo := f.info, result := .fault f.code f.info } →
      exec b s = .next t ∧ runPseudo e s = .next t) ∨
    ∃ p : Packet,
      exec b s =
        .next { s with pkt := some p, lasterr := 0#8, lastinfo := 0#32, result := .ok .unit } ∧
      ((p.htype = .t2 → ∃ q, s.seq.getLast? = some q ∧ q.htype = .t1 ∧ q.count = 0 ∧ q.reg = p.reg) →
        runPseudo e s = .next { s with
          pkt := some p, seq := s.seq ++ [p], acc := absorb s.consts s.acc p, lasterr := 0#8, lastinfo := 0#32,
          result := .ok (.acc (absorb s.consts s.acc p)) }) ∧
      (p.htype = .t2 → (∀ q, s.seq.getLast? = some q → ¬ (q.htype = .t1 ∧ q.count = 0 ∧ q.reg = p.reg)) →
        runPseudo e s = .next { s with
          pkt := some p, lasterr := 4#8, lastinfo := 3#32, result := .fault 4#8 3#32 })
end

