-- ==== Sys2Proof/Laws/FrameAddress.lean ====
section
/-! SUPPORT. The walks of the frame-address unit: sums of frame counts, the ordered walk of `locate`, and the
column counts that `FA.START` and `FA.NEXT` search. -/

namespace Sys2Proof.Machine

theorem sumFpcb_eq_sum (l : List BlockSubType) : sumFpcb l = (l.map (·.fpcb)).sum := by
  induction l with
  | nil => rfl
  | cons x xs ih => simp [sumFpcb, ih]

theorem sumFpcb_take_succ {l : List BlockSubType} {i : Nat} {x : BlockSubType} (h : l[i]? = some x) :
    sumFpcb (l.take (i + 1)) = sumFpcb (l.take i) + x.fpcb := by
  induction l generalizing i with
  | nil => cases h
  | cons y ys ih =>
    cases i with
    | zero => cases h; simp [sumFpcb]
    | succ i => simp only [List.take_succ_cons, sumFpcb, ih h]; omega

/-- The ordered walk of R156: it finds the subtype whose range holds the frame, or runs off the end. -/
theorem locateFrom_spec (t : Nat) (l : List BlockSubType) (s base : Nat) (h : base ≤ t) :
    (base + sumFpcb l ≤ t → locateFrom t s base l = none) ∧
    (t < base + sumFpcb l → ∃ i x, l[i]? = some x ∧ base + sumFpcb (l.take i) ≤ t ∧
      t < base + sumFpcb (l.take i) + x.fpcb ∧
      locateFrom t s base l = some (s + i, base + sumFpcb (l.take i), t - (base + sumFpcb (l.take i)))) := by
  induction l generalizing s base with
  | nil => simp [sumFpcb, locateFrom]; omega
  | cons x xs ih =>
    simp only [sumFpcb, locateFrom]
    by_cases hx : t < base + x.fpcb
    · exact ⟨by omega, fun _ => ⟨0, x, rfl, by simpa [sumFpcb] using h, by simpa [sumFpcb] using hx,
        by simp [hx, sumFpcb]⟩⟩
    · rw [if_neg hx]
      obtain ⟨h1, h2⟩ := ih (s + 1) (base + x.fpcb) (by omega)
      refine ⟨fun ht => h1 (by omega), fun ht => ?_⟩
      obtain ⟨i, y, a, b, c, d⟩ := h2 (by omega)
      refine ⟨i + 1, y, a, ?_, ?_, ?_⟩ <;> simp only [List.take_succ_cons, sumFpcb]
      · omega
      · omega
      · rw [d]; simp only [Option.some.injEq, Prod.mk.injEq]; omega

theorem firstWithColumns_eq_none {l : List Nat} :
    firstWithColumns l = none ↔ ∀ (j m : Nat), l[j]? = some m → m = 0 := by
  induction l with
  | nil => simp [firstWithColumns]
  | cons n ns ih =>
    simp only [firstWithColumns]
    by_cases h : 0 < n
    · rw [if_pos h]
      exact ⟨fun e => (by cases e), fun hh => absurd (hh 0 n rfl) (by omega)⟩
    · rw [if_neg h, Option.map_eq_none_iff, ih]
      refine ⟨fun hh j m hj => ?_, fun hh j m hj => hh (j + 1) m hj⟩
      cases j with
      | zero => cases hj; omega
      | succ j => exact hh j m hj

/-- "The least `i` with `ncols[i] > 0`" (R158). -/
theorem firstWithColumns_eq_some {l : List Nat} {b : Nat} :
    firstWithColumns l = some b ↔ (∃ m, l[b]? = some m ∧ 0 < m) ∧ ∀ j, j < b → l[j]? = some 0 := by
  induction l generalizing b with
  | nil => simp [firstWithColumns]
  | cons n ns ih =>
    simp only [firstWithColumns]
    by_cases h : 0 < n
    · rw [if_pos h]
      refine ⟨fun e => (by cases e; exact ⟨⟨n, rfl, h⟩, by simp⟩), fun ⟨_, hh⟩ => ?_⟩
      cases b with
      | zero => rfl
      | succ b => have := hh 0 (by omega); simp at this; omega
    · obtain rfl : n = 0 := by omega
      rw [if_neg h, Option.map_eq_some_iff]
      constructor
      · rintro ⟨b', hb', rfl⟩
        obtain ⟨hm, hj⟩ := ih.mp hb'
        refine ⟨hm, fun j hjb => ?_⟩
        cases j with
        | zero => rfl
        | succ j => exact hj j (by omega)
      · rintro ⟨⟨m, hm, hp⟩, hj⟩
        cases b with
        | zero => cases hm; omega
        | succ b => exact ⟨b, ih.mpr ⟨⟨m, hm, hp⟩, fun j h => hj (j + 1) (by omega)⟩, rfl⟩

/-- "The least `i > bt` with `ncols[i] > 0`" (R159). -/
theorem nextWithColumns_eq_some {l : List Nat} {bt b : Nat} :
    nextWithColumns l bt = some b ↔
      bt < b ∧ (∃ m, l[b]? = some m ∧ 0 < m) ∧ ∀ j, bt < j → j < b → l[j]? = some 0 := by
  unfold nextWithColumns
  rw [Option.map_eq_some_iff]
  simp only [firstWithColumns_eq_some, List.getElem?_drop]
  constructor
  · rintro ⟨b', ⟨⟨m, hm, hp⟩, hj⟩, rfl⟩
    refine ⟨by omega, ⟨m, by rw [Nat.add_comm]; exact hm, hp⟩, fun j h1 h2 => ?_⟩
    have := hj (j - (bt + 1)) (by omega)
    rwa [show bt + 1 + (j - (bt + 1)) = j by omega] at this
  · rintro ⟨hlt, ⟨m, hm, hp⟩, hj⟩
    refine ⟨b - (bt + 1), ⟨⟨m, ?_, hp⟩, fun j h => hj _ (by omega) (by omega)⟩, by omega⟩
    rw [show bt + 1 + (b - (bt + 1)) = b by omega]; exact hm

theorem nextWithColumns_eq_none {l : List Nat} {bt : Nat} :
    nextWithColumns l bt = none ↔ ∀ (j m : Nat), bt < j → l[j]? = some m → m = 0 := by
  unfold nextWithColumns
  rw [Option.map_eq_none_iff, firstWithColumns_eq_none]
  simp only [List.getElem?_drop]
  refine ⟨fun h j m h1 h2 => h (j - (bt + 1)) m ?_, fun h j m hj => h _ m (by omega) hj⟩
  rw [show bt + 1 + (j - (bt + 1)) = j by omega]; exact h2

/-- Advancing a cursor moves only its place, or ends the enumeration: `active` and `ncols` stay (R159). -/
theorem advanceCursor_frame (nsub fpcb ncol : Nat) (fa : Cursor) :
    (advanceCursor nsub fpcb ncol fa).active = fa.active ∧ (advanceCursor nsub fpcb ncol fa).ncols = fa.ncols := by
  unfold advanceCursor
  split <;> [skip; (split <;> [skip; (split <;> [skip; split])])] <;> exact ⟨rfl, rfl⟩

/-- What `FA.NEXT` does at a cursor within the table (R159). -/
theorem execFaNext_inTable {s : State} {f : String} {S : ConfigurationSpecification} {B : BlockType}
    {x : BlockSubType} {n : Nat} (ha : s.fa.active = true) (hd : s.fa.done = false) (hf : s.fam = some f)
    (hS : s.consts.family? f = some S) (hB : S.blockTypes[s.fa.bt]? = some B)
    (hx : B.subtypes[s.fa.sub]? = some x) (hn : s.fa.ncols[s.fa.bt]? = some n) :
    execFaNext s = .next (succeed
      (.frameAddrLast (cursorAddr B s.fa) (advanceCursor B.subtypes.length x.fpcb n s.fa).done)
      { s with fa := advanceCursor B.subtypes.length x.fpcb n s.fa }) := by
  have hfS : s.fam.bind s.consts.family? = some S := by simp [hf, hS]
  have hc : cursorEntry S s.fa = some (B, x, n) := by simp [cursorEntry, hB, hx, hn]
  simp only [execFaNext, ha, hd, hfS, hc]
  rfl

end Sys2Proof.Machine
end

