-- ==== Sys2Proof/Laws/State.lean ====
section
/-! SUPPORT. One lemma per field per update of the state, each true by `rfl`. -/

namespace Sys2Proof.Machine

@[simp] theorem raise_acc (f : BlockFault) (s : State) : (raise f s).acc = s.acc := rfl
@[simp] theorem raise_seq (f : BlockFault) (s : State) : (raise f s).seq = s.seq := rfl
@[simp] theorem raise_pkt (f : BlockFault) (s : State) : (raise f s).pkt = s.pkt := rfl
@[simp] theorem raise_fa (f : BlockFault) (s : State) : (raise f s).fa = s.fa := rfl
@[simp] theorem raise_fam (f : BlockFault) (s : State) : (raise f s).fam = s.fam := rfl
@[simp] theorem raise_lasterr (f : BlockFault) (s : State) : (raise f s).lasterr = f.code := rfl
@[simp] theorem raise_lastinfo (f : BlockFault) (s : State) : (raise f s).lastinfo = f.info := rfl
@[simp] theorem raise_result (f : BlockFault) (s : State) : (raise f s).result = .fault f.code f.info := rfl
@[simp] theorem raise_host (f : BlockFault) (s : State) : (raise f s).host = s.host := rfl
@[simp] theorem raise_consts (f : BlockFault) (s : State) : (raise f s).consts = s.consts := rfl

@[simp] theorem succeed_acc (v : ResultValue) (s : State) : (succeed v s).acc = s.acc := rfl
@[simp] theorem succeed_seq (v : ResultValue) (s : State) : (succeed v s).seq = s.seq := rfl
@[simp] theorem succeed_pkt (v : ResultValue) (s : State) : (succeed v s).pkt = s.pkt := rfl
@[simp] theorem succeed_fa (v : ResultValue) (s : State) : (succeed v s).fa = s.fa := rfl
@[simp] theorem succeed_fam (v : ResultValue) (s : State) : (succeed v s).fam = s.fam := rfl
@[simp] theorem succeed_lasterr (v : ResultValue) (s : State) : (succeed v s).lasterr = 0#8 := rfl
@[simp] theorem succeed_lastinfo (v : ResultValue) (s : State) : (succeed v s).lastinfo = 0#32 := rfl
@[simp] theorem succeed_result (v : ResultValue) (s : State) : (succeed v s).result = .ok v := rfl
@[simp] theorem succeed_host (v : ResultValue) (s : State) : (succeed v s).host = s.host := rfl
@[simp] theorem succeed_consts (v : ResultValue) (s : State) : (succeed v s).consts = s.consts := rfl

@[simp] theorem withStream_acc (s : State) (q : Stream) : (s.withStream q).acc = q.acc := rfl
@[simp] theorem withStream_seq (s : State) (q : Stream) : (s.withStream q).seq = q.seq := rfl
@[simp] theorem withStream_pkt (s : State) (q : Stream) : (s.withStream q).pkt = s.pkt := rfl
@[simp] theorem withStream_fa (s : State) (q : Stream) : (s.withStream q).fa = s.fa := rfl
@[simp] theorem withStream_fam (s : State) (q : Stream) : (s.withStream q).fam = s.fam := rfl
@[simp] theorem withStream_lasterr (s : State) (q : Stream) : (s.withStream q).lasterr = s.lasterr := rfl
@[simp] theorem withStream_lastinfo (s : State) (q : Stream) : (s.withStream q).lastinfo = s.lastinfo := rfl
@[simp] theorem withStream_result (s : State) (q : Stream) : (s.withStream q).result = s.result := rfl
@[simp] theorem withStream_host (s : State) (q : Stream) : (s.withStream q).host = s.host := rfl
@[simp] theorem withStream_consts (s : State) (q : Stream) : (s.withStream q).consts = s.consts := rfl

@[simp] theorem resetBlock_acc (s : State) : (resetBlock s).acc = s.consts.crcInit := rfl
@[simp] theorem resetBlock_seq (s : State) : (resetBlock s).seq = [] := rfl
@[simp] theorem resetBlock_pkt (s : State) : (resetBlock s).pkt = none := rfl
@[simp] theorem resetBlock_fa (s : State) : (resetBlock s).fa = Cursor.cleared := rfl
@[simp] theorem resetBlock_fam (s : State) : (resetBlock s).fam = none := rfl
@[simp] theorem resetBlock_lasterr (s : State) : (resetBlock s).lasterr = 0#8 := rfl
@[simp] theorem resetBlock_lastinfo (s : State) : (resetBlock s).lastinfo = 0#32 := rfl
@[simp] theorem resetBlock_result (s : State) : (resetBlock s).result = .idle := rfl
@[simp] theorem resetBlock_host (s : State) : (resetBlock s).host = s.host := rfl
@[simp] theorem resetBlock_consts (s : State) : (resetBlock s).consts = s.consts := rfl

@[simp] theorem resetOf_acc (c : Constants) : (State.resetOf c).acc = c.crcInit := rfl
@[simp] theorem resetOf_seq (c : Constants) : (State.resetOf c).seq = [] := rfl
@[simp] theorem resetOf_pkt (c : Constants) : (State.resetOf c).pkt = none := rfl
@[simp] theorem resetOf_fa (c : Constants) : (State.resetOf c).fa = Cursor.cleared := rfl
@[simp] theorem resetOf_fam (c : Constants) : (State.resetOf c).fam = none := rfl
@[simp] theorem resetOf_lasterr (c : Constants) : (State.resetOf c).lasterr = 0#8 := rfl
@[simp] theorem resetOf_lastinfo (c : Constants) : (State.resetOf c).lastinfo = 0#32 := rfl
@[simp] theorem resetOf_result (c : Constants) : (State.resetOf c).result = .idle := rfl
@[simp] theorem resetOf_host (c : Constants) : (State.resetOf c).host = [] := rfl
@[simp] theorem resetOf_consts (c : Constants) : (State.resetOf c).consts = c := rfl

@[simp] theorem stream_seq (s : State) : s.stream.seq = s.seq := rfl
@[simp] theorem stream_acc (s : State) : s.stream.acc = s.acc := rfl
@[simp] theorem withStream_stream (s : State) (q : Stream) : (s.withStream q).stream = q := rfl
@[simp] theorem fresh_seq (c : Constants) : (Stream.fresh c).seq = [] := rfl
@[simp] theorem fresh_acc (c : Constants) : (Stream.fresh c).acc = c.crcInit := rfl
@[simp] theorem cleared_active : Cursor.cleared.active = false := rfl

end Sys2Proof.Machine
end

