-- ==== Sys2Proof/Laws/Ops.lean ====
section
/-! SUPPORT. What each shared operation can do, said once: how an operation ends, when a packet is accepted,
what appending leaves, and the small laws of the wire format and the checksum. -/

namespace Sys2Proof.Machine

/-! ## How an operation ends -/

@[simp] theorem complete_ok (s t : State) (v : ResultValue) : complete s (.ok (t, v)) = succeed v t := rfl

@[simp] theorem complete_error (s : State) (f : BlockFault) : complete s (.error f) = raise f s := rfl

/-- An operation ends in success of some effect, or in one fault with everything restored (R193). -/
theorem complete_cases (s : State) (r : Except BlockFault (State × ResultValue)) :
    (∃ t v, r = .ok (t, v) ∧ complete s r = succeed v t) ∨ ∃ f, r = .error f ∧ complete s r = raise f s := by
  cases r with
  | ok tv => exact .inl ⟨tv.1, tv.2, rfl, rfl⟩
  | error f => exact .inr ⟨f, rfl, rfl⟩

@[simp] theorem completeAppend_ok (s : State) (q : Stream) (v : State → ResultValue) :
    completeAppend s (.ok q) v = succeed (v (s.withStream q)) (s.withStream q) := rfl

@[simp] theorem completeAppend_error (s : State) (f : BlockFault) (v : State → ResultValue) :
    completeAppend s (.error f) v = raise f s := rfl

theorem completeAppend_cases (s : State) (r : Except BlockFault Stream) (v : State → ResultValue) :
    (∃ q, r = .ok q ∧ completeAppend s r v = succeed (v (s.withStream q)) (s.withStream q)) ∨
    ∃ f, r = .error f ∧ completeAppend s r v = raise f s := by
  cases r with
  | ok q => exact .inl ⟨q, rfl, rfl⟩
  | error f => exact .inr ⟨f, rfl, rfl⟩

/-- An operation that needs a family: no family, an identifier without an entry, or the entry (R195). -/
theorem withFamily_cases (s : State) (k : ConfigurationSpecification → Host.Outcome State Fault Refusal) :
    (s.fam = none ∧ withFamily s k = .next (raise (.illegalOperation .noFamily) s)) ∨
    (∃ f, s.fam = some f ∧ s.consts.family? f = none ∧ withFamily s k = .fault .familyUnbound) ∨
    ∃ f S, s.fam = some f ∧ s.consts.family? f = some S ∧ withFamily s k = k S := by
  unfold withFamily
  cases hf : s.fam with
  | none => exact .inl ⟨rfl, rfl⟩
  | some f =>
    cases hS : s.consts.family? f with
    | none => exact .inr (.inl ⟨f, rfl, hS, by simp [hS]⟩)
    | some S => exact .inr (.inr ⟨f, S, rfl, hS, by simp [hS]⟩)

theorem withFamily_some {s : State} {f : String} {S : ConfigurationSpecification} (hf : s.fam = some f)
    (hS : s.consts.family? f = some S) (k : ConfigurationSpecification → Host.Outcome State Fault Refusal) :
    withFamily s k = k S := by
  simp [withFamily, hf, hS]

theorem withFamily_none {s : State} (hf : s.fam = none)
    (k : ConfigurationSpecification → Host.Outcome State Fault Refusal) :
    withFamily s k = .next (raise (.illegalOperation .noFamily) s) := by
  simp [withFamily, hf]

/-! ## When a packet is accepted -/

theorem overflowLength_le {p : Packet} {m : Nat} :
    overflowLength p ≤ m ↔ p.count ≤ m ∧ p.payload.length ≤ m := by
  simp [overflowLength]

/-- Steps (3) and (4) of R115 pass exactly on packets that meet clauses (a) to (d) of R32. -/
theorem checkCount_ok_iff (p : Packet) :
    checkCount p = .ok () ↔
      p.count ≤ p.htype.maxWords ∧ p.payload.length ≤ p.htype.maxWords ∧
      (p.opcode = .write → p.payload.length = p.count) ∧
      (p.opcode ≠ .write → p.payload.length = 0 ∨ p.payload.length = p.count) := by
  rw [← and_assoc, ← overflowLength_le]
  unfold checkCount
  by_cases h : p.htype.maxWords < overflowLength p
  · simp [h, Nat.not_le.mpr h]
  · rw [if_neg h]
    have h' := Nat.not_lt.mp h
    by_cases hw : p.opcode = .write <;> by_cases hl : p.payload.length = p.count <;>
      by_cases h0 : p.payload.length = 0 <;> simp [h', hw, hl, h0]

/-- Part (1) of `append_packet` re-establishes `wf(p)` (R135) and refuses a Type-2 NOP. -/
theorem checkPacket_ok_iff (c : Constants) (p : Packet) :
    checkPacket c p = .ok () ↔ p.WellFormed c ∧ ¬ (p.htype = .t2 ∧ p.opcode = .nop) := by
  have hcount : checkCount p = .ok () ↔
      (p.opcode = .write → p.count = p.payload.length) ∧
      (p.opcode ≠ .write → p.payload.length = 0 ∨ p.payload.length = p.count) ∧
      (p.htype = .t1 → p.count ≤ t1MaxWords) ∧ (p.htype = .t2 → p.count ≤ t2MaxWords) := by
    rw [checkCount_ok_iff]
    cases hh : p.htype <;> by_cases hw : p.opcode = .write <;> 
      simp [hw, HType.maxWords, -List.length_eq_zero_iff] <;> omega
  unfold checkPacket Packet.WellFormed
  by_cases h2 : p.htype = .t2 ∧ p.opcode = .nop
  · simp [h2]
  rw [if_neg h2]
  by_cases hn : p.opcode = .nop
  · by_cases hr : p.reg = .none
    · rw [if_neg (by simp [hr]), if_neg (by simp [hn]), hcount]
      exact ⟨fun ⟨a, b, x, y⟩ => ⟨⟨a, b, x, y, fun _ => hr, fun h => absurd hn h⟩, h2⟩,
        fun ⟨⟨a, b, x, y, _, _⟩, _⟩ => ⟨a, b, x, y⟩⟩
    · simp [hn, hr]
  · by_cases hr : c.IsRegister p.reg
    · rw [if_neg (by simp [hn]), if_neg (fun h => h.2 hr), hcount]
      exact ⟨fun ⟨a, b, x, y⟩ => ⟨⟨a, b, x, y, fun h => absurd h hn, fun _ => hr⟩, h2⟩,
        fun ⟨⟨a, b, x, y, _, _⟩, _⟩ => ⟨a, b, x, y⟩⟩
    · rw [if_neg (by simp [hn]), if_pos ⟨hn, hr⟩]
      exact ⟨fun h => (by cases h), fun h => absurd (h.1.2.2.2.2.2 hn) hr⟩

/-- Part (2) of `append_packet` (R135). -/
theorem checkPairing_ok_iff (seq : List Packet) (p : Packet) :
    checkPairing seq p = .ok () ↔ (p.htype = .t2 → ∃ q, seq.getLast? = some q ∧ HeaderFor q p) := by
  unfold checkPairing
  by_cases h2 : p.htype = .t2
  · cases hl : seq.getLast? with
    | none => simp [h2]
    | some q =>
      simp only [h2, if_true, Option.some.injEq, exists_eq_left', true_implies]
      by_cases hq : HeaderFor q p
      · rw [if_pos hq]; exact ⟨fun _ => hq, fun _ => rfl⟩
      · rw [if_neg hq]; exact ⟨fun h => (by cases h), fun h => absurd h hq⟩
  · simp [h2]

/-- `append_packet` accepts a packet exactly when it passes parts (1) and (2), and then commits it (R135). -/
theorem appendPacket_ok_iff (c : Constants) (p : Packet) (q q' : Stream) :
    appendPacket c p q = .ok q' ↔
      (p.WellFormed c ∧ ¬ (p.htype = .t2 ∧ p.opcode = .nop)) ∧
      (p.htype = .t2 → ∃ h, q.seq.getLast? = some h ∧ HeaderFor h p) ∧ q' = commitPacket c p q := by
  unfold appendPacket
  rw [← checkPacket_ok_iff, ← checkPairing_ok_iff]
  cases h1 : checkPacket c p with
  | error f => simp
  | ok u =>
    cases h2 : checkPairing q.seq p with
    | error f => simp
    | ok u => simp [eq_comm]

/-- A Type-1 packet that meets `wf` is accepted after any sequence. -/
theorem appendPacket_t1 {c : Constants} {p : Packet} (hw : p.WellFormed c) (ht : p.htype = .t1) (q : Stream) :
    appendPacket c p q = .ok (commitPacket c p q) := by
  rw [appendPacket_ok_iff]
  exact ⟨⟨hw, by simp [ht]⟩, by simp [ht], rfl⟩

@[simp] theorem commitPacket_seq (c : Constants) (p : Packet) (q : Stream) :
    (commitPacket c p q).seq = q.seq ++ [p] := rfl

@[simp] theorem commitPacket_acc (c : Constants) (p : Packet) (q : Stream) :
    (commitPacket c p q).acc = absorb c q.acc p := rfl

/-! ## Appending a list -/

theorem appendAll_append (c : Constants) (ps qs : List Packet) (q : Stream) :
    appendAll c (ps ++ qs) q = (appendAll c ps q).bind (appendAll c qs) := by
  induction ps generalizing q with
  | nil => rfl
  | cons p ps ih =>
    simp only [List.cons_append, appendAll]
    cases appendPacket c p q with
    | error f => rfl
    | ok q' => exact ih q'

/-- A successful list append adds exactly its packets, in order, and absorbs each (R137). -/
theorem appendAll_ok {c : Constants} {ps : List Packet} {q q' : Stream} (h : appendAll c ps q = .ok q') :
    q' = ⟨q.seq ++ ps, foldSeq c q.acc ps⟩ := by
  induction ps generalizing q with
  | nil => cases h; simp [foldSeq]
  | cons p ps ih =>
    simp only [appendAll] at h
    cases hp : appendPacket c p q with
    | error f => simp [hp] at h
    | ok q1 =>
      rw [hp] at h
      obtain ⟨-, -, rfl⟩ := (appendPacket_ok_iff c p q q1).mp hp
      rw [ih h]
      simp [foldSeq]

/-- Type-1 packets that meet `wf` are accepted as a list. -/
theorem appendAll_t1 {c : Constants} {ps : List Packet} (h : ∀ p ∈ ps, p.WellFormed c ∧ p.htype = .t1)
    (q : Stream) : appendAll c ps q = .ok ⟨q.seq ++ ps, foldSeq c q.acc ps⟩ := by
  induction ps generalizing q with
  | nil => simp [appendAll, foldSeq]
  | cons p ps ih =>
    obtain ⟨hw, ht⟩ := h p (by simp)
    simp only [appendAll, appendPacket_t1 hw ht]
    rw [ih fun p hp => h p (by simp [hp])]
    simp [foldSeq]

/-! ## The packets the generator is made of -/

theorem nopPacket_wellFormed (c : Constants) : nopPacket.WellFormed c := by
  simp [nopPacket, Packet.WellFormed]

theorem writePacket_wellFormed {c : Constants} {r : String} (h : c.IsRegister (.named r)) (v : Word) :
    (writePacket r v).WellFormed c := by
  refine ⟨by simp [writePacket], by simp [writePacket], by simp [writePacket, t1MaxWords],
    by simp [writePacket], by simp [writePacket], fun _ => h⟩

@[simp] theorem nopPacket_htype : nopPacket.htype = .t1 := rfl

@[simp] theorem writePacket_htype (r : String) (v : Word) : (writePacket r v).htype = .t1 := rfl

/-! ## Small laws of the streams -/

theorem wordStream_append (c : Constants) (ps qs : List Packet) :
    wordStream c (ps ++ qs) = wordStream c ps ++ wordStream c qs := by
  induction ps with
  | nil => rfl
  | cons p ps ih => simp [wordStream, ih]

@[simp] theorem words_length (c : Constants) (p : Packet) : (words c p).length = 1 + p.payload.length := by
  simp [words, Nat.add_comm]

@[simp] theorem bytesOfWord_length (w : Word) : (bytesOfWord w).length = 4 := rfl

/-- A register operand is a key exactly when some pair of the table has its name (R100). -/
theorem addrOf?_isSome_iff (c : Constants) (n : String) :
    c.IsRegister (.named n) ↔ ∃ a, (n, a) ∈ c.regAddr := by
  simp [Constants.IsRegister, Constants.addrOf?, List.find?_isSome]

theorem addrOf?_none (c : Constants) : c.addrOf? .none = none := rfl

end Sys2Proof.Machine
end

