-- ==== Sys2Proof/Laws/Sequence.lean ====
section
/-! SUPPORT. Appending lists of packets and their checksum: when a list is accepted, when it is not, and the
generator's blocks as lists. -/

namespace Sys2Proof.Machine

theorem foldSeq_append (c : Constants) (a : Word) (ps qs : List Packet) :
    foldSeq c a (ps ++ qs) = foldSeq c (foldSeq c a ps) qs := by
  induction ps generalizing a with
  | nil => rfl
  | cons p ps ih => exact ih _

theorem absorbPayload_append (c : Constants) (p : Packet) (acc : Word) (l m : List Word) :
    absorbPayload c p acc (l ++ m) = absorbPayload c p (absorbPayload c p acc l) m := by
  induction l generalizing acc with
  | nil => rfl
  | cons x xs ih => exact ih _

/-- Where no payload word resets the accumulator, absorbing a payload is folding it (R133). -/
theorem absorbPayload_eq_fold {c : Constants} {p : Packet} {l : List Word} (h : ∀ w ∈ l, ¬ ResetsCrc c p w)
    (acc : Word) : absorbPayload c p acc l = fold c.crcFunction acc l := by
  induction l generalizing acc with
  | nil => rfl
  | cons x xs ih =>
    simp only [absorbPayload, fold]
    rw [if_neg (h x (by simp)), ih fun w hw => h w (by simp [hw])]

theorem appendPacket_error {c : Constants} {p : Packet} {f : BlockFault} (h : checkPacket c p = .error f)
    (q : Stream) : appendPacket c p q = .error f := by
  unfold appendPacket; rw [h]

/-- Appending one packet is appending the list of it. -/
theorem appendPacket_eq_appendAll (c : Constants) (p : Packet) (q : Stream) :
    appendPacket c p q = appendAll c [p] q := by
  simp only [appendAll]
  cases appendPacket c p q <;> rfl

/-- A one-word write to an unknown register is refused, whatever stands before it (R135). -/
theorem appendPacket_unknownRegister {c : Constants} {r : String} (h : ¬ c.IsRegister (.named r)) (v : Word)
    (q : Stream) : appendPacket c (writePacket r v) q = .error .invalidRegister := by
  apply appendPacket_error
  unfold checkPacket
  rw [if_neg (by simp), if_neg (by simp [writePacket]), if_pos ⟨by simp [writePacket], h⟩]

/-- A list of NOP packets and one-word writes in which one register is unknown is refused (R135, R137). -/
theorem appendAll_unknownRegister {c : Constants} {ps : List Packet}
    (hps : ∀ p ∈ ps, p = nopPacket ∨ ∃ r v, p = writePacket r v)
    (hbad : ∃ r v, writePacket r v ∈ ps ∧ ¬ c.IsRegister (.named r)) (q : Stream) :
    appendAll c ps q = .error .invalidRegister := by
  induction ps generalizing q with
  | nil => obtain ⟨r, v, h, -⟩ := hbad; cases h
  | cons p ps ih =>
    simp only [appendAll]
    by_cases hp : ∃ r v, p = writePacket r v ∧ ¬ c.IsRegister (.named r)
    · obtain ⟨r, v, rfl, h⟩ := hp
      rw [appendPacket_unknownRegister h]
    · have hok : appendPacket c p q = .ok (commitPacket c p q) := by
        rcases hps p (by simp) with rfl | ⟨r, v, rfl⟩
        · exact appendPacket_t1 (nopPacket_wellFormed c) rfl q
        · exact appendPacket_t1 (writePacket_wellFormed (by_contra fun h => hp ⟨r, v, rfl, h⟩) v) rfl q
      rw [hok]
      obtain ⟨r, v, hm, hr⟩ := hbad
      refine ih (fun x hx => hps x (by simp [hx])) ⟨r, v, ?_, hr⟩ _
      exact (List.mem_cons.mp hm).resolve_left fun h => hp ⟨r, v, h.symm, hr⟩

/-- A CRC write is one packet more, its payload the accumulator before it (R138). -/
theorem appendCrcWrite_eq_appendAll (c : Constants) (q : Stream) :
    appendCrcWrite c q = appendAll c [writePacket "CRC" q.acc] q :=
  appendPacket_eq_appendAll c _ q

/-- The ending block is the append of one list of packets, found as it runs (R176). -/
theorem appendEndBlock_eq_appendAll (c : Constants) (g : GenRec) (q : Stream) :
    ∃ ps, appendEndBlock c g q = appendAll c ps q := by
  unfold appendEndBlock
  simp only [appendCrcWrite_eq_appendAll]
  cases h1 : appendAll c [writePacket "CRC" q.acc] q with
  | error f => exact ⟨_, h1.symm⟩
  | ok q1 =>
    have e1 := appendAll_append c [writePacket "CRC" q.acc] (endBlockMiddle g) q
    rw [h1] at e1
    simp only []
    cases h2 : appendAll c (endBlockMiddle g) q1 with
    | error f => exact ⟨_, (e1.trans h2).symm⟩
    | ok q2 =>
      have e2 := appendAll_append c ([writePacket "CRC" q.acc] ++ endBlockMiddle g)
        [writePacket "CRC" q2.acc] q
      rw [e1.trans h2] at e2
      simp only []
      cases h3 : appendAll c [writePacket "CRC" q2.acc] q2 with
      | error f => exact ⟨_, (e2.trans h3).symm⟩
      | ok q3 =>
        have e3 := appendAll_append c
          ([writePacket "CRC" q.acc] ++ endBlockMiddle g ++ [writePacket "CRC" q2.acc]) (endBlockTail g) q
        rw [e2.trans h3] at e3
        exact ⟨_, e3.symm⟩

end Sys2Proof.Machine
end

