-- ==== Sys2Proof/Laws/Effects.lean ====
section
/-! SUPPORT. What an instruction and a step can do, said once: the eight kinds of next state of `exec`, with the
instructions of each kind, and the four kinds of step. -/

namespace Sys2Proof.Machine

/-- The build operations (R110). -/
def IsBuild (i : Instr) : Prop :=
  i = .pkNop ∨ (∃ o r v, i = .pkW1 o r v) ∨ (∃ o r n l, i = .pkT1 o r n l) ∨ ∃ o r n l, i = .pkT2 o r n l

/-- The operations that append to the sequence (R135). -/
def IsAppend (i : Instr) : Prop :=
  i = .sqAdd ∨ (∃ l, i = .sqAddAll l) ∨ i = .sqCrcw ∨ (∃ l, i = .gnFdri l) ∨ i = .gnEnd

/-- The operations that begin a fresh sequence (R134, R172). -/
def IsFresh (i : Instr) : Prop := i = .sqNew ∨ ∃ w, i = .gnInit w

/-- The next states of an instruction. -/
inductive Effect (i : Instr) (s : State) : State → Prop
  | raised (f : BlockFault) : Effect i s (raise f s)
  | reported (v : ResultValue) : Effect i s (succeed v s)
  | staged (p : Packet) (hi : IsBuild i) (hp : p.WellFormed s.consts ∧ ¬ (p.htype = .t2 ∧ p.opcode = .nop)) :
    Effect i s (succeed .unit { s with pkt := some p })
  | appended (ps : List Packet) (v : ResultValue) (hi : IsAppend i)
    (hps : appendAll s.consts ps s.stream = .ok ⟨s.seq ++ ps, foldSeq s.consts s.acc ps⟩) :
    Effect i s (succeed v (s.withStream ⟨s.seq ++ ps, foldSeq s.consts s.acc ps⟩))
  | freshened (ps : List Packet) (v : ResultValue) (hi : IsFresh i)
    (hps : appendAll s.consts ps (.fresh s.consts) = .ok ⟨ps, foldSeq s.consts s.consts.crcInit ps⟩) :
    Effect i s (succeed v (s.withStream ⟨ps, foldSeq s.consts s.consts.crcInit ps⟩))
  | resolved (f : String) (S : ConfigurationSpecification) (v : ResultValue) (hi : i = .csResolve f)
    (hS : s.consts.family? f = some S) :
    Effect i s (succeed v { s with fam := some f, fa := Cursor.cleared })
  | started (l : List Nat) (f : String) (S : ConfigurationSpecification) (v : ResultValue) (hi : i = .faStart l)
    (hf : s.fam = some f) (hS : s.consts.family? f = some S) (hl : l.length = S.blockTypes.length) :
    Effect i s (succeed v { s with fa := startCursor S l })
  | advanced (f : String) (S : ConfigurationSpecification) (B : BlockType) (x : BlockSubType) (n : Nat)
    (v : ResultValue) (hi : i = .faNext) (ha : s.fa.active = true) (hd : s.fa.done = false)
    (hf : s.fam = some f) (hS : s.consts.family? f = some S) (hB : S.blockTypes[s.fa.bt]? = some B)
    (hx : B.subtypes[s.fa.sub]? = some x) (hn : s.fa.ncols[s.fa.bt]? = some n) :
    Effect i s (succeed v { s with fa := advanceCursor B.subtypes.length x.fpcb n s.fa })

namespace Effect

variable {i : Instr} {s : State}

/-- An operation that only answers: its result or its fault. -/
theorem of_answer {α : Type} (r : Except BlockFault α) (v : α → ResultValue) :
    Effect i s (complete s (r.map fun a => (s, v a))) := by
  cases r with
  | error f => exact .raised f
  | ok a => exact .reported _

theorem of_append (hi : IsAppend i) (ps : List Packet) (v : State → ResultValue) :
    Effect i s (completeAppend s (appendAll s.consts ps s.stream) v) := by
  cases h : appendAll s.consts ps s.stream with
  | error f => exact .raised f
  | ok q =>
    obtain rfl := appendAll_ok h
    exact .appended ps _ hi h

theorem of_fresh (hi : IsFresh i) (ps : List Packet) (v : State → ResultValue) :
    Effect i s (completeAppend s (appendAll s.consts ps (.fresh s.consts)) v) := by
  cases h : appendAll s.consts ps (.fresh s.consts) with
  | error f => exact .raised f
  | ok q =>
    obtain rfl := appendAll_ok h
    exact .freshened ps _ hi h

theorem of_family {k : ConfigurationSpecification → Host.Outcome State Fault Refusal}
    (hk : ∀ f S t, s.fam = some f → s.consts.family? f = some S → k S = .next t → Effect i s t) {t : State}
    (h : withFamily s k = .next t) : Effect i s t := by
  rcases withFamily_cases s k with ⟨-, e⟩ | ⟨f, -, -, e⟩ | ⟨f, S, hf, hS, e⟩ <;> rw [e] at h
  · cases h; exact .raised _
  · cases h
  · exact hk f S t hf hS h

end Effect

/-- What `PK.W1` builds passes part (1) of `append_packet` (R112, R118). -/
theorem buildW1_checked {c : Constants} {o : String} {r : RegName} {v : Word} {p : Packet}
    (h : buildW1 c o r v = .ok p) : checkPacket c p = .ok () := by
  unfold buildW1 lookupReg at h
  cases ho : lookupOpcode o with
  | error f => rw [ho] at h; cases h
  | ok oc =>
    cases hr : c.addrOf? r with
    | none => rw [ho, hr] at h; cases h
    | some a =>
      rw [ho, hr] at h
      by_cases hn : oc = .nop
      · simp only [if_pos hn] at h; cases h
      · simp only [if_neg hn] at h; cases h
        have hreg : c.IsRegister r := by rw [Constants.IsRegister, hr]; rfl
        rw [checkPacket_ok_iff]
        exact ⟨⟨by simp, by simp, by simp [t1MaxWords], by simp, fun h => absurd h hn, fun _ => hreg⟩, by simp⟩

/-- What `PK.T1` and `PK.T2` build passes part (1) of `append_packet`, once their register check does what it
should (R113, R114, R118). -/
theorem buildCounted_checked {c : Constants} {h : HType} {chk : Opcode → RegName → Except BlockFault Unit}
    (hchk : ∀ o r, chk o r = .ok () → (o = .nop → h = .t1 ∧ r = .none) ∧ (o ≠ .nop → c.IsRegister r))
    {o : String} {r : RegName} {n : Nat} {l : List Word} {p : Packet}
    (hp : buildCounted h chk o r n l = .ok p) : checkPacket c p = .ok () := by
  unfold buildCounted at hp
  cases ho : lookupOpcode o with
  | error f => rw [ho] at hp; cases hp
  | ok oc =>
    cases hk : chk oc r with
    | error f => simp only [ho, hk] at hp; cases hp
    | ok u =>
      simp only [ho, hk] at hp
      cases hc : checkCount ⟨h, oc, r, n, l⟩ with
      | error f => rw [hc] at hp; cases hp
      | ok u =>
        rw [hc] at hp; cases hp
        obtain ⟨h1, h2⟩ := hchk _ _ hk
        unfold checkPacket
        rw [if_neg (by rintro ⟨rfl, rfl⟩; cases (h1 rfl).1), if_neg (fun a => a.2 (h1 a.1).2),
          if_neg (fun a => a.2 (h2 a.1)), hc]

theorem checkRegT1_ok {c : Constants} {o : Opcode} {r : RegName} (h : checkRegT1 c o r = .ok ()) :
    (o = .nop → HType.t1 = .t1 ∧ r = .none) ∧ (o ≠ .nop → c.IsRegister r) := by
  unfold checkRegT1 at h
  by_cases hn : o = .nop
  · rw [if_pos hn] at h
    by_cases hr : r = .none
    · exact ⟨fun _ => ⟨rfl, hr⟩, fun h => absurd hn h⟩
    · rw [if_neg hr] at h; cases h
  · rw [if_neg hn] at h
    by_cases hr : c.IsRegister r
    · exact ⟨fun h => absurd h hn, fun _ => hr⟩
    · rw [if_neg hr] at h; cases h

theorem checkRegT2_ok {c : Constants} {o : Opcode} {r : RegName} (h : checkRegT2 c o r = .ok ()) :
    (o = .nop → HType.t2 = .t1 ∧ r = .none) ∧ (o ≠ .nop → c.IsRegister r) := by
  unfold checkRegT2 at h
  by_cases hn : o = .nop
  · rw [if_pos hn] at h; cases h
  · rw [if_neg hn] at h
    by_cases hr : c.IsRegister r
    · exact ⟨fun h => absurd h hn, fun _ => hr⟩
    · rw [if_neg hr] at h; cases h

/-- A build operation stages a packet that `append_packet` accepts on its own, or raises one fault (R110, R118). -/
theorem exec_build {i : Instr} (hi : IsBuild i) (s : State) :
    (∃ f, exec i s = .next (raise f s)) ∨
    ∃ p, exec i s = .next (succeed .unit { s with pkt := some p }) ∧ p.WellFormed s.consts ∧
      ¬ (p.htype = .t2 ∧ p.opcode = .nop) := by
  have staged : ∃ r, exec i s = .next (stage s r) ∧ ∀ p, r = .ok p → checkPacket s.consts p = .ok () := by
    rcases hi with rfl | ⟨o, r, v, rfl⟩ | ⟨o, r, n, l, rfl⟩ | ⟨o, r, n, l, rfl⟩
    · refine ⟨.ok nopPacket, rfl, fun p h => ?_⟩
      cases h
      exact (checkPacket_ok_iff _ _).mpr ⟨nopPacket_wellFormed _, by simp⟩
    · exact ⟨_, rfl, fun _ => buildW1_checked⟩
    · exact ⟨_, rfl, fun _ => buildCounted_checked fun _ _ => checkRegT1_ok⟩
    · exact ⟨_, rfl, fun _ => buildCounted_checked fun _ _ => checkRegT2_ok⟩
  obtain ⟨r, hr, hp⟩ := staged
  cases r with
  | error f => exact .inl ⟨f, hr⟩
  | ok p => exact .inr ⟨p, hr, (checkPacket_ok_iff _ _).mp (hp p rfl)⟩

theorem Effect.of_build {i : Instr} {s t : State} (hi : IsBuild i) (h : exec i s = .next t) : Effect i s t := by
  obtain ⟨f, hf⟩ | ⟨p, hp, hw⟩ := exec_build hi s
  · rw [hf] at h; cases h; exact .raised f
  · rw [hp] at h; cases h; exact .staged p hi hw

/-- Every next state of every instruction is of one of the eight kinds. -/
theorem exec_effect {i : Instr} {s t : State} (h : exec i s = .next t) : Effect i s t := by
  cases i with
  | lkReg name => cases h; exact .of_answer _ _
  | lkOp name => cases h; exact .of_answer _ _
  | pkNop => exact .of_build (.inl rfl) h
  | pkW1 o r v => exact .of_build (.inr (.inl ⟨o, r, v, rfl⟩)) h
  | pkT1 o r n l => exact .of_build (.inr (.inr (.inl ⟨o, r, n, l, rfl⟩))) h
  | pkT2 o r n l => exact .of_build (.inr (.inr (.inr ⟨o, r, n, l, rfl⟩))) h
  | sqNew => cases h; exact .freshened [] .unit (.inl rfl) rfl
  | sqAdd =>
    simp only [exec, execSqAdd] at h
    cases hp : s.pkt with
    | none => rw [hp] at h; cases h; exact .raised _
    | some p =>
      rw [hp] at h; simp only [appendPacket_eq_appendAll] at h; cases h
      exact .of_append (.inl rfl) [p] _
  | sqAddAll l => cases h; exact .of_append (.inr (.inl ⟨l, rfl⟩)) l _
  | sqCrcw =>
    simp only [exec, execSqCrcw, appendCrcWrite_eq_appendAll] at h; cases h
    exact .of_append (.inr (.inr (.inl rfl))) _ _
  | csResolve f =>
    simp only [exec, execCsResolve] at h
    cases hS : s.consts.family? f with
    | none => rw [hS] at h; cases h; exact .raised _
    | some S => rw [hS] at h; cases h; exact .resolved f S _ rfl hS
  | csTotal bt =>
    refine Effect.of_family (fun f S t _ _ h => ?_) h
    cases h; exact .of_answer _ _
  | csLocate bt col t =>
    refine Effect.of_family (fun f S t' _ _ h => ?_) h
    cases h
    cases hB : blockTypeOperand S bt with
    | error f => exact .raised f
    | ok B => exact .of_answer (locate B t) _
  | faStart l =>
    refine Effect.of_family (fun f S t hf hS h => ?_) h
    by_cases hl : l.length = S.blockTypes.length
    · rw [if_neg (not_not.mpr hl)] at h; cases h; exact .started l f S _ rfl hf hS hl
    · rw [if_pos hl] at h; cases h; exact .raised _
  | faNext =>
    simp only [exec, execFaNext] at h
    by_cases ha : s.fa.active = false
    · rw [if_pos ha] at h; cases h; exact .raised _
    by_cases hd : s.fa.done = true
    · rw [if_neg ha, if_pos hd] at h; cases h; exact .raised _
    rw [if_neg ha, if_neg hd] at h
    cases hf : s.fam.bind s.consts.family? with
    | none => rw [hf] at h; cases h
    | some S =>
      obtain ⟨f, hfam, hS⟩ := Option.bind_eq_some_iff.mp hf
      simp only [hf, cursorEntry] at h
      cases hB : S.blockTypes[s.fa.bt]? with
      | none => simp only [hB] at h; cases h
      | some B =>
        cases hx : B.subtypes[s.fa.sub]? with
        | none => simp only [hB, hx] at h; cases h
        | some x =>
          cases hn : s.fa.ncols[s.fa.bt]? with
          | none => simp only [hB, hx, hn] at h; cases h
          | some n =>
            simp only [hB, hx, hn] at h; cases h
            exact .advanced f S B x n _ rfl (by simpa using ha) (by simpa using hd) hfam hS hB hx hn
  | gnInit w =>
    refine Effect.of_family (fun f S t _ _ h => ?_) h
    cases h; exact .of_fresh (.inr ⟨w, rfl⟩) _ _
  | gnFdri l =>
    simp only [exec, execGnFdri] at h
    by_cases hl : t2MaxWords < l.length
    · rw [if_pos hl] at h; cases h; exact .raised _
    · rw [if_neg hl] at h; cases h; exact .of_append (.inr (.inr (.inr (.inl ⟨l, rfl⟩)))) _ _
  | gnEnd =>
    refine Effect.of_family (fun f S t _ _ h => ?_) h
    cases h
    obtain ⟨ps, e⟩ := appendEndBlock_eq_appendAll s.consts S.generator s.stream
    rw [e]
    exact .of_append (.inr (.inr (.inr (.inr rfl)))) _ _
  | gnInitp _ => cases h; exact .raised _
  | gnEndp => cases h; exact .raised _
  | t1Nop _ _ _ | t1Read _ _ _ | t1Write _ _ _ | t1Reserved _ _ _ => cases h; exact .reported _
  | t2Nop _ | t2Read _ | t2Write _ | t2Reserved _ => cases h; exact .reported _
  | decHdr _ => cases h; exact .reported _

/-- What a transaction that is no instruction does: it raises or answers. -/
theorem rejectTransaction_cases (e : DecodeError) (s : State) :
    (∃ f, rejectTransaction e s = raise f s) ∨ ∃ v, rejectTransaction e s = succeed v s := by
  cases e with
  | unknownOp code => exact .inl ⟨_, rfl⟩
  | otherHeader htype => exact .inr ⟨_, rfl⟩

/-- The kinds of step: idle, reset, an instruction, a transaction that is none. -/
theorem step_cases {s t : State} (h : step s = .next t) :
    (s.host = [] ∧ t = s) ∨
    (∃ rest, s.host = .reset :: rest ∧ t = resetBlock { s with host := rest }) ∨
    (∃ rest x i, s.host = .transaction x :: rest ∧ decode x = .ok i ∧
      exec i { s with host := rest } = .next t) ∨
    ∃ rest x e, s.host = .transaction x :: rest ∧ decode x = .error e ∧
      t = rejectTransaction e { s with host := rest } := by
  unfold step at h
  split at h
  · cases h; exact .inl ⟨‹_›, rfl⟩
  · cases h; exact .inr (.inl ⟨_, ‹_›, rfl⟩)
  · rename_i x rest hx
    split at h
    · exact .inr (.inr (.inl ⟨rest, x, _, hx, ‹_›, h⟩))
    · cases h; exact .inr (.inr (.inr ⟨rest, x, _, hx, ‹_›, rfl⟩))

end Sys2Proof.Machine
end

