-- ==== Sys2Proof/Laws/Encoding.lean ====
section
/-! SUPPORT. The header words as numbers and their fields, each way: what `t1Word` and `t2Word` are built from is
what the field functions read, and a word is made of its fields. -/

namespace Sys2Proof

theorem toNat_append_eq {m n : Nat} (x : BitVec m) (y : BitVec n) :
    (x ++ y).toNat = x.toNat * 2 ^ n + y.toNat := by
  rw [BitVec.toNat_append, ← Nat.shiftLeft_add_eq_or_of_lt y.isLt, Nat.shiftLeft_eq]

/-- A Type-1 header word as a number (R71). -/
theorem t1Word_toNat (opc : BitVec 2) (reg : BitVec 14) (rsvd : BitVec 2) (wc : BitVec 11) :
    (t1Word opc reg rsvd wc).toNat =
      2 ^ 29 + opc.toNat * 2 ^ 27 + reg.toNat * 2 ^ 13 + rsvd.toNat * 2 ^ 11 + wc.toNat := by
  unfold t1Word
  rw [toNat_append_eq, toNat_append_eq, toNat_append_eq, toNat_append_eq]
  simp only [BitVec.toNat_ofNat]
  omega

/-- A Type-2 header word as a number (R72). -/
theorem t2Word_toNat (opc : BitVec 2) (wc : BitVec 27) :
    (t2Word opc wc).toNat = 2 ^ 30 + opc.toNat * 2 ^ 27 + wc.toNat := by
  unfold t2Word
  rw [toNat_append_eq, toNat_append_eq]
  simp only [BitVec.toNat_ofNat]
  omega

theorem hdrType_toNat (w : Word) : (hdrType w).toNat = w.toNat / 2 ^ 29 := by
  have := w.isLt
  simp only [hdrType, BitVec.extractLsb'_toNat, Nat.shiftRight_eq_div_pow]
  omega

theorem hdrOpc_toNat (w : Word) : (hdrOpc w).toNat = w.toNat / 2 ^ 27 % 2 ^ 2 := by
  simp only [hdrOpc, BitVec.extractLsb'_toNat, Nat.shiftRight_eq_div_pow]

theorem hdrReg_toNat (w : Word) : (hdrReg w).toNat = w.toNat / 2 ^ 13 % 2 ^ 14 := by
  simp only [hdrReg, BitVec.extractLsb'_toNat, Nat.shiftRight_eq_div_pow]

theorem hdrRsvd_toNat (w : Word) : (hdrRsvd w).toNat = w.toNat / 2 ^ 11 % 2 ^ 2 := by
  simp only [hdrRsvd, BitVec.extractLsb'_toNat, Nat.shiftRight_eq_div_pow]

theorem hdrWc1_toNat (w : Word) : (hdrWc1 w).toNat = w.toNat % 2 ^ 11 := by
  simp [hdrWc1, BitVec.extractLsb'_toNat]

theorem hdrWc2_toNat (w : Word) : (hdrWc2 w).toNat = w.toNat % 2 ^ 27 := by
  simp [hdrWc2, BitVec.extractLsb'_toNat]

section Fields

variable (opc : BitVec 2) (reg : BitVec 14) (rsvd : BitVec 2) (wc : BitVec 11) (wc2 : BitVec 27)

@[simp] theorem hdrType_t1Word : hdrType (t1Word opc reg rsvd wc) = 1#3 := by
  apply BitVec.eq_of_toNat_eq
  rw [hdrType_toNat, t1Word_toNat, BitVec.toNat_ofNat]
  omega

@[simp] theorem hdrOpc_t1Word : hdrOpc (t1Word opc reg rsvd wc) = opc := by
  apply BitVec.eq_of_toNat_eq
  rw [hdrOpc_toNat, t1Word_toNat]
  omega

@[simp] theorem hdrReg_t1Word : hdrReg (t1Word opc reg rsvd wc) = reg := by
  apply BitVec.eq_of_toNat_eq
  rw [hdrReg_toNat, t1Word_toNat]
  omega

@[simp] theorem hdrRsvd_t1Word : hdrRsvd (t1Word opc reg rsvd wc) = rsvd := by
  apply BitVec.eq_of_toNat_eq
  rw [hdrRsvd_toNat, t1Word_toNat]
  omega

@[simp] theorem hdrWc1_t1Word : hdrWc1 (t1Word opc reg rsvd wc) = wc := by
  apply BitVec.eq_of_toNat_eq
  rw [hdrWc1_toNat, t1Word_toNat]
  omega

@[simp] theorem hdrType_t2Word : hdrType (t2Word opc wc2) = 2#3 := by
  apply BitVec.eq_of_toNat_eq
  rw [hdrType_toNat, t2Word_toNat, BitVec.toNat_ofNat]
  omega

@[simp] theorem hdrOpc_t2Word : hdrOpc (t2Word opc wc2) = opc := by
  apply BitVec.eq_of_toNat_eq
  rw [hdrOpc_toNat, t2Word_toNat]
  omega

@[simp] theorem hdrWc2_t2Word : hdrWc2 (t2Word opc wc2) = wc2 := by
  apply BitVec.eq_of_toNat_eq
  rw [hdrWc2_toNat, t2Word_toNat]
  omega

end Fields

/-- A word of type 1 is made of its fields (R71). -/
theorem t1Word_of_fields {w : Word} (h : hdrType w = 1#3) :
    t1Word (hdrOpc w) (hdrReg w) (hdrRsvd w) (hdrWc1 w) = w := by
  have ht : w.toNat / 2 ^ 29 = 1 := by rw [← hdrType_toNat, h]; rfl
  apply BitVec.eq_of_toNat_eq
  rw [t1Word_toNat, hdrOpc_toNat, hdrReg_toNat, hdrRsvd_toNat, hdrWc1_toNat]
  omega

/-- A word of type 2 is made of its fields (R72). -/
theorem t2Word_of_fields {w : Word} (h : hdrType w = 2#3) : t2Word (hdrOpc w) (hdrWc2 w) = w := by
  have ht : w.toNat / 2 ^ 29 = 2 := by rw [← hdrType_toNat, h]; rfl
  apply BitVec.eq_of_toNat_eq
  rw [t2Word_toNat, hdrOpc_toNat, hdrWc2_toNat]
  omega

end Sys2Proof
end

