-- ==== Sys2Proof/Laws/PerInstr.lean ====
section
/-! SUPPORT. Statements about every instruction as syntax, one lemma per constructor. -/

namespace Sys2Proof.Laws.RoundTrip

/-- The transaction of an instruction decodes to it and to nothing else (R71, R72, R80). -/
def Statement (i : Instr) : Prop := decode (encode i) = .ok i

theorem t1Nop (reg : BitVec 14) (rsvd : BitVec 2) (wc : BitVec 11) : Statement (.t1Nop reg rsvd wc) := by
  simp [Statement, encode, decode, decodeHeader, t1Instr]

theorem t1Read (reg : BitVec 14) (rsvd : BitVec 2) (wc : BitVec 11) : Statement (.t1Read reg rsvd wc) := by
  simp [Statement, encode, decode, decodeHeader, t1Instr]

theorem t1Write (reg : BitVec 14) (rsvd : BitVec 2) (wc : BitVec 11) : Statement (.t1Write reg rsvd wc) := by
  simp [Statement, encode, decode, decodeHeader, t1Instr]

theorem t1Reserved (reg : BitVec 14) (rsvd : BitVec 2) (wc : BitVec 11) : Statement (.t1Reserved reg rsvd wc) := by
  simp [Statement, encode, decode, decodeHeader, t1Instr]

theorem t2Nop (wc : BitVec 27) : Statement (.t2Nop wc) := by
  simp [Statement, encode, decode, decodeHeader, t2Instr]

theorem t2Read (wc : BitVec 27) : Statement (.t2Read wc) := by
  simp [Statement, encode, decode, decodeHeader, t2Instr]

theorem t2Write (wc : BitVec 27) : Statement (.t2Write wc) := by
  simp [Statement, encode, decode, decodeHeader, t2Instr]

theorem t2Reserved (wc : BitVec 27) : Statement (.t2Reserved wc) := by
  simp [Statement, encode, decode, decodeHeader, t2Instr]

theorem lkReg (name : RegName) : Statement (.lkReg name) := rfl

theorem lkOp (name : String) : Statement (.lkOp name) := rfl

theorem pkNop : Statement (.pkNop) := rfl

theorem pkW1 (opname : String) (regname : RegName) (value : Word) : Statement (.pkW1 opname regname value) := rfl

theorem pkT1 (opname : String) (regname : RegName) (count : Nat) (payload : List Word) : Statement (.pkT1 opname regname count payload) := rfl

theorem pkT2 (opname : String) (regname : RegName) (count : Nat) (payload : List Word) : Statement (.pkT2 opname regname count payload) := rfl

theorem decHdr (w : Word) : Statement (.decHdr w) := rfl

theorem sqNew : Statement (.sqNew) := rfl

theorem sqAdd : Statement (.sqAdd) := rfl

theorem sqAddAll (packets : List Packet) : Statement (.sqAddAll packets) := rfl

theorem sqCrcw : Statement (.sqCrcw) := rfl

theorem csResolve (family : String) : Statement (.csResolve family) := rfl

theorem csTotal (bt : Nat) : Statement (.csTotal bt) := rfl

theorem csLocate (bt col t : Nat) : Statement (.csLocate bt col t) := rfl

theorem faStart (ncols : List Nat) : Statement (.faStart ncols) := rfl

theorem faNext : Statement (.faNext) := rfl

theorem gnInit (idcode : Word) : Statement (.gnInit idcode) := rfl

theorem gnFdri (payload : List Word) : Statement (.gnFdri payload) := rfl

theorem gnEnd : Statement (.gnEnd) := rfl

theorem gnInitp (idcode : Word) : Statement (.gnInitp idcode) := rfl

theorem gnEndp : Statement (.gnEndp) := rfl

end Sys2Proof.Laws.RoundTrip
end

