-- ==== Sys2Proof/Machine/Assembly.lean ====
section
/-! DEFINITION. The textual form of operations and pseudo-operations (spec/30_encoding.md R83, R84): a mnemonic,
then operands separated by commas. A notation only; no operation reads it. -/

namespace Sys2Proof.Machine

/-- A `Word` in hexadecimal with `0x` (R83). -/
def wordText (w : Word) : String := "0x" ++ String.ofList (Nat.toDigits 16 w.toNat)

/-- A `nat` in decimal (R83). -/
def natText (n : Nat) : String := String.ofList (Nat.toDigits 10 n)

/-- Operands separated by commas (R83). -/
def commas : List String → String
  | [] => ""
  | [x] => x
  | x :: y :: xs => x ++ ", " ++ commas (y :: xs)

/-- A list in square brackets (R83). -/
def listText (l : List String) : String := "[" ++ commas l ++ "]"

/-- The name of an opcode (R73, R81). -/
def opcodeText : Opcode → String
  | .nop => "NOP"
  | .read => "READ"
  | .write => "WRITE"
  | .reserved => "RESERVED"

/-- A register operand, or the marker `NONE` (R81). -/
def regText : RegName → String
  | .none => "NONE"
  | .named n => n

/-- A `Packet` literal (R83). -/
def packetText (p : Packet) : String :=
  (match p.htype with | .t1 => "T1(" | .t2 => "T2(") ++
    commas [opcodeText p.opcode, regText p.reg, natText p.count, listText (p.payload.map wordText)] ++ ")"

/-- The line of an operation (R83). The wire-level rows are words, no operations, and have no line. -/
def operationText : Instr → Option String
  | .t1Nop _ _ _ | .t1Read _ _ _ | .t1Write _ _ _ | .t1Reserved _ _ _ => none
  | .t2Nop _ | .t2Read _ | .t2Write _ | .t2Reserved _ => none
  | .lkReg name => some ("LK.REG " ++ regText name)
  | .lkOp name => some ("LK.OP " ++ name)
  | .pkNop => some "PK.NOP"
  | .pkW1 o r v => some ("PK.W1 " ++ commas [o, regText r, wordText v])
  | .pkT1 o r n l => some ("PK.T1 " ++ commas [o, regText r, natText n, listText (l.map wordText)])
  | .pkT2 o r n l => some ("PK.T2 " ++ commas [o, regText r, natText n, listText (l.map wordText)])
  | .decHdr w => some ("DEC.HDR " ++ wordText w)
  | .sqNew => some "SQ.NEW"
  | .sqAdd => some "SQ.ADD"
  | .sqAddAll ps => some ("SQ.ADDALL " ++ listText (ps.map packetText))
  | .sqCrcw => some "SQ.CRCW"
  | .csResolve f => some ("CS.RESOLVE " ++ f)
  | .csTotal bt => some ("CS.TOTAL " ++ natText bt)
  | .csLocate bt col t => some ("CS.LOCATE " ++ commas [natText bt, natText col, natText t])
  | .faStart l => some ("FA.START " ++ listText (l.map natText))
  | .faNext => some "FA.NEXT"
  | .gnInit w => some ("GN.INIT " ++ wordText w)
  | .gnFdri l => some ("GN.FDRI " ++ listText (l.map wordText))
  | .gnEnd => some "GN.END"
  | .gnInitp w => some ("GN.INITP " ++ wordText w)
  | .gnEndp => some "GN.ENDP"

/-- The line of a pseudo-operation (R84). -/
def pseudoText : Pseudo → String
  | .nop n => "EM.NOP " ++ natText n
  | .w1 o r v => "EM.W1 " ++ commas [o, regText r, wordText v]
  | .t1 o r n l => "EM.T1 " ++ commas [o, regText r, natText n, listText (l.map wordText)]
  | .t2 o r n l => "EM.T2 " ++ commas [o, regText r, natText n, listText (l.map wordText)]
  | .hdr0 o r => "EM.HDR0 " ++ commas [o, regText r]
  | .cmd v => "EM.CMD " ++ wordText v

end Sys2Proof.Machine
end

