-- ==== Sys2Proof/Tests/Slice0.lean ====
section
/-! SUPPORT. The model's own tests. Expected values are those of spec/95_test_vectors.md, of the header column of
R78, or hand calculation from the rules; each test names its vector. `witness_` theorems show, for each statement
of Sys2Proof/Certificates/Slice0/Obligations.lean that has hypotheses, operands and a state that meet them. -/

namespace Sys2Proof.Tests

open Sys2Proof.Machine Sys2Proof.Safety

/-! ## Constants and states (spec/95_test_vectors.md section 3, synthetic) -/

def testGen : GenRec where
  nSyncNop    := 2
  wbstarReset := 0#32
  timerReset  := 0#32
  calReg      := "CAL"
  calReset    := 0#32
  corReg      := "COR0"
  corValue    := 0x00003FE5#32
  cmdSwitch   := 9#32
  initMask    := 0x500#32
  initCtlReg  := "CTL0"
  initCtl     := 0x500#32
  nInitPad    := 2
  nEndPad1    := 1
  cmdGrestore := 0xA#32
  nEndPad2    := 1
  cmdStart    := 5#32
  endingFar   := 0x00EF8000#32
  endMask     := 0x500#32
  endCtlReg   := "CTL0"
  endCtl      := 0#32
  cmdDesync   := 0xD#32
  nEndTrail   := 3

def logic : BlockType := ⟨"LOGIC", [⟨"A", 3⟩, ⟨"B", 2⟩, ⟨"OVH", 1⟩]⟩

def bram : BlockType := ⟨"BRAM", [⟨"X", 2⟩, ⟨"Y", 4⟩]⟩

def testFam : ConfigurationSpecification := ⟨"TESTFAM", 4, [logic, bram], 0, 1, testGen⟩

def testConsts : Constants :=
  ⟨Config.opcodeCode, Config.regAddr, .bitSerial, 0#32, some 7#32, [testFam, { testFam with family := "V6" }]⟩

/-- The same with a register name in the generator record that no table holds (V-GN-20). -/
def fooConsts : Constants :=
  { testConsts with familyTable := [{ testFam with generator := { testGen with calReg := "FOO", endCtlReg := "FOO" } }] }

def fresh : State := State.resetOf testConsts

def selected : State := { fresh with fam := some "TESTFAM" }

def cursorAt (bt col sub frm : Nat) : State := { selected with fa := ⟨true, false, [2, 1], bt, col, sub, frm⟩ }

def afterNop : State := { fresh with seq := [nopPacket], acc := 0xCF8C44DE#32, pkt := some nopPacket }

def fdri0 : Packet := ⟨.t1, .write, .named "FDRI", 0, []⟩

def fdriT2 : Packet := ⟨.t2, .write, .named "FDRI", 2, [1#32, 2#32]⟩

def resultOf : Host.Outcome State Fault Refusal → Option ResultPort
  | .next t => some t.result
  | _ => none

def stateOf : Host.Outcome State Fault Refusal → State
  | .next t => t
  | _ => fresh

/-! ## WellFormed refuses ill-formed terms -/

theorem test_wf_packet_count_mismatch : ¬ (⟨.t1, .write, .named "FDRI", 2, [1#32]⟩ : Packet).WellFormed testConsts := by
  decide

theorem test_wf_packet_partial_payload : ¬ (⟨.t1, .read, .named "FDRO", 5, [1#32]⟩ : Packet).WellFormed testConsts := by
  decide

theorem test_wf_packet_t1_overflow : ¬ (⟨.t1, .read, .named "FDRO", 2048, []⟩ : Packet).WellFormed testConsts := by
  decide

theorem test_wf_packet_t2_overflow :
    ¬ (⟨.t2, .read, .named "FDRO", 134217728, []⟩ : Packet).WellFormed testConsts := by decide

theorem test_wf_packet_nop_with_register : ¬ (⟨.t1, .nop, .named "CMD", 0, []⟩ : Packet).WellFormed testConsts := by
  decide

theorem test_wf_packet_unknown_register : ¬ (⟨.t1, .write, .named "FOO", 0, []⟩ : Packet).WellFormed testConsts := by
  decide

theorem test_wf_packet_accepts : fdri0.WellFormed testConsts ∧ fdriT2.WellFormed testConsts := by decide

theorem test_wf_block_types :
    ¬ (⟨"B", []⟩ : BlockType).WellFormed ∧ ¬ (⟨"B", [⟨"X", 0⟩]⟩ : BlockType).WellFormed ∧
    ¬ (⟨"B", [⟨"X", 1⟩, ⟨"X", 2⟩]⟩ : BlockType).WellFormed := by decide

/-- A specification record and a constant set with the given fields, the others as in `testConsts`. -/
def specOf (fw : Nat) (bts : List BlockType) (lbt bbt : Nat) : ConfigurationSpecification :=
  ⟨"TESTFAM", fw, bts, lbt, bbt, testGen⟩

def constsOf (o : OpcodeCode) (regs : List (String × BitVec 14)) (fams : List ConfigurationSpecification) :
    Constants := ⟨o, regs, .bitSerial, 0#32, some 7#32, fams⟩

theorem test_wf_specification :
    ¬ (specOf 0 [logic, bram] 0 1).WellFormed ∧ ¬ (specOf 4 [] 0 0).WellFormed ∧
    ¬ (specOf 4 [logic, ⟨"BRAM", []⟩] 0 1).WellFormed ∧ ¬ (specOf 4 [logic, logic] 0 1).WellFormed ∧
    ¬ (specOf 4 [logic, bram] 2 1).WellFormed ∧ ¬ (specOf 4 [logic, bram] 0 2).WellFormed ∧
    (specOf 4 [logic, bram] 0 1).WellFormed := by
  refine ⟨?_, ?_, ?_, ?_, ?_, ?_, ?_⟩ <;> decide

theorem test_wf_constants :
    ¬ (constsOf Config.opcodeCode [("CMD", 4#14), ("CMD", 5#14)] [testFam]).WellFormed ∧
    ¬ (constsOf Config.opcodeCode [("CMD", 4#14), ("FAR", 4#14)] [testFam]).WellFormed ∧
    ¬ (constsOf ⟨0#2, 1#2, 1#2, 3#2⟩ Config.regAddr [testFam]).WellFormed ∧
    ¬ (constsOf Config.opcodeCode Config.regAddr [specOf 0 [logic] 0 0]).WellFormed ∧
    ¬ (constsOf Config.opcodeCode Config.regAddr [testFam, testFam]).WellFormed ∧ testConsts.WellFormed := by
  refine ⟨?_, ?_, ?_, ?_, ?_, ?_⟩ <;> decide

theorem test_wf_header_words :
    Instr.wellFormed (.t1Nop 1#14 0#2 0#11) = false ∧ Instr.wellFormed (.t1Nop 0#14 1#2 0#11) = false ∧
    Instr.wellFormed (.t1Read 3#14 2#2 0#11) = false ∧ Instr.wellFormed (.t1Write 4#14 3#2 1#11) = false ∧
    Instr.wellFormed (.t1Reserved 4#14 1#2 0#11) = false ∧ Instr.wellFormed (.t2Nop 0#27) = false ∧
    Instr.wellFormed (.t1Write 4#14 0#2 1#11) = true := by decide

/-! ## Decoding: words written out bit by bit from R71 and R72, codes from R80 -/

/-- V-ENC-1 a and h, V-ENC-2 d and g; type, opcode, address, reserved, count. -/
theorem test_decode_type1 :
    decode (.headerWord 0b001_00_00000000000000_00_00000000000#32) = .ok (.t1Nop 0#14 0#2 0#11) ∧
    decode (.headerWord 0b001_01_00000000000011_00_00000000101#32) = .ok (.t1Read 3#14 0#2 5#11) ∧
    decode (.headerWord 0b001_10_00000000000100_11_00000000001#32) = .ok (.t1Write 4#14 3#2 1#11) ∧
    decode (.headerWord 0b001_11_11111111111111_00_11111111111#32) = .ok (.t1Reserved 16383#14 0#2 2047#11) := by
  decide

/-- V-ENC-1 o, p and q, and a Type-2 NOP, which only the decoder meets. -/
theorem test_decode_type2 :
    decode (.headerWord 0b010_00_000000000000000000000000011#32) = .ok (.t2Nop 3#27) ∧
    decode (.headerWord 0b010_01_000000000000000000000000101#32) = .ok (.t2Read 5#27) ∧
    decode (.headerWord 0b010_10_111111111111111111111111111#32) = .ok (.t2Write 134217727#27) ∧
    decode (.headerWord 0b010_11_000000000000000000000000001#32) = .ok (.t2Reserved 1#27) := by decide

/-- V-ENC-2 i to l: the types that are no packet are refused by name. -/
theorem test_decode_other_types :
    decode (.headerWord 0x00000000#32) = .error (.otherHeader 0#3) ∧
    decode (.headerWord 0x60000000#32) = .error (.otherHeader 3#3) ∧
    decode (.headerWord 0x9FFFFFFF#32) = .error (.otherHeader 4#3) ∧
    decode (.headerWord 0xAA995566#32) = .error (.otherHeader 5#3) ∧
    decode (.headerWord 0xC0000000#32) = .error (.otherHeader 6#3) ∧
    decode (.headerWord 0xFFFFFFFF#32) = .error (.otherHeader 7#3) := by decide

/-- The code column of R80, by the table's bits. -/
theorem test_decode_lookup_and_build_codes :
    decodeTableWord 8 0b00000001 = some (.lkReg .none) ∧ decodeTableWord 8 0b00000010 = some (.lkOp "") ∧
    decodeTableWord 8 0b00010000 = some .pkNop ∧ decodeTableWord 8 0b00010001 = some (.pkW1 "" .none 0#32) ∧
    decodeTableWord 8 0b00010010 = some (.pkT1 "" .none 0 []) ∧
    decodeTableWord 8 0b00010011 = some (.pkT2 "" .none 0 []) ∧ decodeTableWord 8 0b00010100 = some (.decHdr 0#32) := by
  decide

theorem test_decode_sequence_and_family_codes :
    decodeTableWord 8 0b00100000 = some .sqNew ∧ decodeTableWord 8 0b00100001 = some .sqAdd ∧
    decodeTableWord 8 0b00100010 = some (.sqAddAll []) ∧ decodeTableWord 8 0b00100011 = some .sqCrcw ∧
    decodeTableWord 8 0b00110000 = some (.csResolve "") ∧ decodeTableWord 8 0b00110001 = some (.csTotal 0) ∧
    decodeTableWord 8 0b00110010 = some (.csLocate 0 0 0) ∧ decodeTableWord 8 0b00110011 = some (.faStart []) ∧
    decodeTableWord 8 0b00110100 = some .faNext := by decide

theorem test_decode_generator_codes :
    decodeTableWord 8 0b01000000 = some (.gnInit 0#32) ∧ decodeTableWord 8 0b01000001 = some (.gnFdri []) ∧
    decodeTableWord 8 0b01000010 = some .gnEnd ∧ decodeTableWord 8 0b01000011 = some (.gnInitp 0#32) ∧
    decodeTableWord 8 0b01000100 = some .gnEndp ∧ decodeTableWord 8 0x15 = none ∧
    decodeTableWord 32 0x30008001 = some (.t1Write 4#14 0#2 1#11) := by decide

/-- An operation reads the operands of its own row (R80). -/
theorem test_decode_operands :
    decode (.operation 0x32#8 { nat0 := 1, nat1 := 7, nat2 := 4 }) = .ok (.csLocate 1 7 4) ∧
    decode (.operation 0x12#8 { symbol := "WRITE", reg := .named "FDRI", nat0 := 1, words := [9#32] }) =
      .ok (.pkT1 "WRITE" (.named "FDRI") 1 [9#32]) := by decide

/-! ## One step each -/

/-- `step` takes the presented transaction, and `withFetchWord` presents one (V-FL-2 for the unknown code). -/
theorem test_step_fetch :
    resultOf (step (State.reset.withFetchWord 8 0x21)) = some (.fault 8#8 1#32) ∧
    resultOf (step (State.reset.withFetchWord 8 0x15)) = some (.fault 8#8 0x1506#32) ∧
    resultOf (step (State.reset.withFetchWord 32 0x30008001)) =
      some (.ok (.header (.t1 .write 4#14 0#2 1#11) (some (.named "CMD")))) := by decide

/-- V-ENC-2 a, c, d and g. -/
theorem test_type1_rows :
    resultOf (exec (.t1Nop 0#14 0#2 0#11) fresh) =
      some (.ok (.header (.t1 .nop 0#14 0#2 0#11) (some (.named "CRC")))) ∧
    resultOf (exec (.t1Read 3#14 0#2 5#11) fresh) =
      some (.ok (.header (.t1 .read 3#14 0#2 5#11) (some (.named "FDRO")))) ∧
    resultOf (exec (.t1Write 4#14 3#2 1#11) fresh) =
      some (.ok (.header (.t1 .write 4#14 3#2 1#11) (some (.named "CMD")))) ∧
    resultOf (exec (.t1Reserved 16383#14 0#2 2047#11) fresh) =
      some (.ok (.header (.t1 .reserved 16383#14 0#2 2047#11) (some .none))) := by decide

/-- V-ENC-1 n, p and q read back (V-ENC-3), and a Type-2 NOP (R75). -/
theorem test_type2_rows :
    resultOf (exec (.t2Nop 3#27) fresh) = some (.ok (.header (.t2 .nop 3#27) none)) ∧
    resultOf (exec (.t2Read 5#27) fresh) = some (.ok (.header (.t2 .read 5#27) none)) ∧
    resultOf (exec (.t2Write 1024#27) fresh) = some (.ok (.header (.t2 .write 1024#27) none)) ∧
    resultOf (exec (.t2Reserved 1#27) fresh) = some (.ok (.header (.t2 .reserved 1#27) none)) := by decide

/-- V-LK-2, V-LK-4, V-LK-5. -/
theorem test_lk_reg :
    resultOf (exec (.lkReg (.named "CTL1")) fresh) = some (.ok (.addr 24#14)) ∧
    resultOf (exec (.lkReg (.named "cmd")) fresh) = some (.fault 1#8 0#32) ∧
    resultOf (exec (.lkReg .none) fresh) = some (.fault 1#8 0#32) := by decide

/-- V-LK-9, V-LK-11. -/
theorem test_lk_op :
    resultOf (exec (.lkOp "RESERVED") fresh) = some (.ok (.opc 3#2)) ∧
    resultOf (exec (.lkOp "write") fresh) = some (.fault 2#8 0#32) := by decide

/-- V-PK-1. -/
theorem test_pk_nop : ((stateOf (exec .pkNop fresh)).pkt.map (words testConsts)) = some [0x20000000#32] := by decide

/-- V-PK-3, V-PK-7, V-PK-8, V-PK-9. -/
theorem test_pk_w1 :
    (stateOf (exec (.pkW1 "READ" (.named "STAT") 0#32) fresh)).pkt.map (words testConsts) =
      some [0x2800E001#32, 0#32] ∧
    resultOf (exec (.pkW1 "ERASE" (.named "FOO") 7#32) fresh) = some (.fault 2#8 0#32) ∧
    resultOf (exec (.pkW1 "NOP" (.named "CMD") 7#32) fresh) = some (.fault 4#8 2#32) ∧
    resultOf (exec (.pkW1 "NOP" .none 7#32) fresh) = some (.fault 1#8 0#32) := by decide

/-- V-PK-11, V-PK-15, V-PK-20, V-PK-22. -/
theorem test_pk_t1 :
    (stateOf (exec (.pkT1 "WRITE" (.named "FDRI") 2 [0xAAAAAAAA#32, 0x55555555#32]) fresh)).pkt.map
      (words testConsts) = some [0x30004002#32, 0xAAAAAAAA#32, 0x55555555#32] ∧
    resultOf (exec (.pkT1 "WRITE" (.named "FDRI") 3000 []) fresh) = some (.fault 3#8 0xBB8#32) ∧
    resultOf (exec (.pkT1 "READ" (.named "FDRO") 5 [1#32, 2#32]) fresh) = some (.fault 4#8 1#32) ∧
    (stateOf (exec (.pkT1 "NOP" .none 3 []) fresh)).pkt.map (words testConsts) = some [0x20000003#32] := by decide

/-- V-PK-14: overflow before mismatch, and the larger length is reported. -/
theorem test_pk_t1_overflow_first :
    resultOf (exec (.pkT1 "WRITE" (.named "FDRI") 5 (List.replicate 3000 0#32)) fresh) =
      some (.fault 3#8 0xBB8#32) := by decide +kernel

/-- V-PK-27, V-PK-30, V-PK-31, V-PK-34. -/
theorem test_pk_t2 :
    (stateOf (exec (.pkT2 "WRITE" (.named "FDRI") 3 [1#32, 2#32, 3#32]) fresh)).pkt.map (words testConsts) =
      some [0x50000003#32, 1#32, 2#32, 3#32] ∧
    resultOf (exec (.pkT2 "WRITE" (.named "FDRI") 2 [1#32]) fresh) = some (.fault 4#8 1#32) ∧
    resultOf (exec (.pkT2 "WRITE" (.named "FDRI") 134217728 []) fresh) = some (.fault 3#8 0x8000000#32) ∧
    resultOf (exec (.pkT2 "NOP" (.named "FOO") 0 []) fresh) = some (.fault 4#8 2#32) := by decide

/-- V-ENC-2 e, h and k. -/
theorem test_dec_hdr :
    resultOf (exec (.decHdr 0x30027001#32) fresh) =
      some (.ok (.header (.t1 .write 19#14 2#2 1#11) (some (.named "CAL")))) ∧
    resultOf (exec (.decHdr 0x50000400#32) fresh) = some (.ok (.header (.t2 .write 1024#27) none)) ∧
    resultOf (exec (.decHdr 0xAA995566#32) fresh) = some (.ok (.header (.other 5#3) none)) := by decide

/-- V-CRC-2, V-CRC-4, V-CRC-6, V-CRC-11 and V-CRC-11b. -/
theorem test_crc_step :
    crcStep .bitSerial 0#32 1#32 = 0x1EDC6F41#32 ∧ crcStep .bitSerial 0#32 0x20000000#32 = 0xCF8C44DE#32 ∧
    crcStep .bitSerial 0x12345678#32 0x9ABCDEF0#32 = 0xD79B09F4#32 ∧
    fold .bitSerial 0#32 [1#32, 2#32, 3#32, 4#32] = 0x9D472C0D#32 ∧
    fold .bitSerial 0#32 [4#32, 3#32, 2#32, 1#32] = 0x6CEAC423#32 := by decide +kernel

/-- V-CRC-14 and V-CRC-15: which words reset the accumulator, and when. -/
theorem test_crc_reset :
    absorb testConsts 0#32 ⟨.t1, .write, .named "FDRI", 1, [7#32]⟩ = 0x4CDA1CAC#32 ∧
    absorb testConsts 0#32 ⟨.t1, .read, .named "CMD", 1, [7#32]⟩ = 0x61B993E3#32 ∧
    absorb testConsts 0#32 ⟨.t1, .write, .named "CMD", 1, [9#32]⟩ = 0xA723380E#32 ∧
    absorb testConsts 0#32 ⟨.t1, .write, .named "CMD", 3, [1#32, 7#32, 2#32]⟩ = 0x3DB8DE82#32 := by decide +kernel

/-- V-SQ-17. -/
theorem test_sq_new :
    (stateOf (exec .sqNew afterNop)).seq = [] ∧ (stateOf (exec .sqNew afterNop)).acc = 0#32 ∧
    (stateOf (exec .sqNew afterNop)).pkt = some nopPacket := by decide

/-- V-SQ-3, V-SQ-1, V-SQ-5. -/
theorem test_sq_add :
    resultOf (exec .sqAdd afterNop) = some (.ok (.acc 0x79CDFC5A#32)) ∧
    resultOf (exec .sqAdd fresh) = some (.fault 8#8 1#32) ∧
    resultOf (exec .sqAdd { fresh with pkt := some fdriT2 }) = some (.fault 4#8 3#32) := by decide +kernel

/-- V-SQ-10, V-SQ-11 and V-SQ-8a as a list. -/
theorem test_sq_addall :
    resultOf (exec (.sqAddAll [fdri0, fdriT2]) fresh) = some (.ok (.acc 0x3CE5AEAF#32)) ∧
    stateOf (exec (.sqAddAll [⟨.t1, .write, .named "CMD", 1, [5#32]⟩, ⟨.t1, .write, .named "CMD", 2, [5#32]⟩])
      afterNop) = { afterNop with lasterr := 4#8, lastinfo := 1#32, result := .fault 4#8 1#32 } ∧
    resultOf (exec (.sqAddAll [⟨.t1, .write, .named "FAR", 0, []⟩, fdriT2]) fresh) = some (.fault 4#8 3#32) := by
  decide +kernel

/-- V-CRC-7 and V-SQ-4. -/
theorem test_sq_crcw :
    (stateOf (exec .sqCrcw afterNop)).words = [0x20000000#32, 0x30000001#32, 0xCF8C44DE#32] ∧
    (stateOf (exec .sqCrcw afterNop)).acc = 0x62817A97#32 ∧
    resultOf (exec .sqCrcw fresh) = some (.ok (.acc 0xD7CA21B0#32)) := by decide +kernel

/-- The byte order of R54 on one word. -/
theorem test_bytes : byteStream [0x30008001#32] = [0x30#8, 0x00#8, 0x80#8, 0x01#8] := by decide

/-- V-CS-3, V-CS-2. -/
theorem test_cs_resolve :
    resultOf (exec (.csResolve "TESTFAM") fresh) = some (.ok (.spec 4 ["LOGIC", "BRAM"] 0 1)) ∧
    (stateOf (exec (.csResolve "TESTFAM") (cursorAt 0 1 2 0))).fa = Cursor.cleared ∧
    resultOf (exec (.csResolve "V9") fresh) = some (.fault 5#8 0#32) := by decide

/-- V-CS-4, V-CS-1. -/
theorem test_cs_total :
    resultOf (exec (.csTotal 1) selected) = some (.ok (.frames 6)) ∧
    resultOf (exec (.csTotal 2) selected) = some (.fault 8#8 3#32) ∧
    resultOf (exec (.csTotal 0) fresh) = some (.fault 8#8 2#32) := by decide

/-- V-CS-6 at t = 2, 3 and 6, V-CS-7 at t = 5. -/
theorem test_cs_locate :
    resultOf (exec (.csLocate 0 7 2) selected) = some (.ok (.frameAddr ⟨0, 7, 0, 0, 2⟩)) ∧
    resultOf (exec (.csLocate 0 7 3) selected) = some (.ok (.frameAddr ⟨0, 7, 1, 3, 0⟩)) ∧
    resultOf (exec (.csLocate 0 7 6) selected) = some (.fault 7#8 6#32) ∧
    resultOf (exec (.csLocate 1 0 5) selected) = some (.ok (.frameAddr ⟨1, 0, 1, 2, 3⟩)) := by decide

/-- V-FA-2, V-FA-3, V-FA-4 and the count of V-FA-5. -/
theorem test_fa_start :
    resultOf (exec (.faStart [2]) selected) = some (.fault 8#8 3#32) ∧
    (stateOf (exec (.faStart [0, 0]) selected)).fa = ⟨true, true, [0, 0], 0, 0, 0, 0⟩ ∧
    (stateOf (exec (.faStart [0, 1]) selected)).fa = ⟨true, false, [0, 1], 1, 0, 0, 0⟩ ∧
    resultOf (exec (.faStart [2, 1]) selected) = some (.ok (.frames 18)) := by decide

/-- V-FA-5 at k = 11 (into the next block type) and k = 17 (the last), V-FA-1. -/
theorem test_fa_next :
    resultOf (exec .faNext (cursorAt 0 1 2 0)) = some (.ok (.frameAddrLast ⟨0, 1, 2, 5, 0⟩ false)) ∧
    (stateOf (exec .faNext (cursorAt 0 1 2 0))).fa = ⟨true, false, [2, 1], 1, 0, 0, 0⟩ ∧
    resultOf (exec .faNext (cursorAt 1 0 1 3)) = some (.ok (.frameAddrLast ⟨1, 0, 1, 2, 3⟩ true)) ∧
    (stateOf (exec .faNext (cursorAt 1 0 1 3))).fa = ⟨true, true, [2, 1], 1, 0, 1, 3⟩ ∧
    resultOf (exec .faNext selected) = some (.fault 8#8 4#32) := by decide

/-- V-GN-10: the 20 words of the initial block, and V-GN-11. -/
theorem test_gn_init :
    wordStream testConsts (initBlock testGen 0x04250093#32) =
      [0x20000000#32, 0x20000000#32, 0x30020001#32, 0#32, 0x30022001#32, 0#32, 0x30026001#32, 0#32, 0x30012001#32,
       0x00003FE5#32] ++
      [0x30018001#32, 0x04250093#32, 0x30008001#32, 9#32, 0x3000C001#32, 0x500#32, 0x3000A001#32, 0x500#32,
       0x20000000#32, 0x20000000#32] ∧
    resultOf (exec (.gnInit 0x12345678#32) fresh) = some (.fault 8#8 2#32) := by decide

/-- V-GN-10: those words fold to 0x178E39B4 (in four pieces; the spec gives the last value). -/
theorem test_gn_init_checksum :
    fold .bitSerial 0#32 [0x20000000#32, 0x20000000#32, 0x30020001#32, 0#32, 0x30022001#32] = 0x1EDFE8C0#32 ∧
    fold .bitSerial 0x1EDFE8C0#32 [0#32, 0x30026001#32, 0#32, 0x30012001#32, 0x00003FE5#32] = 0x3D517D4F#32 ∧
    fold .bitSerial 0x3D517D4F#32 [0x30018001#32, 0x04250093#32, 0x30008001#32, 9#32, 0x3000C001#32] =
      0x3765EDE4#32 ∧
    fold .bitSerial 0x3765EDE4#32 [0x500#32, 0x3000A001#32, 0x500#32, 0x20000000#32, 0x20000000#32] =
      0x178E39B4#32 := by decide +kernel

/-- V-GN-20: the old sequence is kept. -/
theorem test_gn_init_unknown_register :
    stateOf (exec (.gnInit 1#32) { afterNop with fam := some "TESTFAM", consts := fooConsts }) =
      { afterNop with
        fam := some "TESTFAM", consts := fooConsts, lasterr := 1#8, lastinfo := 0#32,
        result := .fault 1#8 0#32 } := by decide +kernel

/-- V-GN-1 and the two-word example of R174. -/
theorem test_gn_fdri :
    resultOf (exec (.gnFdri []) fresh) = some (.ok (.accNpkt 0xDF46C455#32 1)) ∧
    (stateOf (exec (.gnFdri [0x11111111#32, 0x22222222#32]) fresh)).words =
      [0x30004002#32, 0x11111111#32, 0x22222222#32] := by decide +kernel

/-- The threshold of R174: packet counts at 1023 and 1024 words (V-GN-4, V-GN-5). -/
theorem test_gn_fdri_threshold :
    (fdriBlock (List.replicate 1023 0#32)).map (header testConsts) = [0x300043FF#32] ∧
    (fdriBlock (List.replicate 1024 0#32)).map (header testConsts) = [0x30004000#32, 0x50000400#32] := by
  decide +kernel

/-- V-GN-14: the words of the ending block around its two commits, and V-GN-12. -/
theorem test_gn_end :
    wordStream testConsts (endBlockMiddle testGen) =
      [0x20000000#32, 0x30008001#32, 0x0000000A#32, 0x20000000#32, 0x30008001#32, 0x00000005#32, 0x30002001#32,
       0x00EF8000#32, 0x3000C001#32, 0x00000500#32, 0x3000A001#32, 0x00000000#32] ∧
    wordStream testConsts (endBlockTail testGen) =
      [0x30008001#32, 0x0000000D#32, 0x20000000#32, 0x20000000#32, 0x20000000#32] ∧
    resultOf (exec .gnEnd fresh) = some (.fault 8#8 2#32) := by decide

/-- V-GN-14: the second commit embeds 0x0E678D58 and the block ends at 0xB178B0CC (in pieces; the spec gives these
two values). -/
theorem test_gn_end_checksum :
    fold .bitSerial 0#32 [0x30000001#32, 0#32, 0x20000000#32, 0x30008001#32, 0x0000000A#32] = 0xCF8535B6#32 ∧
    fold .bitSerial 0xCF8535B6#32 [0x20000000#32, 0x30008001#32, 5#32, 0x30002001#32, 0x00EF8000#32] =
      0x5790CE79#32 ∧
    fold .bitSerial 0x5790CE79#32 [0x3000C001#32, 0x00000500#32, 0x3000A001#32, 0#32] = 0x0E678D58#32 ∧
    fold .bitSerial 0x0E678D58#32 [0x30000001#32, 0x0E678D58#32, 0x30008001#32, 0xD#32] = 0x3B4AD9C1#32 ∧
    fold .bitSerial 0x3B4AD9C1#32 [0x20000000#32, 0x20000000#32, 0x20000000#32] = 0xB178B0CC#32 := by
  decide +kernel

/-- V-GN-16, V-GN-17. -/
theorem test_gn_partial :
    resultOf (exec (.gnInitp 0x12345678#32) afterNop) = some (.fault 6#8 0x43#32) ∧
    (stateOf (exec (.gnInitp 0x12345678#32) afterNop)).seq = [nopPacket] ∧
    resultOf (exec .gnEndp afterNop) = some (.fault 6#8 0x44#32) := by decide

/-- V-RST-1: reset from a state with everything set. -/
theorem test_reset_event :
    stateOf (step { cursorAt 0 1 2 0 with
      host := [.reset], seq := [nopPacket], acc := 5#32, pkt := some nopPacket, lasterr := 6#8,
      lastinfo := 0x43#32 }) = fresh := by decide

/-- R84: `EM.CMD` of the reset command ends at the accumulator's initial value (V-CRC-13). -/
theorem test_pseudo_cmd : (stateOf (runPseudo (.cmd 7#32) afterNop)).acc = 0#32 := by decide +kernel

/-- R83: a line of program P1, and a list of packet literals. -/
theorem test_text :
    operationText (.pkT1 "WRITE" (.named "FDRI") 2 [0xAAAAAAAA#32, 0x55555555#32]) =
      some "PK.T1 WRITE, FDRI, 2, [0xaaaaaaaa, 0x55555555]" ∧
    operationText (.sqAddAll [nopPacket]) = some "SQ.ADDALL [T1(NOP, NONE, 0, [])]" := by decide

/-- U1: the reader gives the packets of V-SQ-6 back. -/
theorem test_wire_reader :
    readWordStream testConsts [0x30004000#32, 0x50000002#32, 1#32, 2#32] = .ok [fdri0, fdriT2] := by decide

/-! ## Witnesses: operands and states that meet the hypotheses of each statement -/

theorem witness_HeaderWordsDecodeExactly :
    decode (.headerWord 0x3FFFFFFF#32) = .ok (.t1Reserved 0x3FFF#14 3#2 2047#11) ∧
    decode (.headerWord 0x5FFFFFFF#32) = .ok (.t2Reserved 134217727#27) := by decide

/-- Both header types at their largest count. -/
theorem witness_HeaderAsNumber_DecHdrInvertsHeader :
    testConsts.WellFormed ∧ (⟨.t1, .read, .named "FDRO", 2047, []⟩ : Packet).WellFormed testConsts ∧
    (⟨.t2, .read, .named "FDRO", 134217727, []⟩ : Packet).WellFormed testConsts := by
  refine ⟨?_, ?_, ?_⟩ <;> decide

theorem paired_header_then_type2 : Paired [nopPacket, fdri0, fdriT2] := by
  intro i p hp h2
  match i, hp with
  | 0, hp => cases hp; cases h2
  | 1, hp => cases hp; cases h2
  | 2, hp => cases hp; exact ⟨by omega, fdri0, rfl, rfl, rfl, rfl⟩

theorem witness_WordStreamCutsBackIntoItsPackets :
    testConsts.WellFormed ∧ Paired [nopPacket, fdri0, fdriT2] ∧
    ∀ p ∈ [nopPacket, fdri0, fdriT2], p.WellFormed testConsts ∧ ¬ (p.htype = .t2 ∧ p.opcode = .nop) ∧
      (p.opcode ≠ .write → p.payload = []) :=
  ⟨by decide, paired_header_then_type2, by decide⟩

/-- A presented instruction, an unknown code, a word that is no packet, and a reset. -/
theorem witness_steps :
    decode (.operation 0x10#8 {}) = .ok .pkNop ∧
    { fresh with host := [.transaction (.operation 0x10#8 {}), .reset] }.host =
      .transaction (.operation 0x10#8 {}) :: [.reset] ∧
    0x15#8 ∉ [0x01#8, 0x02#8, 0x10#8, 0x11#8, 0x12#8, 0x13#8, 0x14#8, 0x20#8, 0x21#8, 0x22#8, 0x23#8, 0x30#8,
      0x31#8, 0x32#8, 0x33#8, 0x34#8, 0x40#8, 0x41#8, 0x42#8, 0x43#8, 0x44#8] ∧
    { fresh with host := [.transaction (.operation 0x15#8 {})] }.host = [.transaction (.operation 0x15#8 {})] ∧
    (0x60000000#32 : Word).toNat / 2 ^ 29 = 3 ∧
    { fresh with host := [.transaction (.headerWord 0x60000000#32)] }.host =
      [.transaction (.headerWord 0x60000000#32)] ∧
    { fresh with host := [.reset] }.host = [.reset] := by decide

/-- A next state by success, a next state by fault, and a step that has one. -/
theorem witness_next_states :
    exec (.csTotal 0) selected = .next { selected with result := .ok (.frames 6) } ∧
    exec (.csTotal 9) selected =
      .next { selected with lasterr := 8#8, lastinfo := 3#32, result := .fault 8#8 3#32 } ∧
    step { fresh with host := [.reset] } = .next fresh := ⟨rfl, rfl, rfl⟩

/-- A state that meets the invariant, with a sequence, a staged packet, a family and a cursor under way. -/
theorem witness_StepKeepsTheInvariant_StepAlwaysHasANextState :
    Inv { cursorAt 0 1 2 0 with
      seq := [nopPacket], acc := crcStep .bitSerial 0#32 0x20000000#32, pkt := some fdriT2 } ∧
    testConsts.WellFormed := by
  refine ⟨⟨?_, by decide +kernel, ?_, ?_, ?_, ?_⟩, by decide⟩
  · intro i p hp h2
    match i, hp with
    | 0, hp => cases hp; cases h2
  · intro p hp
    cases List.mem_singleton.mp hp
    simp [nopPacket, Packet.WellFormed]
  · intro p hp
    cases hp
    exact ⟨by decide, by decide⟩
  · intro f hf; cases hf; rfl
  · intro _ _
    refine ⟨"TESTFAM", testFam, rfl, rfl, rfl, fun _ => ⟨logic, ⟨"OVH", 1⟩, 2, rfl, rfl, rfl, ?_, ?_⟩⟩ <;> decide

/-- The two stops of the model, in states no run reaches. -/
theorem witness_StopsOnlyOutsideTheTable :
    exec (.csTotal 0) { fresh with fam := some "V9" } = .fault .familyUnbound ∧
    exec .faNext { fresh with fa := ⟨true, false, [2, 1], 0, 0, 0, 0⟩ } = .fault .familyUnbound ∧
    exec .faNext (cursorAt 2 0 0 0) = .fault .cursorOutsideTable := ⟨rfl, rfl, rfl⟩

/-- Each of the elements is written by some operation. -/
theorem witness_OnlyTheListedOperationsWrite_AppendIsTheOnlyMutator :
    (stateOf (exec (.csResolve "TESTFAM") fresh)).fam ≠ fresh.fam ∧ (stateOf (exec .pkNop fresh)).pkt ≠ fresh.pkt ∧
    (stateOf (exec (.faStart [2, 1]) selected)).fa ≠ selected.fa ∧
    (stateOf (exec .sqAdd { fresh with pkt := some nopPacket })).seq ≠ fresh.seq := by decide

theorem witness_FrameAddressUnitIsIsolated :
    exec .faNext (cursorAt 0 0 0 0) = .next { cursorAt 0 0 0 1 with
      result := .ok (.frameAddrLast ⟨0, 0, 0, 0, 0⟩ false) } := rfl

theorem witness_LookupRegister :
    fresh.consts.WellFormed ∧ ("CTL1", 24#14) ∈ fresh.consts.regAddr ∧ ∀ a, ("FOO", a) ∉ fresh.consts.regAddr := by
  refine ⟨?_, ?_, ?_⟩
  · decide
  · decide
  · simp [fresh, testConsts, State.resetOf, Config.regAddr]

theorem witness_LookupOpcode :
    ("RESERVED", Opcode.reserved) ∈ [("NOP", Opcode.nop), ("READ", .read), ("WRITE", .write),
      ("RESERVED", .reserved)] ∧ "write" ∉ ["NOP", "READ", "WRITE", "RESERVED"] := by decide

theorem witness_LookupsAreInjective :
    testConsts.WellFormed ∧ testConsts.addrOf? (.named "CRC") = some 0#14 := by
  refine ⟨?_, ?_⟩ <;> decide

theorem witness_BuildNop : fresh.consts.opcodeCode.nop = 0#2 := rfl

theorem witness_BuildOneWordPacket :
    "ERASE" ∉ ["NOP", "READ", "WRITE", "RESERVED"] ∧ "NOP" ∈ ["NOP", "READ", "WRITE", "RESERVED"] ∧
    ¬ fresh.consts.IsRegister .none ∧ ¬ fresh.consts.IsRegister (.named "FOO") ∧
    fresh.consts.IsRegister (.named "CMD") ∧
    ("READ", Opcode.read) ∈ [("READ", Opcode.read), ("WRITE", .write), ("RESERVED", .reserved)] := by decide

/-- The names, registers and counts of each clause, the counts at the edge of the 11-bit field. -/
theorem witness_BuildType1Packet :
    "ERASE" ∉ ["NOP", "READ", "WRITE", "RESERVED"] ∧
    ("NOP", Opcode.nop) ∈ [("NOP", Opcode.nop), ("READ", .read), ("WRITE", .write), ("RESERVED", .reserved)] ∧
    ("WRITE", Opcode.write) ∈ [("NOP", Opcode.nop), ("READ", .read), ("WRITE", .write),
      ("RESERVED", .reserved)] ∧
    RegName.named "CMD" ≠ .none ∧ ¬ fresh.consts.IsRegister (.named "FOO") ∧
    fresh.consts.IsRegister (.named "FDRI") ∧ 2047 < max 2048 ([] : List Word).length ∧
    max 2047 ([] : List Word).length ≤ 2047 ∧ ([1#32] : List Word).length ≠ 2047 ∧ ([1#32] : List Word) ≠ [] ∧
    (List.replicate 2047 0#32).length = 2047 := by
  refine ⟨?_, ?_, ?_, ?_, ?_, ?_, ?_, ?_, ?_, ?_, List.length_replicate⟩ <;> decide

/-- The same for the 27-bit field. -/
theorem witness_BuildType2Packet :
    "ERASE" ∉ ["NOP", "READ", "WRITE", "RESERVED"] ∧
    ("WRITE", Opcode.write) ∈ [("READ", Opcode.read), ("WRITE", .write), ("RESERVED", .reserved)] ∧
    ¬ fresh.consts.IsRegister (.named "FOO") ∧ fresh.consts.IsRegister (.named "FDRI") ∧
    134217727 < max 134217728 ([] : List Word).length ∧ max 134217727 ([] : List Word).length ≤ 134217727 ∧
    ([1#32] : List Word).length ≠ 134217727 ∧ ([1#32] : List Word) ≠ [] := by
  refine ⟨?_, ?_, ?_, ?_, ?_, ?_, ?_, ?_⟩ <;> decide

theorem witness_StagedPacketsAreWellFormed :
    exec .pkNop fresh = .next { fresh with pkt := some nopPacket, result := .ok .unit } ∧
    fresh.pkt ≠ some nopPacket := ⟨rfl, by decide⟩

theorem witness_DecodeHeaderOperation_roundTrip :
    fresh.consts.WellFormed ∧ ("BOOTSTS", 22#14) ∈ fresh.consts.regAddr := by
  refine ⟨?_, ?_⟩ <;> decide

/-- A word of each type, at the edges of types 1 and 2. -/
theorem witness_DecodeHeaderOperation :
    (0x20000000#32 : Word).toNat / 2 ^ 29 = 1 ∧ (0x3FFFFFFF#32 : Word).toNat / 2 ^ 29 = 1 ∧ (0x40000000#32 : Word).toNat / 2 ^ 29 = 2 ∧
    (0x5FFFFFFF#32 : Word).toNat / 2 ^ 29 = 2 ∧ (0x1FFFFFFF#32 : Word).toNat / 2 ^ 29 = 0 ∧ (0x60000000#32 : Word).toNat / 2 ^ 29 = 3 ∧
    fresh.consts.regOfAddr 0#14 = .named "CRC" ∧ fresh.consts.regOfAddr 31#14 = .none := by decide

theorem witness_HeaderWordRowsShowTheirFields : ∃ t1 t2 : Opcode → State,
    (∀ o, t1 o = { fresh with
      lasterr := 0#8, lastinfo := 0#32,
      result := .ok (.header (.t1 o 4#14 3#2 1#11) (some (fresh.consts.regOfAddr 4#14))) }) ∧
    (∀ o, t2 o = { fresh with lasterr := 0#8, lastinfo := 0#32, result := .ok (.header (.t2 o 5#27) none) }) ∧
    fresh.consts.opcodeCode = ⟨0#2, 1#2, 2#2, 3#2⟩ := ⟨_, _, fun _ => rfl, fun _ => rfl, rfl⟩

/-- A payload without the reset command, and one with it before its last word. -/
theorem witness_AbsorbFoldsHeaderThenPayload :
    (∀ w ∈ [9#32], ¬ (testConsts.crcResetCmd = some w ∧ Opcode.write = .write ∧ RegName.named "CMD" = .named "CMD")) ∧
    [1#32, 7#32, 2#32] = [1#32] ++ 7#32 :: [2#32] ∧ testConsts.crcResetCmd = some 7#32 ∧ 7#32 ∉ [2#32] :=
  ⟨by simp [testConsts], rfl, rfl, by simp⟩

/-- No reset command; and one that stands in frame data, where it does not reset, beside another command. -/
theorem witness_ChecksumIsPlainFoldWithoutReset :
    { testConsts with crcResetCmd := none }.crcResetCmd = none ∧ testConsts.crcResetCmd = some 7#32 ∧
    ∀ p ∈ [writePacket "CMD" 9#32, writePacket "FDRI" 7#32], p.opcode = .write → p.reg = .named "CMD" →
      ∀ w ∈ p.payload, testConsts.crcResetCmd ≠ some w := by
  refine ⟨rfl, rfl, ?_⟩
  simp [writePacket, testConsts]

/-- Nothing staged, a Type-1 packet staged, a Type-2 packet staged after its header and after another packet. -/
theorem witness_AddAppendsTheStagedPacket :
    fresh.pkt = none ∧ fdri0.WellFormed fresh.consts ∧ fdriT2.WellFormed fresh.consts ∧
    ¬ (fdriT2.htype = .t2 ∧ fdriT2.opcode = .nop) ∧
    (∃ q, [fdri0].getLast? = some q ∧ q.htype = .t1 ∧ q.count = 0 ∧ q.reg = fdriT2.reg) ∧
    (∀ q, [nopPacket].getLast? = some q → ¬ (q.htype = .t1 ∧ q.count = 0 ∧ q.reg = fdriT2.reg)) := by
  refine ⟨rfl, by decide, by decide, by decide, ⟨fdri0, rfl, rfl, rfl, rfl⟩, ?_⟩
  intro q hq
  cases hq
  decide

theorem witness_AddAllAppendsAllOrNothing_accepted :
    (∀ p ∈ [fdri0, fdriT2], p.WellFormed testConsts ∧ ¬ (p.htype = .t2 ∧ p.opcode = .nop)) ∧ Paired [nopPacket] ∧
    Paired ([nopPacket] ++ [fdri0, fdriT2]) := by
  refine ⟨by decide, ?_, paired_header_then_type2⟩
  intro i p hp h2
  match i, hp with
  | 0, hp => cases hp; cases h2

/-- For each of the five ways a packet is refused, one that is: a NOP of Type 2, an unknown register, a count beyond
its field, a count that is not the length, a Type-2 packet that follows no header. -/
theorem witness_AddAllAppendsAllOrNothing_refused :
    (Opcode.nop = .nop ∧ (HType.t2 = .t2 ∨ RegName.none ≠ .none)) ∧
    ¬ testConsts.IsRegister (.named "FOO") ∧
    (testConsts.IsRegister (.named "FDRI") ∧ 2047 < max 2048 ([] : List Word).length ∧
      134217727 < max 134217728 ([] : List Word).length) ∧
    (max 2 [1#32].length ≤ 2047 ∧ [1#32].length ≠ 2 ∧ [1#32] ≠ []) ∧
    (fdriT2.WellFormed testConsts ∧ fdriT2.opcode ≠ .nop ∧ fdriT2.htype = .t2 ∧
      ∀ q, ([nopPacket] ++ [nopPacket] : List Packet).getLast? = some q →
        ¬ (q.htype = .t1 ∧ q.count = 0 ∧ q.reg = fdriT2.reg)) := by
  refine ⟨by decide, by decide, by decide, by decide, by decide, by decide, rfl, ?_⟩
  intro q hq
  cases hq
  decide

theorem witness_AddAllSplitsFreely :
    afterNop.pkt = some nopPacket ∧
    (stateOf (exec (.sqAddAll ([nopPacket] ++ [fdri0])) fresh)).lasterr = 0#8 ∧
    resultOf (exec (.sqAddAll ([nopPacket] ++ [fdri0])) fresh) ≠ none := by decide +kernel

theorem witness_CrcWriteEmbedsTheAccumulator :
    fresh.consts.IsRegister (.named "CRC") ∧
    ¬ (constsOf Config.opcodeCode [("CMD", 4#14)] []).IsRegister (.named "CRC") ∧
    fresh.consts.addrOf? (.named "CRC") = some 0#14 ∧ fresh.consts.opcodeCode.write = 2#2 := by
  refine ⟨?_, ?_, ?_, ?_⟩ <;> decide

theorem witness_ResolveSelectsTheFamily :
    fresh.consts.WellFormed ∧ testFam ∈ fresh.consts.familyTable ∧
    ∀ S ∈ fresh.consts.familyTable, S.family ≠ "V9" := by
  refine ⟨?_, ?_, ?_⟩ <;> decide

theorem family_selected :
    selected.fam = some "TESTFAM" ∧ selected.consts.family? "TESTFAM" = some testFam := by
  refine ⟨?_, ?_⟩ <;> decide

/-- For the NO_FAMILY clauses. -/
theorem witness_noFamily : fresh.fam = none := rfl

/-- A selected family, the last block type and the first index past it, the last frame and the first past it. -/
theorem witness_TotalSumsTheSubtypes_LocateFindsTheSubtypeOfAFrame :
    (selected.fam = some "TESTFAM" ∧ selected.consts.family? "TESTFAM" = some testFam) ∧
    testFam.blockTypes.length ≤ 2 ∧ testFam.blockTypes[1]? = some bram ∧
    5 < (bram.subtypes.map (·.fpcb)).sum ∧ (bram.subtypes.map (·.fpcb)).sum ≤ 6 :=
  ⟨family_selected, by decide⟩

theorem witness_LocateIsOntoAndMonotone :
    logic.subtypes[1]? = some ⟨"B", 2⟩ ∧ locate logic 2 = .ok (0, 0, 2) ∧ locate logic 3 = .ok (1, 3, 0) := by decide

/-- A list of the wrong length, of zeros, and one whose first block type has no column. -/
theorem witness_StartSetsTheCursor :
    (selected.fam = some "TESTFAM" ∧ selected.consts.family? "TESTFAM" = some testFam) ∧
    [2].length ≠ testFam.blockTypes.length ∧ [0, 0].length = testFam.blockTypes.length ∧
    (([0, 0].zip testFam.blockTypes).map fun kB => kB.1 * (kB.2.subtypes.map (·.fpcb)).sum).sum = 0 ∧
    (([0, 1].zip testFam.blockTypes).map fun kB => kB.1 * (kB.2.subtypes.map (·.fpcb)).sum).sum = 6 ∧
    [0, 1][1]? = some 1 ∧ ∀ j, j < 1 → [0, 1][j]? = some 0 := ⟨family_selected, by decide⟩

/-- No cursor, a finished one, and one at each place: within a subtype, at the end of a subtype, of a column, of a
block type with another after it, of the device. -/
theorem witness_NextReturnsAndAdvances :
    fresh.fa.active = false ∧
    (∀ bt col sub frm, (cursorAt bt col sub frm).fa.active = true ∧ (cursorAt bt col sub frm).fa.done = false ∧
      (cursorAt bt col sub frm).fam = some "TESTFAM" ∧
      (cursorAt bt col sub frm).consts.family? "TESTFAM" = some testFam) ∧
    (testFam.blockTypes[0]? = some logic ∧ logic.subtypes[0]? = some ⟨"A", 3⟩ ∧ [2, 1][0]? = some 2) ∧
    ((cursorAt 0 0 0 1).fa.frm + 1 < 3 ∧ 3 ≤ (cursorAt 0 0 0 2).fa.frm + 1) ∧
    ((cursorAt 0 0 1 1).fa.sub + 1 < logic.subtypes.length ∧ logic.subtypes.length ≤ (cursorAt 0 0 2 0).fa.sub + 1) ∧
    ((cursorAt 0 0 2 0).fa.col + 1 < 2 ∧ 2 ≤ (cursorAt 0 1 2 0).fa.col + 1) ∧
    ([2, 1][1]? = some 1 ∧ ∀ j m, 1 < j → [2, 1][j]? = some m → m = 0) := by
  refine ⟨rfl, fun _ _ _ _ => ⟨rfl, rfl, rfl, family_selected.2⟩, by decide, by decide, by decide, by decide, rfl, ?_⟩
  intro j m hj h
  match j, hj, h with
  | j + 2, _, h => simp at h

theorem witness_EnumerationVisitsEveryFrameOnce :
    selected.consts.WellFormed ∧ selected.fam = some "TESTFAM" ∧
    selected.consts.family? "TESTFAM" = some testFam ∧ [2, 1].length = testFam.blockTypes.length ∧
    (deviceAddrs 0 [2, 1] testFam.blockTypes).length = 18 := by
  refine ⟨?_, ?_, ?_, ?_, ?_⟩ <;> decide

/-- The generator's registers are all known, or one is not. -/
theorem witness_InitialBlockIsAsListed_EndingBlockIsAsListed :
    (selected.fam = some "TESTFAM" ∧ selected.consts.family? "TESTFAM" = some testFam) ∧
    (∀ r ∈ ["WBSTAR", "TIMER", testGen.calReg, testGen.corReg, "IDCODE", "CMD", "MASK", testGen.initCtlReg, "CRC",
      "FAR", testGen.endCtlReg], selected.consts.IsRegister (.named r)) ∧
    ¬ fooConsts.IsRegister (.named "FOO") ∧ (fooConsts.familyTable.map (·.generator.calReg)) = ["FOO"] ∧
    (fooConsts.familyTable.map (·.generator.endCtlReg)) = ["FOO"] := by
  refine ⟨family_selected, ?_, ?_, ?_, ?_⟩ <;> decide

theorem witness_InitialBlockIsInputIsolated :
    ∃ t u, exec (.gnInit 1#32) selected = .next t ∧ exec (.gnInit 2#32) selected = .next u ∧ t.lasterr = 0#8 :=
  ⟨_, _, rfl, rfl, by decide +kernel⟩

/-- Lengths on both sides of the threshold and of the 27-bit field. -/
theorem witness_FrameDataPolicy :
    fresh.consts.IsRegister (.named "FDRI") ∧ (List.replicate 1023 0#32).length < 1024 ∧
    1024 ≤ (List.replicate 1024 0#32).length ∧ (List.replicate 1024 0#32).length ≤ 134217727 ∧
    134217727 < (List.replicate 134217728 0#32).length ∧
    ¬ (constsOf Config.opcodeCode [("CMD", 4#14)] []).IsRegister (.named "FDRI") := by
  refine ⟨by decide, ?_, ?_, ?_, ?_, by decide⟩ <;> rw [List.length_replicate] <;> decide

theorem witness_PseudoOperationsExpand :
    fresh.consts.IsRegister (.named "CMD") ∧ ¬ fresh.consts.IsRegister (.named "FOO") := by decide

/-- R84: `EM.HDR0` then `EM.T2` appends the pair (the words of V-SQ for `SQ.ADDALL` of it); `EM.T2` alone ends in
T2_ORPHAN with its packet staged; `EM.T1` of an unknown opcode name stages nothing. -/
theorem witness_PseudoOperationsExpand_steps :
    (stateOf (runPseudo (.t2 "WRITE" (.named "FDRI") 2 [1#32, 2#32]) { fresh with seq := [fdri0] })).seq.length = 2 ∧
    (stateOf (runPseudo (.hdr0 "WRITE" (.named "FDRI")) fresh)).seq = [fdri0] ∧
    (stateOf (runPseudo (.t2 "WRITE" (.named "FDRI") 2 [1#32, 2#32]) fresh)).lastinfo = 3#32 ∧
    (stateOf (runPseudo (.t2 "WRITE" (.named "FDRI") 2 [1#32, 2#32]) fresh)).pktValid = true ∧
    (stateOf (runPseudo (.t1 "ERASE" (.named "FDRI") 0 []) fresh)).pktValid = false := by decide +kernel

end Sys2Proof.Tests
end

section
/-! PROOFS of the family `20_memory.md`: the bytes of a word stream by position (R54). -/

namespace Sys2Proof.Machine

/-! ## The byte stream by position -/

@[simp] theorem byteStream_length (ws : List Word) : (byteStream ws).length = 4 * ws.length := by
  induction ws with
  | nil => rfl
  | cons w ws ih => simp only [byteStream, List.length_append, bytesOfWord_length, ih, List.length_cons]; omega

/-- Word `i` of a stream occupies the four places from `4 * i`, in the order `bytes(w)` gives its bytes (R54). -/
theorem byteStream_getElem?_of_word {ws : List Word} {i k : Nat} {w : Word} (hw : ws[i]? = some w) (hk : k < 4) :
    (byteStream ws)[4 * i + k]? = (bytesOfWord w)[k]? := by
  induction ws generalizing i with
  | nil => simp at hw
  | cons v ws ih =>
    cases i with
    | zero =>
      obtain rfl : v = w := by simpa using hw
      rw [Nat.mul_zero, Nat.zero_add, byteStream, List.getElem?_append_left (by simpa using hk)]
    | succ i =>
      have place : 4 * (i + 1) + k = (bytesOfWord v).length + (4 * i + k) := by
        rw [bytesOfWord_length]; omega
      rw [place, byteStream, List.getElem?_append_right (Nat.le_add_right _ _), Nat.add_sub_cancel_left]
      exact ih (by simpa using hw)

/-- A byte field of a word as a quotient, the form in which R54's "most significant first" is stated. -/
theorem extractLsb'_eq_ofNat_div (w : Word) (start : Nat) :
    w.extractLsb' start 8 = BitVec.ofNat 8 (w.toNat / 2 ^ start) := by
  rw [BitVec.extractLsb', Nat.shiftRight_eq_div_pow]

/-- `bytes(w)` as the quotients of `w` by the powers of 256, the largest power first (R54). -/
theorem bytesOfWord_eq_quotients (w : Word) :
    bytesOfWord w = [BitVec.ofNat 8 (w.toNat / 2 ^ 24), BitVec.ofNat 8 (w.toNat / 2 ^ 16),
      BitVec.ofNat 8 (w.toNat / 2 ^ 8), BitVec.ofNat 8 w.toNat] := by
  simp only [bytesOfWord, extractLsb'_eq_ofNat_div, Nat.pow_zero, Nat.div_one]

/-- Settles O6: each word's four places hold `bytes(w)`, whose entries are the quotients from the top. -/
theorem byteStreamIsBigEndian : Obligations.ByteStreamIsBigEndian := by
  refine fun ws => ⟨byteStream_length ws, fun i w hw => ?_⟩
  have byteAt : ∀ k < 4, (byteStream ws)[4 * i + k]? = (bytesOfWord w)[k]? :=
    fun _ => byteStream_getElem?_of_word hw
  rw [bytesOfWord_eq_quotients] at byteAt
  exact ⟨byteAt 0 (by decide), byteAt 1 (by decide), byteAt 2 (by decide), byteAt 3 (by decide)⟩

end Sys2Proof.Machine
end

section
/-! PROOFS of the family `30_encoding.md`: the header words as numbers (R74) and the operation codes outside the
table (R82). -/

namespace Sys2Proof.Machine

/-! ## The header of a packet as a number -/

/-- A Type-1 header whose count its field holds: each field at its position, reserved bits 0 (R71, R74). -/
theorem header_toNat_of_t1 {c : Constants} {p : Packet} (ht : p.htype = .t1) (hcount : p.count ≤ t1MaxWords) :
    (header c p).toNat =
      2 ^ 29 + (c.codeOf p.opcode).toNat * 2 ^ 27 + (regField c p.reg).toNat * 2 ^ 13 + p.count := by
  have hfit : p.count < 2 ^ 11 := Nat.lt_succ_of_le hcount
  simp only [header, ht]
  rw [t1Word_toNat, BitVec.toNat_ofNat, BitVec.toNat_ofNat, Nat.zero_mod, Nat.zero_mul, Nat.add_zero,
    Nat.mod_eq_of_lt hfit]

/-- A Type-2 header whose count its field holds: each field at its position (R72, R74). -/
theorem header_toNat_of_t2 {c : Constants} {p : Packet} (ht : p.htype = .t2) (hcount : p.count ≤ t2MaxWords) :
    (header c p).toNat = 2 ^ 30 + (c.codeOf p.opcode).toNat * 2 ^ 27 + p.count := by
  have hfit : p.count < 2 ^ 27 := Nat.lt_succ_of_le hcount
  simp only [header, ht]
  rw [t2Word_toNat, BitVec.toNat_ofNat, Nat.mod_eq_of_lt hfit]

/-- Settles O4: clauses (c) and (d) of R32 keep the count within its field, so no bit of it is cut. -/
theorem headerAsNumber : Obligations.HeaderAsNumber := by
  rintro c p ⟨-, -, hcount1, hcount2, -, -⟩
  exact ⟨fun ht => header_toNat_of_t1 ht (hcount1 ht), fun ht => header_toNat_of_t2 ht (hcount2 ht)⟩

/-! ## Operation codes outside the table -/

/-- The 21 operation codes of R80, in the table's order. -/
def operationCodes : List (BitVec 8) :=
  [0x01#8, 0x02#8, 0x10#8, 0x11#8, 0x12#8, 0x13#8, 0x14#8, 0x20#8, 0x21#8, 0x22#8, 0x23#8, 0x30#8, 0x31#8, 0x32#8,
    0x33#8, 0x34#8, 0x40#8, 0x41#8, 0x42#8, 0x43#8, 0x44#8]

/-- A code that R80 does not list stands for no instruction, whatever the operands (R82). -/
theorem decodeOperation_of_not_mem {code : BitVec 8} (hcode : code ∉ operationCodes) (o : Operands) :
    decodeOperation code o = .error (.unknownOp code) := by
  simp only [operationCodes, List.mem_cons, List.not_mem_nil, or_false, not_or] at hcode
  simp only [decodeOperation, hcode, if_false]

/-- A transaction that stands for no instruction is taken and rejected (R75, R82). -/
theorem step_of_decode_error {s : State} {x : Transaction} {rest : List HostEvent} {e : DecodeError}
    (hhost : s.host = .transaction x :: rest) (hdecode : decode x = .error e) :
    step s = .next (rejectTransaction e { s with host := rest }) := by
  simp only [step, hhost, hdecode]

/-- The information word of UNKNOWN_OP: the code in bits [15:8] over the subcode 6 (R191). -/
theorem unknownOp_info (code : BitVec 8) :
    (IllegalSub.unknownOp code).info = BitVec.ofNat 32 (code.toNat * 256 + 6) := by
  apply BitVec.eq_of_toNat_eq
  simp only [IllegalSub.info, toNat_append_eq, BitVec.toNat_ofNat]
  omega

/-- Settles O9: the code decodes to no instruction, and rejecting it raises UNKNOWN_OP. -/
theorem unknownOperationCodeFaults : Obligations.UnknownOperationCodeFaults := by
  intro s code o rest hhost hcode
  rw [step_of_decode_error hhost (decodeOperation_of_not_mem hcode o), ← unknownOp_info]
  rfl

end Sys2Proof.Machine
end

section
/-! PROOFS of the family `40_lookup.md`: register names and addresses (R101), opcode names and codes (R102). -/

namespace Sys2Proof.Machine

/-! ## Tables with distinct keys -/

/-- In a table whose keys are distinct, the search for the key of an entry finds that entry. -/
theorem find?_key_of_mem {α κ : Type} [DecidableEq κ] {key : α → κ} {l : List α} (hnodup : (l.map key).Nodup)
    {x : α} (hx : x ∈ l) : l.find? (fun e => key e = key x) = some x := by
  have found : (l.find? (fun e => key e = key x)).isSome = true :=
    List.find?_isSome.mpr ⟨x, hx, decide_eq_true rfl⟩
  obtain ⟨y, hy⟩ := Option.isSome_iff_exists.mp found
  have sameKey : key y = key x := by simpa using List.find?_some hy
  rw [hy, List.inj_on_of_nodup_map hnodup (List.mem_of_find?_eq_some hy) hx sameKey]

/-- A pair of a table with distinct names is what the lookup of its name gives (R78). -/
theorem addrOf?_named_of_mem {c : Constants} (hc : c.WellFormed) {n : String} {a : BitVec 14}
    (h : (n, a) ∈ c.regAddr) : c.addrOf? (.named n) = some a := by
  obtain ⟨hnames, -⟩ := hc
  exact congrArg (Option.map Prod.snd) (find?_key_of_mem hnames h)

/-- A name that stands in no pair of the table has no address (R100). -/
theorem addrOf?_named_of_not_mem {c : Constants} {n : String} (h : ∀ a, (n, a) ∉ c.regAddr) :
    c.addrOf? (.named n) = none := by
  have notRegister : ¬ c.IsRegister (.named n) := (addrOf?_isSome_iff c n).not.mpr (not_exists.mpr h)
  exact Option.not_isSome_iff_eq_none.mp notRegister

/-! ## Opcode names -/

/-- Each of the four names stands for its opcode (R81). -/
theorem opcodeOfName?_of_mem {n : String} {o : Opcode}
    (h : (n, o) ∈ [("NOP", Opcode.nop), ("READ", .read), ("WRITE", .write), ("RESERVED", .reserved)]) :
    opcodeOfName? n = some o := by
  simp only [List.mem_cons, Prod.mk.injEq, List.not_mem_nil, or_false] at h
  obtain ⟨rfl, rfl⟩ | ⟨rfl, rfl⟩ | ⟨rfl, rfl⟩ | ⟨rfl, rfl⟩ := h
  · rfl
  · rfl
  · rfl
  · rfl

/-- Any other string stands for no opcode: names are compared exactly (R81). -/
theorem opcodeOfName?_of_not_mem {n : String} (h : n ∉ ["NOP", "READ", "WRITE", "RESERVED"]) :
    opcodeOfName? n = none := by
  simp only [List.mem_cons, List.not_mem_nil, or_false, not_or] at h
  simp only [opcodeOfName?, h, if_false]

/-! ## The two operations -/

/-- `LK.REG` of a register operand that has an address (R101). -/
theorem exec_lkReg_of_some {s : State} {r : RegName} {a : BitVec 14} (h : s.consts.addrOf? r = some a) :
    exec (.lkReg r) s = .next (succeed (.addr a) s) := by
  have hlookup : lookupReg s.consts r = .ok a := by rw [lookupReg, h]
  rw [exec, execLkReg, hlookup, Except.map, complete_ok]

/-- `LK.REG` of a register operand that has none (R101). -/
theorem exec_lkReg_of_none {s : State} {r : RegName} (h : s.consts.addrOf? r = none) :
    exec (.lkReg r) s = .next (raise .invalidRegister s) := by
  have hlookup : lookupReg s.consts r = .error .invalidRegister := by rw [lookupReg, h]
  rw [exec, execLkReg, hlookup, Except.map, complete_error]

/-- `LK.OP` of a name that stands for an opcode (R102). -/
theorem exec_lkOp_of_some {n : String} {o : Opcode} (h : opcodeOfName? n = some o) (s : State) :
    exec (.lkOp n) s = .next (succeed (.opc (s.consts.codeOf o)) s) := by
  have hlookup : lookupOp s.consts n = .ok (s.consts.codeOf o) := by rw [lookupOp, h]
  rw [exec, execLkOp, hlookup, Except.map, complete_ok]

/-- `LK.OP` of a name that stands for none (R102). -/
theorem exec_lkOp_of_none {n : String} (h : opcodeOfName? n = none) (s : State) :
    exec (.lkOp n) s = .next (raise .invalidOpcode s) := by
  have hlookup : lookupOp s.consts n = .error .invalidOpcode := by rw [lookupOp, h]
  rw [exec, execLkOp, hlookup, Except.map, complete_error]

/-! ## The obligations, apart from the model's own `lookupOpcode` -/

namespace Lookup

/-- Settles O24: distinct names make the search find the given pair; without a pair, or for `NONE`, it finds
nothing. -/
theorem lookupRegister : Obligations.LookupRegister := by
  refine ⟨fun _ => rfl, fun s => ⟨fun hc _ _ hmem => ?_, fun _ hkey => ?_, ?_⟩⟩
  · exact exec_lkReg_of_some (addrOf?_named_of_mem hc hmem)
  · exact exec_lkReg_of_none (addrOf?_named_of_not_mem hkey)
  · exact exec_lkReg_of_none (addrOf?_none s.consts)

/-- Settles O25: a name either is one of the four, each with its opcode, or stands for none. -/
theorem lookupOpcode : Obligations.LookupOpcode := by
  refine ⟨fun _ => rfl, fun s => ⟨fun _ _ hmem => ?_, fun _ hname => ?_⟩⟩
  · exact exec_lkOp_of_some (opcodeOfName?_of_mem hmem) s
  · exact exec_lkOp_of_none (opcodeOfName?_of_not_mem hname) s

end Lookup

end Sys2Proof.Machine
end

section
/-! PROOFS of the family `41_packet.md`: the build operations with their faults in the order of R115 (R111 to R114),
and the header decoder with the round trip of one-word writes (R117). -/

namespace Sys2Proof.Machine

/-! ## The check of an opcode name -/

/-- The four opcode names with their opcodes (R81), NOP first. -/
def opcodeTable : List (String × Opcode) :=
  [("NOP", .nop), ("READ", .read), ("WRITE", .write), ("RESERVED", .reserved)]

theorem exists_opcode_of_mem_names {n : String} (h : n ∈ opcodeTable.map Prod.fst) :
    ∃ o, (n, o) ∈ opcodeTable := by
  obtain ⟨⟨_, o⟩, hmem, rfl⟩ := List.mem_map.mp h
  exact ⟨o, hmem⟩

/-- NOP stands in the table under its own name only. -/
theorem ne_nop_of_mem_tail {n : String} {o : Opcode} (h : (n, o) ∈ opcodeTable.tail) : o ≠ .nop := by
  rintro rfl
  simp [opcodeTable] at h

theorem lookupOpcode_of_mem {n : String} {o : Opcode} (h : (n, o) ∈ opcodeTable) : lookupOpcode n = .ok o := by
  rw [lookupOpcode, opcodeOfName?_of_mem h]

theorem lookupOpcode_of_not_mem {n : String} (h : n ∉ opcodeTable.map Prod.fst) :
    lookupOpcode n = .error .invalidOpcode := by
  rw [lookupOpcode, opcodeOfName?_of_not_mem h]

/-! ## The check of a register name -/

theorem lookupReg_of_isRegister {c : Constants} {r : RegName} (h : c.IsRegister r) : ∃ a, lookupReg c r = .ok a := by
  obtain ⟨a, ha⟩ := Option.isSome_iff_exists.mp h
  exact ⟨a, by rw [lookupReg, ha]⟩

theorem lookupReg_of_not_isRegister {c : Constants} {r : RegName} (h : ¬ c.IsRegister r) :
    lookupReg c r = .error .invalidRegister := by
  rw [lookupReg, Option.not_isSome_iff_eq_none.mp h]

theorem checkRegT1_of_nop {c : Constants} {r : RegName} (h : r ≠ .none) :
    checkRegT1 c .nop r = .error (.malformedPacket .nopWithRegister) := by
  rw [checkRegT1, if_pos rfl, if_neg h]

theorem checkRegT1_of_not_isRegister {c : Constants} {o : Opcode} {r : RegName} (ho : o ≠ .nop)
    (h : ¬ c.IsRegister r) : checkRegT1 c o r = .error .invalidRegister := by
  rw [checkRegT1, if_neg ho, if_neg h]

/-- A NOP without a register passes, and any other opcode with a known one (R113). -/
theorem checkRegT1_passes {c : Constants} {o : Opcode} {r : RegName} (hnop : o = .nop → r = .none)
    (hreg : o ≠ .nop → c.IsRegister r) : checkRegT1 c o r = .ok () := by
  by_cases ho : o = .nop
  · rw [checkRegT1, if_pos ho, if_pos (hnop ho)]
  · rw [checkRegT1, if_neg ho, if_pos (hreg ho)]

/-- A Type-2 NOP is refused whatever its register (R114). -/
theorem checkRegT2_of_nop (c : Constants) (r : RegName) :
    checkRegT2 c .nop r = .error (.malformedPacket .nopWithRegister) := by
  rw [checkRegT2, if_pos rfl]

theorem checkRegT2_of_not_isRegister {c : Constants} {o : Opcode} {r : RegName} (ho : o ≠ .nop)
    (h : ¬ c.IsRegister r) : checkRegT2 c o r = .error .invalidRegister := by
  rw [checkRegT2, if_neg ho, if_neg h]

theorem checkRegT2_passes {c : Constants} {o : Opcode} {r : RegName} (ho : o ≠ .nop) (h : c.IsRegister r) :
    checkRegT2 c o r = .ok () := by
  rw [checkRegT2, if_neg ho, if_pos h]

/-! ## The check of a count -/

theorem checkCount_of_overflow {p : Packet} (h : p.htype.maxWords < overflowLength p) :
    checkCount p = .error (.packetOverflow (overflowLength p)) := by
  rw [checkCount, if_pos h]

/-- A payload that fits and is not of `count` words is a mismatch, unless it is the empty one of a packet that is no
WRITE (R32, R115). -/
theorem checkCount_of_mismatch {p : Packet} (hfit : overflowLength p ≤ p.htype.maxWords)
    (hlen : p.payload.length ≠ p.count) (hempty : p.opcode ≠ .write → p.payload ≠ []) :
    checkCount p = .error (.malformedPacket .countMismatch) := by
  rw [checkCount, if_neg (Nat.not_lt.mpr hfit)]
  by_cases hw : p.opcode = .write
  · rw [if_pos ⟨hw, hlen⟩]
  · have nonempty : p.payload.length ≠ 0 := List.length_eq_zero_iff.not.mpr (hempty hw)
    rw [if_neg (fun h => hw h.1), if_pos ⟨hw, nonempty, hlen⟩]

theorem checkCount_passes {p : Packet} (hfit : overflowLength p ≤ p.htype.maxWords)
    (hlen : p.payload.length = p.count ∨ p.opcode ≠ .write ∧ p.payload = []) : checkCount p = .ok () := by
  rw [checkCount_ok_iff, ← and_assoc, ← overflowLength_le]
  refine ⟨hfit, fun hw => ?_, fun _ => ?_⟩
  · exact hlen.resolve_right fun h => h.1 hw
  · exact hlen.symm.imp_left fun h => List.length_eq_zero_iff.mpr h.2

/-! ## How a build operation ends -/

@[simp] theorem stage_ok (s : State) (p : Packet) : stage s (.ok p) = succeed .unit { s with pkt := some p } := rfl

@[simp] theorem stage_error (s : State) (f : BlockFault) : stage s (.error f) = raise f s := rfl

section OneWord

variable {c : Constants} {n : String} {o : Opcode} {r : RegName}

theorem buildW1_of_unknownName (hname : lookupOpcode n = .error .invalidOpcode) (v : Word) :
    buildW1 c n r v = .error .invalidOpcode := by
  rw [buildW1, hname]

theorem buildW1_of_unknownRegister (hname : lookupOpcode n = .ok o) (hreg : ¬ c.IsRegister r) (v : Word) :
    buildW1 c n r v = .error .invalidRegister := by
  simp only [buildW1, hname, lookupReg_of_not_isRegister hreg]

/-- `PK.W1` looks the register up before it refuses a NOP (R112). -/
theorem buildW1_of_nop (hname : lookupOpcode n = .ok .nop) (hreg : c.IsRegister r) (v : Word) :
    buildW1 c n r v = .error (.malformedPacket .nopWithRegister) := by
  obtain ⟨a, ha⟩ := lookupReg_of_isRegister hreg
  simp only [buildW1, hname, ha, if_true]

theorem buildW1_passes (hname : lookupOpcode n = .ok o) (ho : o ≠ .nop) (hreg : c.IsRegister r) (v : Word) :
    buildW1 c n r v = .ok ⟨.t1, o, r, 1, [v]⟩ := by
  obtain ⟨a, ha⟩ := lookupReg_of_isRegister hreg
  simp only [buildW1, hname, ha, if_neg ho]

end OneWord

section Counted

variable {h : HType} {chk : Opcode → RegName → Except BlockFault Unit} {n : String} {o : Opcode} {r : RegName}
  {count : Nat} {l : List Word}

theorem buildCounted_of_unknownName (hname : lookupOpcode n = .error .invalidOpcode) :
    buildCounted h chk n r count l = .error .invalidOpcode := by
  rw [buildCounted, hname]

theorem buildCounted_of_register {f : BlockFault} (hname : lookupOpcode n = .ok o) (hreg : chk o r = .error f) :
    buildCounted h chk n r count l = .error f := by
  simp only [buildCounted, hname, hreg]

theorem buildCounted_of_overflow (hname : lookupOpcode n = .ok o) (hreg : chk o r = .ok ())
    (hover : h.maxWords < max count l.length) :
    buildCounted h chk n r count l = .error (.packetOverflow (max count l.length)) := by
  have hcount : checkCount ⟨h, o, r, count, l⟩ = .error (.packetOverflow (max count l.length)) :=
    checkCount_of_overflow hover
  simp only [buildCounted, hname, hreg, hcount, Except.map]

theorem buildCounted_of_mismatch (hname : lookupOpcode n = .ok o) (hreg : chk o r = .ok ())
    (hfit : max count l.length ≤ h.maxWords) (hlen : l.length ≠ count) (hempty : o ≠ .write → l ≠ []) :
    buildCounted h chk n r count l = .error (.malformedPacket .countMismatch) := by
  have hcount : checkCount ⟨h, o, r, count, l⟩ = .error (.malformedPacket .countMismatch) :=
    checkCount_of_mismatch hfit hlen hempty
  simp only [buildCounted, hname, hreg, hcount, Except.map]

theorem buildCounted_passes (hname : lookupOpcode n = .ok o) (hreg : chk o r = .ok ())
    (hfit : max count l.length ≤ h.maxWords) (hlen : l.length = count ∨ o ≠ .write ∧ l = []) :
    buildCounted h chk n r count l = .ok ⟨h, o, r, count, l⟩ := by
  have hcount : checkCount ⟨h, o, r, count, l⟩ = .ok () := checkCount_passes hfit hlen
  simp only [buildCounted, hname, hreg, hcount, Except.map]

end Counted

theorem exec_pkNop (s : State) : exec .pkNop s = .next (stage s (.ok nopPacket)) := rfl

theorem exec_pkW1 {s : State} {n : String} {r : RegName} {v : Word} {b : Except BlockFault Packet}
    (hbuild : buildW1 s.consts n r v = b) : exec (.pkW1 n r v) s = .next (stage s b) := by
  subst hbuild
  rfl

theorem exec_pkT1 {s : State} {n : String} {r : RegName} {count : Nat} {l : List Word}
    {b : Except BlockFault Packet} (hbuild : buildCounted .t1 (checkRegT1 s.consts) n r count l = b) :
    exec (.pkT1 n r count l) s = .next (stage s b) := by
  subst hbuild
  rfl

theorem exec_pkT2 {s : State} {n : String} {r : RegName} {count : Nat} {l : List Word}
    {b : Except BlockFault Packet} (hbuild : buildCounted .t2 (checkRegT2 s.consts) n r count l = b) :
    exec (.pkT2 n r count l) s = .next (stage s b) := by
  subst hbuild
  rfl

/-! ## The build operations -/

/-- With NOP coded 0 the NOP packet is the one word of type 1 whose fields are all 0 (R111). -/
theorem words_nopPacket {c : Constants} (h : c.opcodeCode.nop = 0#2) : words c nopPacket = [0x20000000#32] := by
  have hcode : c.codeOf .nop = 0#2 := h
  have hfield : regField c .none = 0#14 := by rw [regField, addrOf?_none, Option.getD_none]
  simp only [words, header, nopPacket, hcode, hfield]
  decide

/-- Settles O27: the build has no check to fail. -/
theorem buildNop : Obligations.BuildNop :=
  ⟨fun _ => rfl, fun s => ⟨exec_pkNop s, words_nopPacket⟩⟩

/-- Settles O28: each clause is the first check of `PK.W1` that fails, the last the build with none failed. -/
theorem buildOneWordPacket : Obligations.BuildOneWordPacket := by
  refine ⟨fun _ => rfl, fun s n r v => ⟨fun hn => ?_, fun hn hr => ?_, fun hn hr => ?_, fun o hn hr => ?_⟩⟩
  · exact exec_pkW1 (buildW1_of_unknownName (lookupOpcode_of_not_mem hn) v)
  · obtain ⟨o, ho⟩ := exists_opcode_of_mem_names hn
    exact exec_pkW1 (buildW1_of_unknownRegister (lookupOpcode_of_mem ho) hr v)
  · subst hn
    exact exec_pkW1 (buildW1_of_nop rfl hr v)
  · have hname : lookupOpcode n = .ok o := lookupOpcode_of_mem (List.mem_of_mem_tail hn)
    exact exec_pkW1 (buildW1_passes hname (ne_nop_of_mem_tail hn) hr v)

/-- Settles O29: each clause is the first check of R115 that fails, the last the build with none failed. -/
theorem buildType1Packet : Obligations.BuildType1Packet := by
  refine ⟨fun _ => rfl, fun s n r count l => ⟨fun hn => ?_, fun o hn => ?_⟩⟩
  · exact exec_pkT1 (buildCounted_of_unknownName (lookupOpcode_of_not_mem hn))
  have hname : lookupOpcode n = .ok o := lookupOpcode_of_mem hn
  refine ⟨fun ho hr => ?_, fun ho hr => ?_, fun hnop hother => ?_⟩
  · subst ho
    exact exec_pkT1 (buildCounted_of_register hname (checkRegT1_of_nop hr))
  · exact exec_pkT1 (buildCounted_of_register hname (checkRegT1_of_not_isRegister ho hr))
  have hreg : checkRegT1 s.consts o r = .ok () := checkRegT1_passes hnop hother
  refine ⟨fun hover => ?_, fun hfit hlen hempty => ?_, fun hfit hlen => ?_⟩
  · exact exec_pkT1 (buildCounted_of_overflow hname hreg hover)
  · exact exec_pkT1 (buildCounted_of_mismatch hname hreg hfit hlen hempty)
  · exact exec_pkT1 (buildCounted_passes hname hreg hfit hlen)

/-- Settles O30: as for `PK.T1`, but NOP is refused before its register is looked at; no check reads `SEQ`. -/
theorem buildType2Packet : Obligations.BuildType2Packet := by
  refine ⟨fun _ => rfl, fun s n r count l => ⟨fun hn => ?_, fun hn => ?_, fun o hn => ?_⟩⟩
  · exact exec_pkT2 (buildCounted_of_unknownName (lookupOpcode_of_not_mem hn))
  · subst hn
    exact exec_pkT2 (buildCounted_of_register rfl (checkRegT2_of_nop s.consts r))
  have hname : lookupOpcode n = .ok o := lookupOpcode_of_mem (List.mem_of_mem_tail hn)
  have ho : o ≠ .nop := ne_nop_of_mem_tail hn
  refine ⟨fun hr => ?_, fun hr hover => ?_, fun hr hfit hlen hempty => ?_, fun hr hfit hlen => ?_⟩
  · exact exec_pkT2 (buildCounted_of_register hname (checkRegT2_of_not_isRegister ho hr))
  · exact exec_pkT2 (buildCounted_of_overflow hname (checkRegT2_passes ho hr) hover)
  · exact exec_pkT2 (buildCounted_of_mismatch hname (checkRegT2_passes ho hr) hfit hlen hempty)
  · exact exec_pkT2 (buildCounted_passes hname (checkRegT2_passes ho hr) hfit hlen)

/-! ## The header decoder by bit position -/

theorem hdrType_eq_iff (w : Word) (t : BitVec 3) : hdrType w = t ↔ w.toNat / 2 ^ 29 = t.toNat := by
  rw [← hdrType_toNat, BitVec.toNat_inj]

/-- A field of a word as a quotient, cut to the field's width. -/
theorem extractLsb'_eq_ofNat_quotient (w : Word) (start len : Nat) :
    w.extractLsb' start len = BitVec.ofNat len (w.toNat / 2 ^ start) := by
  rw [BitVec.extractLsb', Nat.shiftRight_eq_div_pow]

/-- A word of type 1 decodes to its fields (R71, R75). -/
theorem decHdr_of_type1 (c : Constants) {w : Word} (h : w.toNat / 2 ^ 29 = 1) :
    decHdr c w = .t1 (c.nameOfOpc (BitVec.ofNat 2 (w.toNat / 2 ^ 27))) (BitVec.ofNat 14 (w.toNat / 2 ^ 13))
      (BitVec.ofNat 2 (w.toNat / 2 ^ 11)) (BitVec.ofNat 11 w.toNat) := by
  rw [decHdr, if_pos ((hdrType_eq_iff w 1#3).mpr h)]
  simp only [hdrOpc, hdrReg, hdrRsvd, hdrWc1, extractLsb'_eq_ofNat_quotient, Nat.pow_zero, Nat.div_one]

/-- A word of type 2 decodes to its fields (R72, R75). -/
theorem decHdr_of_type2 (c : Constants) {w : Word} (h : w.toNat / 2 ^ 29 = 2) :
    decHdr c w = .t2 (c.nameOfOpc (BitVec.ofNat 2 (w.toNat / 2 ^ 27))) (BitVec.ofNat 27 w.toNat) := by
  have notType1 : hdrType w ≠ 1#3 := by rw [(hdrType_eq_iff w 2#3).mpr h]; decide
  rw [decHdr, if_neg notType1, if_pos ((hdrType_eq_iff w 2#3).mpr h)]
  simp only [hdrOpc, hdrWc2, extractLsb'_eq_ofNat_quotient, Nat.pow_zero, Nat.div_one]

/-- A word of any other type decodes to its type alone (R75, R77). -/
theorem decHdr_of_otherType (c : Constants) {w : Word} (h1 : w.toNat / 2 ^ 29 ≠ 1) (h2 : w.toNat / 2 ^ 29 ≠ 2) :
    decHdr c w = .other (BitVec.ofNat 3 (w.toNat / 2 ^ 29)) := by
  rw [decHdr, if_neg ((hdrType_eq_iff w 1#3).not.mpr h1), if_neg ((hdrType_eq_iff w 2#3).not.mpr h2), hdrType,
    extractLsb'_eq_ofNat_quotient]

@[simp] theorem decHdr_t1Word (c : Constants) (opc : BitVec 2) (reg : BitVec 14) (rsvd : BitVec 2)
    (wc : BitVec 11) : decHdr c (t1Word opc reg rsvd wc) = .t1 (c.nameOfOpc opc) reg rsvd wc := by
  simp [decHdr]

/-- `DEC.HDR` reports what the word decodes to (R117). -/
theorem exec_decHdr {w : Word} {s : State} {d : DecHdr} (h : decHdr s.consts w = d) :
    exec (.decHdr w) s = .next (succeed (.header d (d.regname s.consts)) s) := by
  subst h
  rfl

/-! ## The tables backwards -/

/-- A name the search by address gives stands in the table with that address (R75). -/
theorem mem_of_regOfAddr_eq_named {c : Constants} {a : BitVec 14} {n : String} (h : c.regOfAddr a = .named n) :
    (n, a) ∈ c.regAddr := by
  unfold Constants.regOfAddr at h
  cases hfind : c.regAddr.find? (fun e => e.2 = a) with
  | none => rw [hfind] at h; cases h
  | some e =>
    rw [hfind] at h
    cases h
    have haddr : e.2 = a := by simpa using List.find?_some hfind
    rw [← haddr]
    exact List.mem_of_find?_eq_some hfind

/-- Where the search by address gives `NONE`, no pair of the table has the address (R75). -/
theorem not_mem_of_regOfAddr_eq_none {c : Constants} {a : BitVec 14} (h : c.regOfAddr a = .none) (n : String) :
    (n, a) ∉ c.regAddr := by
  unfold Constants.regOfAddr at h
  cases hfind : c.regAddr.find? (fun e => e.2 = a) with
  | none => exact fun hmem => List.find?_eq_none.mp hfind (n, a) hmem (decide_eq_true rfl)
  | some e => rw [hfind] at h; cases h

/-- With distinct addresses the search by address finds the pair that has it (R103). -/
theorem regOfAddr_of_mem {c : Constants} (hc : c.WellFormed) {n : String} {a : BitVec 14}
    (h : (n, a) ∈ c.regAddr) : c.regOfAddr a = .named n := by
  obtain ⟨-, haddrs, -⟩ := hc
  have hfind : c.regAddr.find? (fun e => e.2 = a) = some (n, a) := find?_key_of_mem haddrs h
  rw [Constants.regOfAddr, hfind]

/-- `name_of_opc` undoes `OPCODE_CODE`, because its four codes are distinct (R103). -/
theorem nameOfOpc_codeOf {c : Constants} (hc : c.WellFormed) (o : Opcode) : c.nameOfOpc (c.codeOf o) = o := by
  obtain ⟨-, -, hcodes, -⟩ := hc
  simp only [OpcodeCode.WellFormed, List.nodup_cons, List.mem_cons, List.not_mem_nil, or_false, not_or] at hcodes
  obtain ⟨⟨hnr, hnw, hns⟩, ⟨hrw, hrs⟩, hws, -⟩ := hcodes
  cases o with
  | nop => simp [Constants.nameOfOpc, Constants.codeOf]
  | read => simp [Constants.nameOfOpc, Constants.codeOf, Ne.symm hnr]
  | write => simp [Constants.nameOfOpc, Constants.codeOf, Ne.symm hnw, Ne.symm hrw]
  | reserved => simp [Constants.nameOfOpc, Constants.codeOf, Ne.symm hns, Ne.symm hrs, Ne.symm hws]

/-- The header of a one-word write decodes to WRITE, the register's address, reserved bits 0 and count 1 (R117). -/
theorem decHdr_header_writePacket {c : Constants} (hc : c.WellFormed) {n : String} {a : BitVec 14}
    (h : (n, a) ∈ c.regAddr) (v : Word) : decHdr c (header c (writePacket n v)) = .t1 .write a 0#2 1#11 := by
  have hfield : regField c (.named n) = a := by rw [regField, addrOf?_named_of_mem hc h, Option.getD_some]
  simp only [header, writePacket, decHdr_t1Word, nameOfOpc_codeOf hc, hfield]

/-- Settles O32: the decoder by the word's type and the search by address; the round trip is that of the write packet,
whose register the table holds. -/
theorem decodeHeaderOperation : Obligations.DecodeHeaderOperation := by
  refine ⟨fun _ => rfl,
    fun s w => ⟨fun h => ?_, fun h => ?_, fun h1 h2 => ?_, fun a => ⟨fun n h => ?_, fun h => ?_⟩⟩,
    fun s n a v hc hmem => ?_⟩
  · exact exec_decHdr (decHdr_of_type1 s.consts h)
  · exact exec_decHdr (decHdr_of_type2 s.consts h)
  · exact exec_decHdr (decHdr_of_otherType s.consts h1 h2)
  · exact mem_of_regOfAddr_eq_named h
  · exact not_mem_of_regOfAddr_eq_none h
  · have hreg : s.consts.IsRegister (.named n) := (addrOf?_isSome_iff s.consts n).mpr ⟨a, hmem⟩
    refine ⟨succeed .unit { s with pkt := some (writePacket n v) }, writePacket n v, ?_, rfl, rfl, ?_⟩
    · exact exec_pkW1 (buildW1_passes rfl (by decide) hreg v)
    · rw [exec_decHdr (decHdr_header_writePacket hc hmem v), DecHdr.regname, regOfAddr_of_mem hc hmem]
      rfl

end Sys2Proof.Machine
end

section
/-! PROOFS of the family `42_crc_sequence.md`: the checksum of one packet (R133), when a packet and a list of packets
are appended and which fault they raise otherwise (R135), and the `SQ.*` operations (R134, R136 to R138). -/

namespace Sys2Proof.Machine

/-! ## The checksum of a packet -/

/-- Without a reset word, absorbing a packet is folding its words (R133). -/
theorem absorb_eq_fold {c : Constants} {p : Packet} (h : ∀ w ∈ p.payload, ¬ ResetsCrc c p w) (acc : Word) :
    absorb c acc p = fold c.crcFunction acc (words c p) := by
  rw [absorb, absorbPayload_eq_fold h, words, fold]

/-- A word that is no reset command resets nothing (R133). -/
theorem not_resetsCrc_of_ne {c : Constants} {p : Packet} {v w : Word} (hcmd : c.crcResetCmd = some v) (hne : w ≠ v) :
    ¬ ResetsCrc c p w := by
  rintro ⟨hw, -⟩
  exact hne (Option.some.inj (hw.symm.trans hcmd))

/-- The last reset word of a payload forgets everything before it, the header included (R133). -/
theorem absorb_of_last_reset {c : Constants} {p : Packet} {pre post : List Word} {w : Word}
    (hsplit : p.payload = pre ++ w :: post) (hreset : ResetsCrc c p w) (hlast : w ∉ post) (acc : Word) :
    absorb c acc p = fold c.crcFunction c.crcInit post := by
  have quiet : ∀ v ∈ post, ¬ ResetsCrc c p v := fun v hv =>
    not_resetsCrc_of_ne hreset.1 (ne_of_mem_of_not_mem hv hlast)
  rw [absorb, hsplit, absorbPayload_append, absorbPayload, if_pos hreset, absorbPayload_eq_fold quiet]

/-- Settles O36: no reset word, or the last one; `fold_seq` is a left fold. -/
theorem absorbFoldsHeaderThenPayload : Obligations.AbsorbFoldsHeaderThenPayload := by
  refine ⟨fun c acc p => ⟨fun h => ?_, fun pre w post hsplit hop hreg hcmd hlast => ?_⟩,
    fun _ _ => rfl, fun _ _ _ _ => rfl, foldSeq_append⟩
  · exact absorb_eq_fold h acc
  · exact absorb_of_last_reset hsplit ⟨hcmd, hop, hreg⟩ hlast acc

/-! ## Part (1) of `append_packet`: the packet alone -/

/-- A Type-2 NOP, or a NOP with a register, is refused first (R135). -/
theorem checkPacket_of_nop {c : Constants} {p : Packet} (hnop : p.opcode = .nop)
    (hbad : p.htype = .t2 ∨ p.reg ≠ .none) : checkPacket c p = .error (.malformedPacket .nopWithRegister) := by
  by_cases ht : p.htype = .t2
  · rw [checkPacket, if_pos ⟨ht, hnop⟩]
  · rw [checkPacket, if_neg (fun h => ht h.1), if_pos ⟨hnop, hbad.resolve_left ht⟩]

theorem checkPacket_of_not_isRegister {c : Constants} {p : Packet} (hop : p.opcode ≠ .nop)
    (hreg : ¬ c.IsRegister p.reg) : checkPacket c p = .error .invalidRegister := by
  rw [checkPacket, if_neg (fun h => hop h.2), if_neg (fun h => hop h.1), if_pos ⟨hop, hreg⟩]

/-- A packet whose opcode and register agree is left to the check of its count (R135). -/
theorem checkPacket_eq_checkCount {c : Constants} {p : Packet} (hnop : p.opcode = .nop → p.htype = .t1 ∧ p.reg = .none)
    (hreg : p.opcode ≠ .nop → c.IsRegister p.reg) : checkPacket c p = checkCount p := by
  have notType2Nop : ¬ (p.htype = .t2 ∧ p.opcode = .nop) := by
    rintro ⟨ht, ho⟩
    exact absurd ((hnop ho).1.symm.trans ht) (by decide)
  rw [checkPacket, if_neg notType2Nop, if_neg (fun h => h.2 (hnop h.1).2), if_neg (fun h => h.2 (hreg h.1))]

/-- A length exceeds the count field of its header type (R9, R115). -/
theorem maxWords_lt_iff {t : HType} {n : Nat} :
    t.maxWords < n ↔ t = .t1 ∧ 2047 < n ∨ t = .t2 ∧ 134217727 < n := by
  cases t with
  | t1 => simp [HType.maxWords, t1MaxWords]
  | t2 => simp [HType.maxWords, t2MaxWords]

/-- A length fits the count field of its header type (R9, R115). -/
theorem le_maxWords_iff {t : HType} {n : Nat} :
    n ≤ t.maxWords ↔ (t = .t1 → n ≤ 2047) ∧ (t = .t2 → n ≤ 134217727) := by
  cases t with
  | t1 => simp [HType.maxWords, t1MaxWords]
  | t2 => simp [HType.maxWords, t2MaxWords]

/-! ## Part (2) of `append_packet`: the packet after the sequence -/

/-- A Type-2 packet after no packet, or after one that is not its header, is an orphan (R135). -/
theorem checkPairing_of_orphan {seq : List Packet} {p : Packet} (ht : p.htype = .t2)
    (horphan : ∀ q, seq.getLast? = some q → ¬ HeaderFor q p) :
    checkPairing seq p = .error (.malformedPacket .t2Orphan) := by
  rw [checkPairing, if_pos ht]
  cases hlast : seq.getLast? with
  | none => rfl
  | some q => exact if_neg (horphan q hlast)

theorem appendPacket_of_orphan {c : Constants} {p : Packet} {q : Stream} (hchecked : checkPacket c p = .ok ())
    (ht : p.htype = .t2) (horphan : ∀ h, q.seq.getLast? = some h → ¬ HeaderFor h p) :
    appendPacket c p q = .error (.malformedPacket .t2Orphan) := by
  simp only [appendPacket, hchecked, checkPairing_of_orphan ht horphan]

/-- In a paired sequence the packets before a Type-2 packet end in its header (R33 (I-a)). -/
theorem exists_header_of_paired {l ps : List Packet} {p : Packet} (hpaired : Safety.Paired (l ++ p :: ps))
    (ht : p.htype = .t2) : ∃ q, l.getLast? = some q ∧ HeaderFor q p := by
  obtain ⟨hpos, q, hq, hheader⟩ := hpaired l.length p (by simp) ht
  rw [List.getElem?_append_left (Nat.sub_one_lt_of_lt hpos), ← List.getLast?_eq_getElem?] at hq
  exact ⟨q, hq, hheader⟩

/-! ## Lists of packets -/

/-- Well-formed packets that keep the pairing are all appended (R135, R137). -/
theorem appendAll_of_paired {c : Constants} {ps : List Packet} {q : Stream}
    (hps : ∀ p ∈ ps, p.WellFormed c ∧ ¬ (p.htype = .t2 ∧ p.opcode = .nop)) (hpaired : Safety.Paired (q.seq ++ ps)) :
    appendAll c ps q = .ok ⟨q.seq ++ ps, foldSeq c q.acc ps⟩ := by
  induction ps generalizing q with
  | nil => simp [appendAll, foldSeq]
  | cons p ps ih =>
    have accepted : appendPacket c p q = .ok (commitPacket c p q) :=
      (appendPacket_ok_iff ..).mpr ⟨hps p (by simp), exists_header_of_paired hpaired, rfl⟩
    have rest := ih (q := commitPacket c p q) (fun x hx => hps x (by simp [hx])) (by simpa using hpaired)
    simp only [appendAll, accepted, rest, commitPacket_seq, commitPacket_acc, foldSeq, List.append_assoc,
      List.singleton_append]

/-- The first packet that is refused decides the fault, whatever stands behind it (R137, R195). -/
theorem appendAll_of_refused {c : Constants} {ps qs : List Packet} {p : Packet} {q q' : Stream} {f : BlockFault}
    (hbefore : appendAll c ps q = .ok q') (hp : appendPacket c p q' = .error f) :
    appendAll c (ps ++ p :: qs) q = .error f := by
  rw [appendAll_append, hbefore, Except.bind, appendAll, hp]

/-! ## How the operations end -/

theorem exec_sqAdd_of_none {s : State} (hpkt : s.pkt = none) :
    exec .sqAdd s = .next (raise (.illegalOperation .noPacket) s) := by
  rw [exec, execSqAdd, hpkt]

theorem exec_sqAdd_of_some {s : State} {p : Packet} {r : Except BlockFault Stream} (hpkt : s.pkt = some p)
    (happend : appendPacket s.consts p s.stream = r) :
    exec .sqAdd s = .next (completeAppend s r fun t => .acc t.acc) := by
  rw [exec, execSqAdd, hpkt, ← happend]

theorem exec_sqAddAll {s : State} {ps : List Packet} {r : Except BlockFault Stream}
    (happend : appendAll s.consts ps s.stream = r) :
    exec (.sqAddAll ps) s = .next (completeAppend s r fun t => .acc t.acc) := by
  rw [exec, execSqAddAll, happend]

theorem exec_sqCrcw {s : State} {r : Except BlockFault Stream} (happend : appendCrcWrite s.consts s.stream = r) :
    exec .sqCrcw s = .next (completeAppend s r fun t => .acc t.acc) := by
  rw [exec, execSqCrcw, happend]

/-! ## The operations -/

/-- Settles O39: no check of `SQ.NEW` can fail. -/
theorem newSequenceIsFresh : Obligations.NewSequenceIsFresh :=
  ⟨fun _ => rfl, fun _ => rfl⟩

/-- Settles O40: a staged packet passes part (1), so its pairing decides. -/
theorem addAppendsTheStagedPacket : Obligations.AddAppendsTheStagedPacket := by
  refine ⟨fun _ => rfl, fun s => ⟨fun hnone => ?_, fun p hpkt hwf hnop => ⟨fun hheader => ?_, fun ht horphan => ?_⟩⟩⟩
  · exact exec_sqAdd_of_none hnone
  · exact exec_sqAdd_of_some hpkt ((appendPacket_ok_iff ..).mpr ⟨⟨hwf, hnop⟩, hheader, rfl⟩)
  · exact exec_sqAdd_of_some hpkt (appendPacket_of_orphan ((checkPacket_ok_iff ..).mpr ⟨hwf, hnop⟩) ht horphan)

/-- Settles O41: an accepted list is appended whole; behind an accepted list the first failing check of the next packet
is the fault of the operation. -/
theorem addAllAppendsAllOrNothing : Obligations.AddAllAppendsAllOrNothing := by
  refine ⟨fun _ => rfl, fun s ps hps hpaired => exec_sqAddAll (appendAll_of_paired (q := s.stream) hps hpaired),
    fun s ps qs p hps hpaired => ?_⟩
  have before := appendAll_of_paired (q := s.stream) hps hpaired
  have refused : ∀ f, checkPacket s.consts p = .error f → exec (.sqAddAll (ps ++ p :: qs)) s = .next (raise f s) :=
    fun f hf => exec_sqAddAll (appendAll_of_refused before (appendPacket_error hf _))
  refine ⟨fun hnop hbad => ?_, fun hop hreg => ?_, fun hnop hreg hover => ?_,
    fun hnop hreg hfit1 hfit2 hlen hempty => ?_, fun hwf hop ht horphan => ?_⟩
  · exact refused _ (checkPacket_of_nop hnop hbad)
  · exact refused _ (checkPacket_of_not_isRegister hop hreg)
  · exact refused _ ((checkPacket_eq_checkCount hnop hreg).trans (checkCount_of_overflow (maxWords_lt_iff.mpr hover)))
  · exact refused _ ((checkPacket_eq_checkCount hnop hreg).trans
      (checkCount_of_mismatch (le_maxWords_iff.mpr ⟨hfit1, hfit2⟩) hlen hempty))
  · have checked : checkPacket s.consts p = .ok () := (checkPacket_ok_iff s.consts p).mpr ⟨hwf, fun h => hop h.2⟩
    exact exec_sqAddAll (appendAll_of_refused before (appendPacket_of_orphan checked ht horphan))

/-- A CRC write is no write to `CMD`, so it never resets the checksum (R138). -/
theorem absorb_crcWrite (c : Constants) (acc v : Word) :
    absorb c acc (writePacket "CRC" v) =
      crcStep c.crcFunction (crcStep c.crcFunction acc (header c (writePacket "CRC" v))) v := by
  have quiet : ∀ w ∈ (writePacket "CRC" v).payload, ¬ ResetsCrc c (writePacket "CRC" v) w := by
    rintro w - ⟨-, -, hreg⟩
    simp [writePacket] at hreg
  rw [absorb_eq_fold quiet]
  rfl

theorem appendCrcWrite_of_isRegister {c : Constants} (h : c.IsRegister (.named "CRC")) (q : Stream) :
    appendCrcWrite c q = .ok (commitPacket c (writePacket "CRC" q.acc) q) :=
  appendPacket_t1 (writePacket_wellFormed h q.acc) rfl q

/-- The header of a one-word write to address 0, WRITE coded 2 (R74). -/
theorem header_writePacket_of_addr_zero {c : Constants} {n : String} (haddr : c.addrOf? (.named n) = some 0#14)
    (hcode : c.opcodeCode.write = 2#2) (v : Word) : header c (writePacket n v) = 0x30000001#32 := by
  have hop : c.codeOf .write = 2#2 := hcode
  have hfield : regField c (.named n) = 0#14 := by rw [regField, haddr, Option.getD_some]
  simp only [header, writePacket, hop, hfield]
  decide

/-- Settles O43: the packet is the write of the accumulator before it, refused only for its register. -/
theorem crcWriteEmbedsTheAccumulator : Obligations.CrcWriteEmbedsTheAccumulator := by
  refine ⟨fun _ => rfl, fun s => ⟨fun hreg p a hp ha => ?_, fun hreg => ?_, fun haddr hcode => ?_⟩⟩
  · obtain rfl : p = writePacket "CRC" s.acc := hp
    rw [← absorb_crcWrite] at ha
    subst ha
    exact exec_sqCrcw (appendCrcWrite_of_isRegister hreg s.stream)
  · exact exec_sqCrcw (appendPacket_unknownRegister hreg s.acc s.stream)
  · exact header_writePacket_of_addr_zero haddr hcode s.acc

end Sys2Proof.Machine
end

section
/-! PROOFS of the family `43_config_spec.md`: the selection of a family (R154), the frame counts and the location of a
frame (R155, R156), the start of an enumeration and its next address (R158, R159). -/

namespace Sys2Proof.Machine

/-! ## The family table -/

/-- A family of a table with distinct families is what the lookup of its identifier gives (R151). -/
theorem family?_of_mem {c : Constants} (hc : c.WellFormed) {S : ConfigurationSpecification} (h : S ∈ c.familyTable) :
    c.family? S.family = some S := by
  obtain ⟨-, -, -, -, hfamilies⟩ := hc
  exact find?_key_of_mem hfamilies h

/-- An identifier that no entry has is not found (R154). -/
theorem family?_of_forall_ne {c : Constants} {f : String} (h : ∀ S ∈ c.familyTable, S.family ≠ f) :
    c.family? f = none :=
  List.find?_eq_none.mpr fun S hS => by simpa using h S hS

theorem exec_csResolve_of_some {s : State} {f : String} {S : ConfigurationSpecification}
    (h : s.consts.family? f = some S) :
    exec (.csResolve f) s = .next (succeed (.spec S.frameWords (S.blockTypes.map (·.name)) S.logicBt S.bramBt)
      { s with fam := some f, fa := Cursor.cleared }) := by
  simp only [exec, execCsResolve, h]

theorem exec_csResolve_of_none {s : State} {f : String} (h : s.consts.family? f = none) :
    exec (.csResolve f) s = .next (raise .unsupportedFamily s) := by
  simp only [exec, execCsResolve, h]

/-- Settles O44: distinct families make the search find the given entry; without an entry it finds nothing. -/
theorem resolveSelectsTheFamily : Obligations.ResolveSelectsTheFamily := by
  refine ⟨fun _ => rfl, fun s => ⟨fun hc S hS => ?_, fun f hf => ?_⟩⟩
  · exact exec_csResolve_of_some (family?_of_mem hc hS)
  · exact exec_csResolve_of_none (family?_of_forall_ne hf)

/-! ## Block type operands and frame counts -/

theorem blockTypeOperand_of_some {S : ConfigurationSpecification} {bt : Nat} {B : BlockType}
    (h : S.blockTypes[bt]? = some B) : blockTypeOperand S bt = .ok B := by
  rw [blockTypeOperand, h]

theorem blockTypeOperand_of_le {S : ConfigurationSpecification} {bt : Nat} (h : S.blockTypes.length ≤ bt) :
    blockTypeOperand S bt = .error (.illegalOperation .badOperand) := by
  rw [blockTypeOperand, List.getElem?_eq_none h]

theorem total_eq_sum (B : BlockType) : total B = (B.subtypes.map (·.fpcb)).sum :=
  sumFpcb_eq_sum B.subtypes

theorem exec_csTotal {s : State} {f : String} {S : ConfigurationSpecification} {bt : Nat}
    {r : Except BlockFault BlockType} (hf : s.fam = some f) (hS : s.consts.family? f = some S)
    (hbt : blockTypeOperand S bt = r) :
    exec (.csTotal bt) s = .next (complete s (r.map fun B => (s, .frames (total B)))) := by
  rw [exec, execCsTotal, withFamily_some hf hS, hbt]

/-- Settles O45: the index operand decides between the fault and the total of its block type. -/
theorem totalSumsTheSubtypes : Obligations.TotalSumsTheSubtypes := by
  refine ⟨fun _ => rfl, fun s bt hf => withFamily_none hf _, fun s f S bt hf hS => ⟨fun hbt => ?_, fun B hB => ?_⟩⟩
  · exact exec_csTotal hf hS (blockTypeOperand_of_le hbt)
  · rw [← total_eq_sum]
    exact exec_csTotal hf hS (blockTypeOperand_of_some hB)

/-! ## The location of a frame -/

/-- A frame below the total lies in the range of the subtype that `locate` names (R156). -/
theorem exists_locate_eq_ok {B : BlockType} {t : Nat} (h : t < (B.subtypes.map (·.fpcb)).sum) :
    ∃ sub x base, B.subtypes[sub]? = some x ∧ base = ((B.subtypes.take sub).map (·.fpcb)).sum ∧ base ≤ t ∧
      t - base < x.fpcb ∧ locate B t = .ok (sub, base, t - base) := by
  obtain ⟨-, found⟩ := locateFrom_spec t B.subtypes 0 0 (Nat.zero_le t)
  simp only [Nat.zero_add, sumFpcb_eq_sum] at found
  obtain ⟨sub, x, hx, hbase, hfrm, hwalk⟩ := found h
  exact ⟨sub, x, _, hx, rfl, hbase, by omega, by rw [locate, hwalk]⟩

/-- A frame at or above the total lies in no subtype (R156). -/
theorem locate_of_total_le {B : BlockType} {t : Nat} (h : (B.subtypes.map (·.fpcb)).sum ≤ t) :
    locate B t = .error (.frameIndexOutOfRange t) := by
  obtain ⟨exhausted, -⟩ := locateFrom_spec t B.subtypes 0 0 (Nat.zero_le t)
  rw [locate, exhausted (by rwa [Nat.zero_add, sumFpcb_eq_sum])]

section Locate

variable {s : State} {f : String} {S : ConfigurationSpecification} {bt col t : Nat}

theorem exec_csLocate_of_badOperand (hf : s.fam = some f) (hS : s.consts.family? f = some S)
    (hbt : S.blockTypes.length ≤ bt) :
    exec (.csLocate bt col t) s = .next (raise (.illegalOperation .badOperand) s) := by
  rw [exec, execCsLocate, withFamily_some hf hS, blockTypeOperand_of_le hbt, complete_error]

theorem exec_csLocate_of_ok {B : BlockType} {sub base frm : Nat} (hf : s.fam = some f)
    (hS : s.consts.family? f = some S) (hB : S.blockTypes[bt]? = some B) (hloc : locate B t = .ok (sub, base, frm)) :
    exec (.csLocate bt col t) s = .next (succeed (.frameAddr ⟨bt, col, sub, base, frm⟩) s) := by
  simp only [exec, execCsLocate, withFamily_some hf hS, blockTypeOperand_of_some hB, hloc, Except.map, complete_ok]

theorem exec_csLocate_of_error {B : BlockType} {e : BlockFault} (hf : s.fam = some f)
    (hS : s.consts.family? f = some S) (hB : S.blockTypes[bt]? = some B) (hloc : locate B t = .error e) :
    exec (.csLocate bt col t) s = .next (raise e s) := by
  simp only [exec, execCsLocate, withFamily_some hf hS, blockTypeOperand_of_some hB, hloc, Except.map, complete_error]

end Locate

/-- Settles O46: within the total the walk stops at the subtype that holds the frame, past it the walk runs off the
end. -/
theorem locateFindsTheSubtypeOfAFrame : Obligations.LocateFindsTheSubtypeOfAFrame := by
  refine ⟨fun _ => rfl, fun s bt col t hf => withFamily_none hf _, fun s f S bt col t hf hS =>
    ⟨exec_csLocate_of_badOperand hf hS, fun B hB => ⟨fun ht => ?_, fun ht => ?_⟩⟩⟩
  · obtain ⟨sub, x, base, hx, hbase, hle, hfrm, hlocate⟩ := exists_locate_eq_ok ht
    exact ⟨sub, x, base, hx, hbase, hle, hfrm, exec_csLocate_of_ok hf hS hB hlocate⟩
  · exact exec_csLocate_of_error hf hS hB (locate_of_total_le ht)

/-! ## The start of an enumeration -/

/-- The frames of a device as R158 writes them: column count times total, summed over the block types. -/
theorem deviceFrames_eq_sum (ncols : List Nat) (Bs : List BlockType) :
    deviceFrames ncols Bs = ((ncols.zip Bs).map fun kB => kB.1 * (kB.2.subtypes.map (·.fpcb)).sum).sum := by
  induction ncols generalizing Bs with
  | nil => rfl
  | cons n ns ih =>
    cases Bs with
    | nil => rfl
    | cons B Bs => rw [deviceFrames, ih, total_eq_sum, List.zip_cons_cons, List.map_cons, List.sum_cons]

theorem startCursor_of_noFrames {S : ConfigurationSpecification} {ncols : List Nat}
    (h : deviceFrames ncols S.blockTypes = 0) : startCursor S ncols = ⟨true, true, ncols, 0, 0, 0, 0⟩ := by
  simp [startCursor, doneAtStart, h]

theorem startCursor_of_frames {S : ConfigurationSpecification} {ncols : List Nat} {b : Nat}
    (h : 0 < deviceFrames ncols S.blockTypes) (hfirst : firstWithColumns ncols = some b) :
    startCursor S ncols = ⟨true, false, ncols, b, 0, 0, 0⟩ := by
  simp [startCursor, doneAtStart, h, h.ne', hfirst]

section Start

variable {s : State} {ncols : List Nat} {f : String} {S : ConfigurationSpecification}

theorem exec_faStart_of_badLength (hf : s.fam = some f) (hS : s.consts.family? f = some S)
    (hlen : ncols.length ≠ S.blockTypes.length) :
    exec (.faStart ncols) s = .next (raise (.illegalOperation .badOperand) s) := by
  rw [exec, execFaStart, withFamily_some hf hS, if_pos hlen]

theorem exec_faStart_of_cursor {fa : Cursor} {n : Nat} (hf : s.fam = some f) (hS : s.consts.family? f = some S)
    (hlen : ncols.length = S.blockTypes.length) (hn : deviceFrames ncols S.blockTypes = n)
    (hfa : startCursor S ncols = fa) :
    exec (.faStart ncols) s = .next (succeed (.frames n) { s with fa := fa }) := by
  rw [exec, execFaStart, withFamily_some hf hS, if_neg (not_not.mpr hlen), hn, hfa]

end Start

/-- Settles O48: the number of frames decides whether the cursor is done or stands on the first block type with
columns. -/
theorem startSetsTheCursor : Obligations.StartSetsTheCursor := by
  refine ⟨fun _ => rfl, fun s ncols hf => withFamily_none hf _, fun s ncols f S n hf hS hn =>
    ⟨exec_faStart_of_badLength hf hS, fun hlen hzero => ?_, fun hlen hpos b m hb hm hbefore => ?_⟩⟩
  all_goals rw [← deviceFrames_eq_sum] at hn
  · have noFrames : deviceFrames ncols S.blockTypes = 0 := hn ▸ hzero
    exact exec_faStart_of_cursor hf hS hlen noFrames (startCursor_of_noFrames noFrames)
  · have hfirst : firstWithColumns ncols = some b := firstWithColumns_eq_some.mpr ⟨⟨m, hb, hm⟩, hbefore⟩
    exact exec_faStart_of_cursor hf hS hlen hn.symm (startCursor_of_frames (hn ▸ hpos) hfirst)

/-! ## The next address -/

theorem cursorAddr_eq (B : BlockType) (fa : Cursor) :
    cursorAddr B fa = ⟨fa.bt, fa.col, fa.sub, ((B.subtypes.take fa.sub).map (·.fpcb)).sum, fa.frm⟩ := by
  rw [cursorAddr, sumFpcb_eq_sum]

/-! The five places of the cursor, in the order R159 tries them. -/

section Advance

variable {nsub fpcb ncol : Nat} {fa : Cursor}

theorem advanceCursor_nextFrame (h : fa.frm + 1 < fpcb) :
    advanceCursor nsub fpcb ncol fa = { fa with frm := fa.frm + 1 } := by
  rw [advanceCursor, if_pos h]

theorem advanceCursor_nextSubtype (hfrm : fpcb ≤ fa.frm + 1) (h : fa.sub + 1 < nsub) :
    advanceCursor nsub fpcb ncol fa = { fa with sub := fa.sub + 1, frm := 0 } := by
  rw [advanceCursor, if_neg hfrm.not_gt, if_pos h]

theorem advanceCursor_nextColumn (hfrm : fpcb ≤ fa.frm + 1) (hsub : nsub ≤ fa.sub + 1) (h : fa.col + 1 < ncol) :
    advanceCursor nsub fpcb ncol fa = { fa with col := fa.col + 1, sub := 0, frm := 0 } := by
  rw [advanceCursor, if_neg hfrm.not_gt, if_neg hsub.not_gt, if_pos h]

theorem advanceCursor_nextBlockType {b : Nat} (hfrm : fpcb ≤ fa.frm + 1) (hsub : nsub ≤ fa.sub + 1)
    (hcol : ncol ≤ fa.col + 1) (h : nextWithColumns fa.ncols fa.bt = some b) :
    advanceCursor nsub fpcb ncol fa = { fa with bt := b, col := 0, sub := 0, frm := 0 } := by
  rw [advanceCursor, if_neg hfrm.not_gt, if_neg hsub.not_gt, if_neg hcol.not_gt, h]

theorem advanceCursor_end (hfrm : fpcb ≤ fa.frm + 1) (hsub : nsub ≤ fa.sub + 1) (hcol : ncol ≤ fa.col + 1)
    (h : nextWithColumns fa.ncols fa.bt = none) :
    advanceCursor nsub fpcb ncol fa = { fa with done := true } := by
  rw [advanceCursor, if_neg hfrm.not_gt, if_neg hsub.not_gt, if_neg hcol.not_gt, h]

end Advance

theorem exec_faNext_of_inactive {s : State} (ha : s.fa.active = false) :
    exec .faNext s = .next (raise (.illegalOperation .faInactive) s) := by
  rw [exec, execFaNext, if_pos ha]

theorem exec_faNext_of_done {s : State} (ha : s.fa.active = true) (hd : s.fa.done = true) :
    exec .faNext s = .next (raise (.illegalOperation .faDone) s) := by
  rw [exec, execFaNext, if_neg (by simp [ha]), if_pos hd]

/-- Settles O49: at a cursor within the table the answer is the address there, and the place of the cursor decides the
advance; only the last of the five sets `done`. -/
theorem nextReturnsAndAdvances : Obligations.NextReturnsAndAdvances := by
  refine ⟨fun _ => rfl, fun s => ⟨exec_faNext_of_inactive, exec_faNext_of_done,
    fun f S B x n r ha hd hf hS hB hx hn hr => ?_⟩⟩
  have moves : ∀ fa last, advanceCursor B.subtypes.length x.fpcb n s.fa = fa → fa.done = last →
      exec .faNext s = .next (succeed (.frameAddrLast r last) { s with fa := fa }) := by
    rintro _ _ rfl rfl
    rw [hr, ← cursorAddr_eq]
    exact execFaNext_inTable ha hd hf hS hB hx hn
  refine ⟨fun hfrm => ?_, fun hfrm hsub => ?_, fun hfrm hsub hcol => ?_,
    fun hfrm hsub hcol => ⟨fun b m hlt hb hm hbetween => ?_, fun hnone => ?_⟩⟩
  · exact moves _ false (advanceCursor_nextFrame hfrm) hd
  · exact moves _ false (advanceCursor_nextSubtype hfrm hsub) hd
  · exact moves _ false (advanceCursor_nextColumn hfrm hsub hcol) hd
  · have hnext : nextWithColumns s.fa.ncols s.fa.bt = some b :=
      nextWithColumns_eq_some.mpr ⟨hlt, ⟨m, hb, hm⟩, hbetween⟩
    exact moves _ false (advanceCursor_nextBlockType hfrm hsub hcol hnext) hd
  · exact moves _ true (advanceCursor_end hfrm hsub hcol (nextWithColumns_eq_none.mpr hnone)) rfl

end Sys2Proof.Machine
end

section
/-! PROOFS of the family `44_family_generator.md`: the initial and the ending block (R172, R176), the frame data policy
(R174) and the partial phases (R178, R179). -/

namespace Sys2Proof.Machine

/-! ## Blocks of padding and one-word writes -/

/-- The packets a generator block is made of: padding and one-word writes (R172, R176). -/
def IsBlock (ps : List Packet) : Prop := ∀ p ∈ ps, p = nopPacket ∨ ∃ r v, p = writePacket r v

@[simp] theorem padding_length (n : Nat) : (padding n).length = n := List.length_replicate

@[simp] theorem isBlock_nil : IsBlock [] := by simp [IsBlock]

@[simp] theorem isBlock_padding (n : Nat) : IsBlock (padding n) :=
  fun _ hp => .inl (List.eq_of_mem_replicate hp)

@[simp] theorem isBlock_writePacket_cons (r : String) (v : Word) (ps : List Packet) :
    IsBlock (writePacket r v :: ps) ↔ IsBlock ps :=
  List.forall_mem_cons.trans (and_iff_right (.inr ⟨r, v, rfl⟩))

@[simp] theorem isBlock_append (ps qs : List Packet) : IsBlock (ps ++ qs) ↔ IsBlock ps ∧ IsBlock qs :=
  List.forall_mem_append

/-- The symbol of a register operand; the marker `NONE` has none (R13). -/
def regSymbol? : RegName → Option String
  | .none => none
  | .named n => some n

/-- The register names of a list of packets, in order. -/
def registerNames (ps : List Packet) : List String := ps.filterMap fun p => regSymbol? p.reg

@[simp] theorem registerNames_nil : registerNames [] = [] := rfl

@[simp] theorem registerNames_padding (n : Nat) : registerNames (padding n) = [] :=
  List.filterMap_eq_nil_iff.mpr fun _ hp => by rw [List.eq_of_mem_replicate hp]; rfl

@[simp] theorem registerNames_writePacket_cons (r : String) (v : Word) (ps : List Packet) :
    registerNames (writePacket r v :: ps) = r :: registerNames ps := rfl

@[simp] theorem registerNames_append (ps qs : List Packet) :
    registerNames (ps ++ qs) = registerNames ps ++ registerNames qs := List.filterMap_append

/-- The register names of a block are those its writes go to. -/
theorem mem_registerNames_iff {ps : List Packet} (hps : IsBlock ps) {r : String} :
    r ∈ registerNames ps ↔ ∃ v, writePacket r v ∈ ps := by
  rw [registerNames, List.mem_filterMap]
  constructor
  · rintro ⟨p, hp, hr⟩
    obtain rfl | ⟨r', v, rfl⟩ := hps p hp
    · cases hr
    · obtain rfl : r' = r := Option.some.inj hr
      exact ⟨v, hp⟩
  · rintro ⟨v, hv⟩
    exact ⟨_, hv, rfl⟩

/-- A block whose registers are all known is appended whole (R137, R172). -/
theorem appendAll_of_known {c : Constants} {ps : List Packet} (hps : IsBlock ps)
    (hknown : ∀ r ∈ registerNames ps, c.IsRegister (.named r)) (q : Stream) :
    appendAll c ps q = .ok ⟨q.seq ++ ps, foldSeq c q.acc ps⟩ := by
  refine appendAll_t1 (fun p hp => ?_) q
  obtain rfl | ⟨r, v, rfl⟩ := hps p hp
  · exact ⟨nopPacket_wellFormed c, rfl⟩
  · exact ⟨writePacket_wellFormed (hknown r ((mem_registerNames_iff hps).mpr ⟨v, hp⟩)) v, rfl⟩

/-- A block with an unknown register is refused (R135, R172). -/
theorem appendAll_of_unknown {c : Constants} {ps : List Packet} (hps : IsBlock ps)
    (hbad : ∃ r ∈ registerNames ps, ¬ c.IsRegister (.named r)) (q : Stream) :
    appendAll c ps q = .error .invalidRegister := by
  obtain ⟨r, hr, hunknown⟩ := hbad
  obtain ⟨v, hv⟩ := (mem_registerNames_iff hps).mp hr
  exact appendAll_unknownRegister hps ⟨r, v, hv, hunknown⟩ q

/-! ## How a generator operation ends -/

/-- A generator operation that succeeds returns the checksum and the packet count of the stream it leaves (R31). -/
theorem completeAppend_accNpkt {s : State} {q : Stream} {n : Nat} (hn : q.seq.length = n) :
    completeAppend s (.ok q) accNpktResult = succeed (.accNpkt q.acc n) (s.withStream q) := by
  subst hn
  rfl

theorem exec_gnInit {s : State} {f : String} {S : ConfigurationSpecification} {idcode : Word}
    {r : Except BlockFault Stream} (hf : s.fam = some f) (hS : s.consts.family? f = some S)
    (happend : appendAll s.consts (initBlock S.generator idcode) (.fresh s.consts) = r) :
    exec (.gnInit idcode) s = .next (completeAppend s r accNpktResult) := by
  rw [exec, execGnInit, withFamily_some hf hS, happend]

theorem exec_gnFdri_of_overflow {l : List Word} (hl : t2MaxWords < l.length) (s : State) :
    exec (.gnFdri l) s = .next (raise (.packetOverflow l.length) s) := by
  rw [exec, execGnFdri, if_pos hl]

theorem exec_gnFdri {s : State} {l : List Word} {r : Except BlockFault Stream} (hl : l.length ≤ t2MaxWords)
    (happend : appendAll s.consts (fdriBlock l) s.stream = r) :
    exec (.gnFdri l) s = .next (completeAppend s r accNpktResult) := by
  rw [exec, execGnFdri, if_neg hl.not_gt, happend]

theorem exec_gnEnd {s : State} {f : String} {S : ConfigurationSpecification} {r : Except BlockFault Stream}
    (hf : s.fam = some f) (hS : s.consts.family? f = some S)
    (happend : appendEndBlock s.consts S.generator s.stream = r) :
    exec .gnEnd s = .next (completeAppend s r accNpktResult) := by
  rw [exec, execGnEnd, withFamily_some hf hS, happend]

/-! ## The initial block -/

/-- The initial block with its eight writes in one list (R172). -/
theorem initBlock_eq (g : GenRec) (idcode : Word) :
    initBlock g idcode = padding g.nSyncNop ++
      [writePacket "WBSTAR" g.wbstarReset, writePacket "TIMER" g.timerReset, writePacket g.calReg g.calReset,
        writePacket g.corReg g.corValue, writePacket "IDCODE" idcode, writePacket "CMD" g.cmdSwitch,
        writePacket "MASK" g.initMask, writePacket g.initCtlReg g.initCtl] ++ padding g.nInitPad := by
  simp [initBlock]

theorem isBlock_initBlock (g : GenRec) (idcode : Word) : IsBlock (initBlock g idcode) := by
  simp [initBlock]

theorem registerNames_initBlock (g : GenRec) (idcode : Word) :
    registerNames (initBlock g idcode) =
      ["WBSTAR", "TIMER", g.calReg, g.corReg, "IDCODE", "CMD", "MASK", g.initCtlReg] := by
  simp [initBlock]

theorem initBlock_length (g : GenRec) (idcode : Word) :
    (initBlock g idcode).length = g.nSyncNop + 8 + g.nInitPad := by
  rw [initBlock_eq, List.length_append, List.length_append, padding_length, padding_length]
  rfl

/-- Settles O51: the listed packets are the initial block, and its register names decide whether a fresh sequence
takes it. -/
theorem initialBlockIsAsListed : Obligations.InitialBlockIsAsListed := by
  refine ⟨fun _ => rfl, fun s idcode hf => withFamily_none hf _, ?_⟩
  intro s idcode f S g nop W L regs hf hS hg hnop hW hL hregs
  subst hg
  obtain rfl : nop = nopPacket := hnop
  obtain rfl : W = writePacket := funext₂ hW
  obtain rfl : L = initBlock S.generator idcode := hL.trans (initBlock_eq ..).symm
  obtain rfl : regs = registerNames (initBlock S.generator idcode) := hregs.trans (registerNames_initBlock ..).symm
  have block := isBlock_initBlock S.generator idcode
  refine ⟨fun hknown => ?_, fun hbad => ?_⟩
  · rw [exec_gnInit hf hS (appendAll_of_known block hknown _),
      completeAppend_accNpkt (initBlock_length S.generator idcode)]
    rfl
  · exact exec_gnInit hf hS (appendAll_of_unknown block hbad _)

/-! ## Frame data -/

/-- A write of frame data whose count the field of its header type holds (R174). -/
theorem fdriPacket_wellFormed {c : Constants} {t : HType} {l : List Word} (hreg : c.IsRegister (.named "FDRI"))
    (hfit : l.length ≤ t.maxWords) : (⟨t, .write, .named "FDRI", l.length, l⟩ : Packet).WellFormed c := by
  obtain ⟨hfit1, hfit2⟩ := le_maxWords_iff.mp hfit
  exact ⟨fun _ => rfl, by simp, hfit1, hfit2, by simp, fun _ => hreg⟩

theorem fdriBlock_of_lt {l : List Word} (h : l.length < fdriT1Threshold) :
    fdriBlock l = [⟨.t1, .write, .named "FDRI", l.length, l⟩] := by
  rw [fdriBlock, if_pos h]

theorem fdriBlock_of_le {l : List Word} (h : fdriT1Threshold ≤ l.length) :
    fdriBlock l = [⟨.t1, .write, .named "FDRI", 0, []⟩, ⟨.t2, .write, .named "FDRI", l.length, l⟩] := by
  rw [fdriBlock, if_neg h.not_gt]

/-- Either way the first packet of frame data is a write to `FDRI` (R174). -/
theorem exists_fdriBlock_eq_cons (l : List Word) :
    ∃ t n payload ps, fdriBlock l = ⟨t, .write, .named "FDRI", n, payload⟩ :: ps := by
  obtain h | h := lt_or_ge l.length fdriT1Threshold
  · exact ⟨_, _, _, _, fdriBlock_of_lt h⟩
  · exact ⟨_, _, _, _, fdriBlock_of_le h⟩

/-- A packet behind its own header is appended with it, whatever stands before the two (R135). -/
theorem appendAll_pair {c : Constants} {h p : Packet} (hh : h.WellFormed c) (hp : p.WellFormed c)
    (hop : p.opcode ≠ .nop) (hheader : HeaderFor h p) (q : Stream) :
    appendAll c [h, p] q = .ok ⟨q.seq ++ [h, p], foldSeq c q.acc [h, p]⟩ := by
  have first := appendPacket_t1 hh hheader.1 q
  have second : appendPacket c p (commitPacket c h q) = .ok (commitPacket c p (commitPacket c h q)) :=
    (appendPacket_ok_iff ..).mpr
      ⟨⟨hp, fun hnop => hop hnop.2⟩, fun _ => ⟨h, List.getLast?_concat, hheader⟩, rfl⟩
  have accepted : appendAll c [h, p] q = .ok (commitPacket c p (commitPacket c h q)) := by
    simp only [appendAll, first, second]
  rw [accepted, appendAll_ok accepted]

/-- Frame data of at most `T2_MAX_WORDS` words is appended after any sequence: the threshold lies within the Type-1
field, and a Type-2 packet stands behind its own header (R135, R174). -/
theorem appendAll_fdriBlock {c : Constants} {l : List Word} (hreg : c.IsRegister (.named "FDRI"))
    (hfit : l.length ≤ t2MaxWords) (q : Stream) :
    appendAll c (fdriBlock l) q = .ok ⟨q.seq ++ fdriBlock l, foldSeq c q.acc (fdriBlock l)⟩ := by
  obtain h | h := lt_or_ge l.length fdriT1Threshold
  · have hfit1 : l.length ≤ HType.t1.maxWords := h.le.trans (by decide)
    rw [fdriBlock_of_lt h]
    exact appendAll_t1 (by simpa using fdriPacket_wellFormed hreg hfit1) q
  · have header : (⟨.t1, .write, .named "FDRI", 0, []⟩ : Packet).WellFormed c :=
      fdriPacket_wellFormed (l := []) hreg (Nat.zero_le _)
    have data : (⟨.t2, .write, .named "FDRI", l.length, l⟩ : Packet).WellFormed c :=
      fdriPacket_wellFormed hreg hfit
    rw [fdriBlock_of_le h]
    exact appendAll_pair header data (by simp) ⟨rfl, rfl, rfl⟩ q

theorem appendAll_fdriBlock_of_unknown {c : Constants} (hreg : ¬ c.IsRegister (.named "FDRI")) (l : List Word)
    (q : Stream) : appendAll c (fdriBlock l) q = .error .invalidRegister := by
  obtain ⟨t, n, payload, ps, hblock⟩ := exists_fdriBlock_eq_cons l
  rw [hblock]
  exact appendAll_of_refused (ps := []) rfl (appendPacket_error (checkPacket_of_not_isRegister (by simp) hreg) q)

/-- Settles O53: the length picks the block or the overflow, and the register table whether the block is taken. -/
theorem frameDataPolicy : Obligations.FrameDataPolicy := by
  refine ⟨fun _ => rfl, fun s l => ⟨fun hreg hshort L hL => ?_, fun hreg hlong hfit L hL => ?_, fun hover => ?_,
    fun hreg hfit => ?_⟩⟩
  · obtain rfl : L = fdriBlock l := hL.trans (fdriBlock_of_lt hshort).symm
    have hfit : l.length ≤ t2MaxWords := hshort.le.trans (by decide)
    rw [exec_gnFdri hfit (appendAll_fdriBlock hreg hfit s.stream),
      completeAppend_accNpkt (n := s.npkt + 1) (by simp [hL, State.npkt])]
    rfl
  · obtain rfl : L = fdriBlock l := hL.trans (fdriBlock_of_le hlong).symm
    rw [exec_gnFdri hfit (appendAll_fdriBlock hreg hfit s.stream),
      completeAppend_accNpkt (n := s.npkt + 2) (by simp [hL, State.npkt])]
    rfl
  · exact exec_gnFdri_of_overflow hover s
  · exact exec_gnFdri hfit (appendAll_fdriBlock_of_unknown hreg l s.stream)

/-! ## The ending block -/

/-- Steps 1 to 8 of the ending block, `acc` being the accumulator before it (R176). -/
def endBlockHead (g : GenRec) (acc : Word) : List Packet := writePacket "CRC" acc :: endBlockMiddle g

/-- Steps 9 to 11 of the ending block, `acc` being the accumulator after its head (R176). -/
def endBlockRest (g : GenRec) (acc : Word) : List Packet := writePacket "CRC" acc :: endBlockTail g

/-- The ending block is two lists, each begun by the CRC commit of the accumulator at its own moment (R176). -/
theorem appendEndBlock_eq_bind (c : Constants) (g : GenRec) (q : Stream) :
    appendEndBlock c g q = (appendAll c (endBlockHead g q.acc) q).bind fun q' =>
      appendAll c (endBlockRest g q'.acc) q' := by
  simp only [appendEndBlock, appendCrcWrite, endBlockHead, endBlockRest, appendAll]
  cases appendPacket c (writePacket "CRC" q.acc) q with
  | error f => rfl
  | ok q1 =>
    dsimp only
    cases appendAll c (endBlockMiddle g) q1 with
    | error f => rfl
    | ok q2 => rfl

theorem isBlock_endBlockHead (g : GenRec) (acc : Word) : IsBlock (endBlockHead g acc) := by
  simp [endBlockHead, endBlockMiddle]

theorem isBlock_endBlockRest (g : GenRec) (acc : Word) : IsBlock (endBlockRest g acc) := by
  simp [endBlockRest, endBlockTail]

/-- The head already writes to every register the ending block uses, so an unknown one is met before the second
commit. -/
theorem mem_registerNames_endBlockHead {g : GenRec} {acc : Word} {r : String} :
    r ∈ registerNames (endBlockHead g acc) ↔ r ∈ ["CRC", "CMD", "FAR", "MASK", g.endCtlReg] := by
  simp [endBlockHead, endBlockMiddle]

theorem registerNames_endBlockRest_subset (g : GenRec) (acc acc' : Word) :
    registerNames (endBlockRest g acc') ⊆ registerNames (endBlockHead g acc) := by
  simp [endBlockRest, endBlockTail, endBlockHead, endBlockMiddle]

/-- The whole ending block after a sequence with accumulator `acc` (R176). -/
def endBlock (c : Constants) (g : GenRec) (acc : Word) : List Packet :=
  endBlockHead g acc ++ endBlockRest g (foldSeq c acc (endBlockHead g acc))

theorem endBlock_length (c : Constants) (g : GenRec) (acc : Word) :
    (endBlock c g acc).length = 8 + g.nEndPad1 + g.nEndPad2 + g.nEndTrail := by
  simp only [endBlock, endBlockHead, endBlockMiddle, endBlockRest, endBlockTail, List.length_append,
    List.length_cons, List.length_nil, padding_length]
  omega

theorem appendEndBlock_of_known {c : Constants} {g : GenRec} {q : Stream}
    (hknown : ∀ r ∈ registerNames (endBlockHead g q.acc), c.IsRegister (.named r)) :
    appendEndBlock c g q = .ok ⟨q.seq ++ endBlock c g q.acc, foldSeq c q.acc (endBlock c g q.acc)⟩ := by
  rw [appendEndBlock_eq_bind, appendAll_of_known (isBlock_endBlockHead g q.acc) hknown, Except.bind,
    appendAll_of_known (isBlock_endBlockRest g _) fun r hr => hknown r (registerNames_endBlockRest_subset _ _ _ hr),
    endBlock, List.append_assoc, foldSeq_append]

theorem appendEndBlock_of_unknown {c : Constants} {g : GenRec} {q : Stream}
    (hbad : ∃ r ∈ registerNames (endBlockHead g q.acc), ¬ c.IsRegister (.named r)) :
    appendEndBlock c g q = .error .invalidRegister := by
  rw [appendEndBlock_eq_bind, appendAll_of_unknown (isBlock_endBlockHead g q.acc) hbad, Except.bind]

/-- Settles O54: the listed packets are the head and the rest of the ending block, and the register names of the head
decide whether the sequence takes them. -/
theorem endingBlockIsAsListed : Obligations.EndingBlockIsAsListed := by
  refine ⟨fun _ => rfl, fun s hf => withFamily_none hf _, ?_⟩
  intro s f S g nop W L1 L regs hf hS hg hnop hW hL1 hL hregs
  subst hg hregs
  obtain rfl : nop = nopPacket := hnop
  obtain rfl : W = writePacket := funext₂ hW
  obtain rfl : L1 = endBlockHead S.generator s.acc := by simp [hL1, endBlockHead, endBlockMiddle, padding]
  obtain rfl : L = endBlock s.consts S.generator s.acc := by simp [hL, endBlock, endBlockRest, endBlockTail, padding]
  simp only [← mem_registerNames_endBlockHead (acc := s.acc)]
  refine ⟨fun hknown => ?_, fun hbad => ?_⟩
  · rw [exec_gnEnd hf hS (appendEndBlock_of_known hknown), completeAppend_accNpkt
      (n := s.npkt + (8 + S.generator.nEndPad1 + S.generator.nEndPad2 + S.generator.nEndTrail))
      (by simp [endBlock_length, State.npkt])]
    rfl
  · exact exec_gnEnd hf hS (appendEndBlock_of_unknown hbad)

/-! ## The partial phases -/

/-- Settles O55: neither operation has another branch than its fault. -/
theorem partialPhasesAlwaysFault : Obligations.PartialPhasesAlwaysFault :=
  ⟨fun _ => ⟨rfl, rfl⟩, fun _ _ => ⟨rfl, rfl⟩⟩

end Sys2Proof.Machine
end

section
/-! PROOFS of the family `60_exceptions.md`: how every operation ends (R193). -/

namespace Sys2Proof.Machine

/-- Of the eight kinds of next state one is a fault raised in the state before; the other seven are successes, each of
some effect on it (R193). -/
theorem Effect.eq_raise_or_eq_succeed {i : Instr} {s t : State} (h : Effect i s t) :
    (∃ f, t = raise f s) ∨ ∃ v u, t = succeed v u := by
  cases h with
  | raised f => exact .inl ⟨f, rfl⟩
  | reported | staged | appended | freshened | resolved | started | advanced => exact .inr ⟨_, _, rfl⟩

/-- Settles O14: a success clears the latch whatever its effect, and a fault is raised in the state before. -/
theorem everyOperationEndsInSuccessOrOneFault : Obligations.EveryOperationEndsInSuccessOrOneFault := by
  intro i s t h
  obtain ⟨f, rfl⟩ | ⟨v, u, rfl⟩ := (exec_effect h).eq_raise_or_eq_succeed
  · exact .inr ⟨f, rfl⟩
  · exact .inl ⟨succeed_lasterr v u, succeed_lastinfo v u, v, succeed_result v u⟩

end Sys2Proof.Machine
end

section
/-! PROOFS of the family `70_reset_and_hazards.md`: what no step changes (R221). -/

namespace Sys2Proof.Machine

/-- No kind of next state of an instruction writes the constants: each updates other fields of the state before (R28). -/
theorem Effect.consts_eq {i : Instr} {s t : State} (h : Effect i s t) : t.consts = s.consts := by
  cases h with
  | raised f => exact raise_consts f s
  | reported v => exact succeed_consts v s
  | appended ps v | freshened ps v => rw [succeed_consts, withStream_consts]
  | staged | resolved | started | advanced => rw [succeed_consts]

@[simp] theorem rejectTransaction_consts (e : DecodeError) (s : State) :
    (rejectTransaction e s).consts = s.consts := by
  obtain ⟨f, h⟩ | ⟨v, h⟩ := rejectTransaction_cases e s
  · rw [h, raise_consts]
  · rw [h, succeed_consts]

/-- Settles O16: idling keeps the whole state, and taking a move only shortens what the host presents, whether it is a
reset, an instruction or a transaction that is none. -/
theorem constantsNeverChange : Obligations.ConstantsNeverChange := by
  intro s t h
  obtain ⟨-, rfl⟩ | ⟨rest, -, rfl⟩ | ⟨rest, x, i, -, -, hexec⟩ | ⟨rest, x, e, -, -, rfl⟩ := step_cases h
  · rfl
  · rw [resetBlock_consts]
  · exact (exec_effect hexec).consts_eq
  · rw [rejectTransaction_consts]

end Sys2Proof.Machine
end

section
/-! PROOFS of the family `other`, encoding: decoding undoes encoding for every instruction and header word (R71 to R75,
R80), and a reader cuts a word stream back into its packets (R76). -/

namespace Sys2Proof.Machine

/-! ## Instructions and transactions -/

/-- Settles O2: one round trip per row of the opcode table. -/
theorem decodeOfEncodeIsTheInstruction : Obligations.DecodeOfEncodeIsTheInstruction := by
  intro i
  cases i with
  | t1Nop reg rsvd wc => exact Laws.RoundTrip.t1Nop reg rsvd wc
  | t1Read reg rsvd wc => exact Laws.RoundTrip.t1Read reg rsvd wc
  | t1Write reg rsvd wc => exact Laws.RoundTrip.t1Write reg rsvd wc
  | t1Reserved reg rsvd wc => exact Laws.RoundTrip.t1Reserved reg rsvd wc
  | t2Nop wc => exact Laws.RoundTrip.t2Nop wc
  | t2Read wc => exact Laws.RoundTrip.t2Read wc
  | t2Write wc => exact Laws.RoundTrip.t2Write wc
  | t2Reserved wc => exact Laws.RoundTrip.t2Reserved wc
  | lkReg name => exact Laws.RoundTrip.lkReg name
  | lkOp name => exact Laws.RoundTrip.lkOp name
  | pkNop => exact Laws.RoundTrip.pkNop
  | pkW1 o r v => exact Laws.RoundTrip.pkW1 o r v
  | pkT1 o r n l => exact Laws.RoundTrip.pkT1 o r n l
  | pkT2 o r n l => exact Laws.RoundTrip.pkT2 o r n l
  | decHdr w => exact Laws.RoundTrip.decHdr w
  | sqNew => exact Laws.RoundTrip.sqNew
  | sqAdd => exact Laws.RoundTrip.sqAdd
  | sqAddAll ps => exact Laws.RoundTrip.sqAddAll ps
  | sqCrcw => exact Laws.RoundTrip.sqCrcw
  | csResolve f => exact Laws.RoundTrip.csResolve f
  | csTotal bt => exact Laws.RoundTrip.csTotal bt
  | csLocate bt col t => exact Laws.RoundTrip.csLocate bt col t
  | faStart l => exact Laws.RoundTrip.faStart l
  | faNext => exact Laws.RoundTrip.faNext
  | gnInit w => exact Laws.RoundTrip.gnInit w
  | gnFdri l => exact Laws.RoundTrip.gnFdri l
  | gnEnd => exact Laws.RoundTrip.gnEnd
  | gnInitp w => exact Laws.RoundTrip.gnInitp w
  | gnEndp => exact Laws.RoundTrip.gnEndp

/-- Settles O1: the decoder evaluated on each of the listed words and codes. -/
theorem specWordsDecode : Obligations.SpecWordsDecode := by
  unfold Obligations.SpecWordsDecode
  decide

/-! ## Header words -/

/-- The four values of an opcode field (R73). -/
theorem opcodeField_cases (v : BitVec 2) : v = 0#2 ∨ v = 1#2 ∨ v = 2#2 ∨ v = 3#2 := by
  revert v
  decide

theorem encode_t1Instr (opc : BitVec 2) (reg : BitVec 14) (rsvd : BitVec 2) (wc : BitVec 11) :
    encode (t1Instr opc reg rsvd wc) = .headerWord (t1Word opc reg rsvd wc) := by
  obtain rfl | rfl | rfl | rfl := opcodeField_cases opc
  all_goals rfl

theorem encode_t2Instr (opc : BitVec 2) (wc : BitVec 27) : encode (t2Instr opc wc) = .headerWord (t2Word opc wc) := by
  obtain rfl | rfl | rfl | rfl := opcodeField_cases opc
  all_goals rfl

/-- A header word of type 1 or 2 decodes to an instruction that encodes to it; any other to none (R75, R77). -/
theorem decodeHeader_cases (w : Word) :
    (w.toNat / 2 ^ 29 = 1 ∨ w.toNat / 2 ^ 29 = 2) ∧ (∃ i, decodeHeader w = .ok i ∧ encode i = .headerWord w) ∨
    ¬ (w.toNat / 2 ^ 29 = 1 ∨ w.toNat / 2 ^ 29 = 2) ∧ decodeHeader w = .error (.otherHeader (hdrType w)) := by
  have type1 : hdrType w = 1#3 ↔ w.toNat / 2 ^ 29 = 1 := hdrType_eq_iff w 1#3
  have type2 : hdrType w = 2#3 ↔ w.toNat / 2 ^ 29 = 2 := hdrType_eq_iff w 2#3
  rw [← type1, ← type2]
  by_cases h1 : hdrType w = 1#3
  · exact .inl ⟨.inl h1, _, by rw [decodeHeader, if_pos h1], by rw [encode_t1Instr, t1Word_of_fields h1]⟩
  by_cases h2 : hdrType w = 2#3
  · exact .inl ⟨.inr h2, _, by rw [decodeHeader, if_neg h1, if_pos h2], by rw [encode_t2Instr, t2Word_of_fields h2]⟩
  · exact .inr ⟨not_or.mpr ⟨h1, h2⟩, by rw [decodeHeader, if_neg h1, if_neg h2]⟩

/-- Settles O3: both halves by the type field of the word. -/
theorem headerWordsDecodeExactly : Obligations.HeaderWordsDecodeExactly := by
  intro w
  obtain ⟨htype, i, hdecode, hencode⟩ | ⟨htype, hdecode⟩ := decodeHeader_cases w
  · refine ⟨iff_of_true ⟨i, hdecode⟩ htype, fun j hj => ?_⟩
    obtain rfl : i = j := Except.ok.inj (hdecode.symm.trans hj)
    exact hencode
  · have none_decodes : ∀ i, decode (.headerWord w) ≠ .ok i := fun i hi => nomatch hdecode.symm.trans hi
    exact ⟨iff_of_false (fun ⟨i, hi⟩ => none_decodes i hi) htype, fun i hi => absurd hi (none_decodes i)⟩

/-- Settles O10: the word decodes to no instruction, and rejecting it reports its type. -/
theorem otherHeaderWordIsReported : Obligations.OtherHeaderWordIsReported := by
  intro s w rest hhost h1 h2
  obtain ⟨htype, -⟩ | ⟨-, hdecode⟩ := decodeHeader_cases w
  · exact absurd htype (not_or.mpr ⟨h1, h2⟩)
  · rw [step_of_decode_error (x := .headerWord w) hhost hdecode, hdrType, extractLsb'_eq_ofNat_quotient]
    rfl

@[simp] theorem decHdr_t2Word (c : Constants) (opc : BitVec 2) (wc : BitVec 27) :
    decHdr c (t2Word opc wc) = .t2 (c.nameOfOpc opc) wc := by
  simp [decHdr]

theorem presentHeader_t1Word (opc : BitVec 2) (reg : BitVec 14) (rsvd : BitVec 2) (wc : BitVec 11) (s : State) :
    presentHeader (t1Word opc reg rsvd wc) s =
      succeed (.header (.t1 (s.consts.nameOfOpc opc) reg rsvd wc) (some (s.consts.regOfAddr reg))) s := by
  rw [presentHeader, decHdr_t1Word, DecHdr.regname]

theorem presentHeader_t2Word (opc : BitVec 2) (wc : BitVec 27) (s : State) :
    presentHeader (t2Word opc wc) s = succeed (.header (.t2 (s.consts.nameOfOpc opc) wc) none) s := by
  rw [presentHeader, decHdr_t2Word, DecHdr.regname]

/-- Settles O33: each row presents the word made of its fields. -/
theorem headerWordRowsShowTheirFields : Obligations.HeaderWordRowsShowTheirFields := by
  intro s reg rsvd wc wc2 t1 t2 ht1 ht2
  have row1 : ∀ opc, Host.Outcome.next (presentHeader (t1Word opc reg rsvd wc) s) =
      (.next (t1 (s.consts.nameOfOpc opc)) : Host.Outcome State Fault Refusal) := fun opc => by
    rw [presentHeader_t1Word, ht1]
    rfl
  have row2 : ∀ opc, Host.Outcome.next (presentHeader (t2Word opc wc2) s) =
      (.next (t2 (s.consts.nameOfOpc opc)) : Host.Outcome State Fault Refusal) := fun opc => by
    rw [presentHeader_t2Word, ht2]
    rfl
  refine ⟨row1 0#2, row1 1#2, row1 2#2, row1 3#2, row2 0#2, row2 1#2, row2 2#2, row2 3#2, fun hcodes => ?_⟩
  simp [Constants.nameOfOpc, hcodes]

/-! ## The tables backwards -/

/-- Only a name of the table has an address, and the table holds the pair (R78, R100). -/
theorem mem_of_addrOf?_eq_some {c : Constants} {r : RegName} {a : BitVec 14} (h : c.addrOf? r = some a) :
    ∃ n, r = .named n ∧ (n, a) ∈ c.regAddr := by
  cases r with
  | none => rw [addrOf?_none] at h; cases h
  | named n =>
    obtain ⟨⟨n', a'⟩, hfind, rfl⟩ := Option.map_eq_some_iff.mp h
    obtain rfl : n' = n := by simpa using List.find?_some hfind
    exact ⟨n', rfl, List.mem_of_find?_eq_some hfind⟩

/-- The search by the address of a register finds the register (R103). -/
theorem regOfAddr_of_addrOf? {c : Constants} (hc : c.WellFormed) {r : RegName} {a : BitVec 14}
    (h : c.addrOf? r = some a) : c.regOfAddr a = r := by
  obtain ⟨n, rfl, hmem⟩ := mem_of_addrOf?_eq_some h
  exact regOfAddr_of_mem hc hmem

/-- `OPCODE_CODE` undoes `name_of_opc`: four distinct codes leave no 2-bit value over (R73, R103). -/
theorem codeOf_nameOfOpc {c : Constants} (hc : c.WellFormed) (v : BitVec 2) : c.codeOf (c.nameOfOpc v) = v := by
  obtain ⟨-, -, hcodes, -⟩ := hc
  have fourValues : ∀ x : BitVec 2, x ∈ [0#2, 1#2, 2#2, 3#2] := fun x => by simpa using opcodeField_cases x
  have everyValue : v ∈ [c.opcodeCode.nop, c.opcodeCode.read, c.opcodeCode.write, c.opcodeCode.reserved] :=
    ((hcodes.subperm fun x _ => fourValues x).perm_of_length_le le_rfl).mem_iff.mpr (fourValues v)
  simp only [List.mem_cons, List.not_mem_nil, or_false] at everyValue
  unfold Constants.nameOfOpc
  split_ifs with h1 h2 h3
  · exact h1.symm
  · exact h2.symm
  · exact h3.symm
  · exact (((everyValue.resolve_left h1).resolve_left h2).resolve_left h3).symm

/-- Settles O26: each lookup has a left inverse, so it is injective. -/
theorem lookupsAreInjective : Obligations.LookupsAreInjective := by
  refine fun c hc => ⟨fun r r' a h h' => ?_, fun n a => regOfAddr_of_addrOf? hc, nameOfOpc_codeOf hc,
    codeOf_nameOfOpc hc⟩
  rw [← regOfAddr_of_addrOf? hc h, ← regOfAddr_of_addrOf? hc h']

/-! ## The header of a packet, decoded -/

theorem decHdr_header_of_t1 {c : Constants} (hc : c.WellFormed) {p : Packet} (ht : p.htype = .t1) :
    decHdr c (header c p) = .t1 p.opcode (regField c p.reg) 0#2 (BitVec.ofNat 11 p.count) := by
  simp only [header, ht, decHdr_t1Word, nameOfOpc_codeOf hc]

theorem decHdr_header_of_t2 {c : Constants} (hc : c.WellFormed) {p : Packet} (ht : p.htype = .t2) :
    decHdr c (header c p) = .t2 p.opcode (BitVec.ofNat 27 p.count) := by
  simp only [header, ht, decHdr_t2Word, nameOfOpc_codeOf hc]

/-- The count field of a well-formed Type-1 packet holds its count (R32 (c)). -/
theorem count_toNat_of_t1 {c : Constants} {p : Packet} (hp : p.WellFormed c) (ht : p.htype = .t1) :
    (BitVec.ofNat 11 p.count).toNat = p.count := by
  obtain ⟨-, -, hcount, -⟩ := hp
  exact (BitVec.toNat_ofNat ..).trans (Nat.mod_eq_of_lt (Nat.lt_succ_of_le (hcount ht)))

/-- The count field of a well-formed Type-2 packet holds its count (R32 (d)). -/
theorem count_toNat_of_t2 {c : Constants} {p : Packet} (hp : p.WellFormed c) (ht : p.htype = .t2) :
    (BitVec.ofNat 27 p.count).toNat = p.count := by
  obtain ⟨-, -, -, hcount, -⟩ := hp
  exact (BitVec.toNat_ofNat ..).trans (Nat.mod_eq_of_lt (Nat.lt_succ_of_le (hcount ht)))

/-- Settles O5: the decoder reads the fields the header is made of, and the count field holds the count. -/
theorem decHdrInvertsHeader : Obligations.DecHdrInvertsHeader := fun _ _ hc hp =>
  ⟨fun ht => ⟨_, count_toNat_of_t1 hp ht, decHdr_header_of_t1 hc ht⟩,
    fun ht => ⟨_, count_toNat_of_t2 hp ht, decHdr_header_of_t2 hc ht⟩⟩

/-! ## The reader of the word stream -/

/-- The reader names the register of a well-formed packet from its opcode and register field (R79, R117). -/
theorem readerReg_regField {c : Constants} (hc : c.WellFormed) {p : Packet} (hp : p.WellFormed c) :
    readerReg c p.opcode (regField c p.reg) = .ok p.reg := by
  obtain ⟨-, -, -, -, hnop, hreg⟩ := hp
  by_cases ho : p.opcode = .nop
  · rw [readerReg, if_pos ho, hnop ho]
  · obtain ⟨a, ha⟩ := Option.isSome_iff_exists.mp (hreg ho)
    obtain ⟨n, hn, -⟩ := mem_of_addrOf?_eq_some ha
    rw [readerReg, if_neg ho, regField, ha, Option.getD_some, regOfAddr_of_addrOf? hc ha, hn]

/-- The packet a header begins is the packet of the header, payload apart; for Type 2 the packet before must be its
header (R72, R76). -/
theorem readerHeader_header {c : Constants} (hc : c.WellFormed) {p : Packet} (hp : p.WellFormed c)
    (hnop : ¬ (p.htype = .t2 ∧ p.opcode = .nop)) {last : Option Packet}
    (hlast : p.htype = .t2 → ∃ q, last = some q ∧ HeaderFor q p) :
    readerHeader c last (header c p) = .ok { p with payload := [] } := by
  obtain ⟨ht, o, r, n, l⟩ := p
  cases ht with
  | t1 =>
    have hreg := readerReg_regField hc hp
    have hcount := count_toNat_of_t1 hp rfl
    simp only [readerHeader, decHdr_header_of_t1 hc, hreg, hcount, Except.map]
  | t2 =>
    obtain ⟨q, rfl, hheader⟩ := hlast rfl
    have ho : o ≠ .nop := fun ho => hnop ⟨rfl, ho⟩
    have hcount := count_toNat_of_t2 hp rfl
    simp only [readerHeader, decHdr_header_of_t2 hc, if_neg ho, if_pos (show q.htype = .t1 ∧ q.count = 0 from
      ⟨hheader.1, hheader.2.1⟩), hcount, hheader.2.2]

/-- The reader takes as many words as the payload has, where only a WRITE has one (R76, R233). -/
theorem readerLength_eq {c : Constants} {p : Packet} (hp : p.WellFormed c)
    (hpayload : p.opcode ≠ .write → p.payload = []) : readerLength p = p.payload.length := by
  obtain ⟨hcount, -⟩ := hp
  by_cases ho : p.opcode = .write
  · rw [readerLength, if_pos ho, hcount ho]
  · rw [readerLength, if_neg ho, hpayload ho, List.length_nil]

/-- A packet a reader can cut: well formed, no Type-2 NOP, and a payload only where it is a WRITE (R76, R233). -/
def Cuttable (c : Constants) (p : Packet) : Prop :=
  p.WellFormed c ∧ ¬ (p.htype = .t2 ∧ p.opcode = .nop) ∧ (p.opcode ≠ .write → p.payload = [])

/-- The reader cuts one packet off the front of a stream (R76). -/
theorem cutPackets_words {c : Constants} (hc : c.WellFormed) {p : Packet} (hp : Cuttable c p) {last : Option Packet}
    (hlast : p.htype = .t2 → ∃ q, last = some q ∧ HeaderFor q p) (fuel : Nat) (ws : List Word) :
    cutPackets c (fuel + 1) last (words c p ++ ws) = (cutPackets c fuel (some p) ws).map (p :: ·) := by
  obtain ⟨hwf, hnop, hpayload⟩ := hp
  have hlength : readerLength { p with payload := [] } = p.payload.length := readerLength_eq hwf hpayload
  have hroom : ¬ (p.payload ++ ws).length < p.payload.length := by simp
  simp only [words, List.cons_append, cutPackets, readerHeader_header hc hwf hnop hlast, hlength, if_neg hroom,
    List.take_left, List.drop_left]

/-- The reader cuts a whole stream, given as many turns as it has words (R76). -/
theorem cutPackets_wordStream {c : Constants} (hc : c.WellFormed) {before ps : List Packet}
    (hps : ∀ p ∈ ps, Cuttable c p) (hpaired : Safety.Paired (before ++ ps)) {fuel : Nat}
    (hfuel : (wordStream c ps).length ≤ fuel) :
    cutPackets c fuel before.getLast? (wordStream c ps) = .ok ps := by
  induction ps generalizing before fuel with
  | nil => rw [wordStream, cutPackets]
  | cons p ps ih =>
    rw [wordStream, List.length_append, words_length] at hfuel
    obtain ⟨fuel, rfl⟩ : ∃ k, fuel = k + 1 := ⟨fuel - 1, by omega⟩
    have rest := ih (before := before ++ [p]) (fuel := fuel) (fun x hx => hps x (by simp [hx])) (by simpa using hpaired)
      (by omega)
    rw [List.getLast?_concat] at rest
    rw [wordStream, cutPackets_words hc (hps p (by simp)) (exists_header_of_paired hpaired), rest, Except.map]

/-- Settles O7: the reader starts with no packet before the stream and a turn for each word. -/
theorem wordStreamCutsBackIntoItsPackets : Obligations.WordStreamCutsBackIntoItsPackets :=
  fun _ _ hc hpaired hseq => cutPackets_wordStream hc (before := []) hseq hpaired le_rfl

end Sys2Proof.Machine
end

section
/-! PROOFS of the family `other`, whole-machine rules: what every instruction and step keeps (R32, R33), who writes what
(R22 to R27), and that every step of a safe run has a next state (R247). -/

namespace Sys2Proof.Machine

/-! ## One step and reset -/

/-- Settles O8: the two branches of a step that run no reset and reject nothing. -/
theorem stepRunsTheDecodedInstruction : Obligations.StepRunsTheDecodedInstruction := by
  refine ⟨fun s t i rest hhost hdecode => ?_, fun s hhost => ?_⟩
  · simp only [step, hhost, hdecode]
  · simp only [step, hhost]

/-- Settles O11: the values stand in `State.resetOf` and in the constants of the reset state. -/
theorem resetStateIsAsListed : Obligations.ResetStateIsAsListed :=
  ⟨rfl, rfl, rfl, rfl, rfl, rfl, rfl⟩

/-- Settles O12: a reset event runs `resetBlock` with the event taken. -/
theorem resetEventRestoresTheResetState : Obligations.ResetEventRestoresTheResetState := by
  intro s rest hhost
  exact ⟨resetBlock { s with host := rest }, by simp only [step, hhost], rfl, rfl, rfl, rfl, rfl, rfl, rfl, rfl, rfl⟩

/-! ## Fault codes and information words -/

/-- The eight fault codes are 1 to 8 (R190). -/
theorem BlockFault.code_bounds (f : BlockFault) : 1 ≤ f.code.toNat ∧ f.code.toNat ≤ 8 := by
  cases f with
  | invalidRegister | invalidOpcode | unsupportedFamily => decide
  | packetOverflow n => simp [BlockFault.code]
  | malformedPacket m => simp [BlockFault.code]
  | unimplementedOperation op => simp [BlockFault.code]
  | frameIndexOutOfRange t => simp [BlockFault.code]
  | illegalOperation m => simp [BlockFault.code]

/-- No fault has the code 0, which the latch holds after a success (R190, R193). -/
theorem BlockFault.code_ne_zero (f : BlockFault) : f.code ≠ 0#8 := by
  intro h
  have := f.code_bounds.1
  simp [h] at this

theorem unknownOp_info_toNat (op : BitVec 8) : (IllegalSub.unknownOp op).info.toNat = op.toNat * 256 + 6 := by
  rw [unknownOp_info, BitVec.toNat_ofNat]
  omega

/-- Settles O13: the codes and words as the tables of R190 and R191 give them. -/
theorem faultCodesAndInformationWords : Obligations.FaultCodesAndInformationWords := by
  refine ⟨BlockFault.code_bounds, ⟨rfl, rfl⟩, ⟨rfl, rfl⟩, fun n => ⟨rfl, rfl⟩, ⟨rfl, rfl, rfl, fun _ => rfl⟩,
    ⟨rfl, rfl⟩, fun op => ⟨rfl, ?_⟩, fun t => ⟨rfl, rfl⟩, ⟨rfl, rfl, rfl, rfl, rfl, unknownOp_info_toNat, fun _ => rfl⟩⟩
  exact BitVec.toNat_setWidth_of_le (by decide)

/-! ## Who writes what -/

namespace Effect

variable {i : Instr} {s t : State}

/-- `FAM` is written by `CS.RESOLVE` alone (R26). -/
theorem fam_cases (h : Effect i s t) : t.fam = s.fam ∨ ∃ f, i = .csResolve f ∧ t.fam = some f := by
  cases h with
  | resolved f S v hi hS => exact .inr ⟨f, hi, rfl⟩
  | raised | reported | staged | appended | freshened | started | advanced => exact .inl rfl

/-- `PKT` is written by the build operations alone, which leave a well-formed packet there (R24, R118). -/
theorem pkt_cases (h : Effect i s t) :
    t.pkt = s.pkt ∨ IsBuild i ∧ ∃ p, t.pkt = some p ∧ p.WellFormed s.consts ∧ ¬ (p.htype = .t2 ∧ p.opcode = .nop) := by
  cases h with
  | staged p hi hp => exact .inr ⟨hi, p, rfl, hp⟩
  | raised | reported | appended | freshened | resolved | started | advanced => exact .inl rfl

/-- `FA` is written by `FA.START`, `FA.NEXT` and `CS.RESOLVE` alone (R25). -/
theorem fa_cases (h : Effect i s t) :
    t.fa = s.fa ∨ i = .faNext ∨ (∃ l, i = .faStart l) ∨ ∃ f, i = .csResolve f := by
  cases h with
  | resolved f S v hi hS => exact .inr (.inr (.inr ⟨f, hi⟩))
  | started l f S v hi hf hS hl => exact .inr (.inr (.inl ⟨l, hi⟩))
  | advanced f S B x n v hi ha hd hf hS hB hx hn => exact .inr (.inl hi)
  | raised | reported | staged | appended | freshened => exact .inl rfl

/-- `SEQ` and `ACC` are written by the operations that append or begin afresh (R22, R23). -/
theorem stream_cases (h : Effect i s t) : t.stream = s.stream ∨ IsAppend i ∨ IsFresh i := by
  cases h with
  | appended ps v hi hps => exact .inr (.inl hi)
  | freshened ps v hi hps => exact .inr (.inr hi)
  | raised | reported | staged | resolved | started | advanced => exact .inl rfl

/-- No operation reads or writes the moves still to come (log entry 1). -/
theorem host_eq (h : Effect i s t) : t.host = s.host := by
  cases h with
  | raised | reported | staged | appended | freshened | resolved | started | advanced => rfl

end Effect

/-- Settles O21: each element by its own case analysis of the kinds of next state. -/
theorem onlyTheListedOperationsWrite : Obligations.OnlyTheListedOperationsWrite := by
  intro i s t h
  have effect := exec_effect h
  refine ⟨effect.fam_cases.resolve_left, fun hpkt => ?_, effect.fa_cases.resolve_left, fun hstream => ?_,
    effect.host_eq⟩
  · obtain ⟨hi, p, hp, -⟩ := effect.pkt_cases.resolve_left hpkt
    exact ⟨by rw [State.pktValid, hp, Option.isSome_some], hi⟩
  · have changed : t.stream ≠ s.stream := fun e =>
      hstream.elim (fun hseq => hseq (congrArg Stream.seq e)) fun hacc => hacc (congrArg Stream.acc e)
    obtain (hadd | hall | hcrcw | hfdri | hend) | (hnew | hinit) := effect.stream_cases.resolve_left changed
    · exact .inr (.inl hadd)
    · exact .inr (.inr (.inl hall))
    · exact .inr (.inr (.inr (.inl hcrcw)))
    · exact .inr (.inr (.inr (.inr (.inr (.inl hfdri)))))
    · exact .inr (.inr (.inr (.inr (.inr (.inr hend)))))
    · exact .inl hnew
    · exact .inr (.inr (.inr (.inr (.inl hinit))))

/-- Settles O22: of the eight kinds of next state one adds packets at the end, one begins a fresh sequence, and the
others keep the stream, which is to add none. -/
theorem appendIsTheOnlyMutator : Obligations.AppendIsTheOnlyMutator := by
  intro i s t h
  cases exec_effect h with
  | appended ps v hi hps => exact .inr (.inr ⟨ps, rfl, rfl⟩)
  | freshened ps v hi hps => exact hi.imp_right .inl
  | raised | reported | staged | resolved | started | advanced =>
    exact .inr (.inr ⟨[], (List.append_nil _).symm, rfl⟩)

/-- Settles O31: only a build operation changes what is staged, and what it stages passes R32. -/
theorem stagedPacketsAreWellFormed : Obligations.StagedPacketsAreWellFormed := by
  intro i s t p h ht hs
  obtain ⟨-, p', hp', hwf⟩ := (exec_effect h).pkt_cases.resolve_left fun e => hs (e.symm.trans ht)
  obtain rfl : p' = p := Option.some.inj (hp'.symm.trans ht)
  exact hwf

/-! ## The invariant of the stream -/

/-- The clauses of R33 and R32 on `SEQ` and `ACC`: pairing, checksum and well-formed packets. -/
structure StreamInv (c : Constants) (q : Stream) : Prop where
  /-- (I-a) of R33. -/
  paired : Safety.Paired q.seq
  /-- (I-b) of R33. -/
  checksum : q.acc = foldSeq c c.crcInit q.seq
  /-- R23, R32. -/
  seqWf : ∀ p ∈ q.seq, p.WellFormed c

theorem paired_nil : Safety.Paired [] := by
  intro i p hp
  simp at hp

/-- A packet whose header, if it needs one, is the last packet keeps the pairing (R33 (I-a), R135). -/
theorem paired_concat {l : List Packet} {p : Packet} (hl : Safety.Paired l)
    (hp : p.htype = .t2 → ∃ q, l.getLast? = some q ∧ HeaderFor q p) : Safety.Paired (l ++ [p]) := by
  intro i x hx ht
  obtain hi | rfl | hi := lt_trichotomy i l.length
  · rw [List.getElem?_append_left hi] at hx
    obtain ⟨hpos, q, hq, hheader⟩ := hl i x hx ht
    exact ⟨hpos, q, by rwa [List.getElem?_append_left (by omega)], hheader⟩
  · obtain rfl : p = x := by simpa using hx
    obtain ⟨q, hq, hheader⟩ := hp ht
    rw [List.getLast?_eq_getElem?] at hq
    have hlast : l.length - 1 < l.length := (List.getElem?_eq_some_iff.mp hq).1
    exact ⟨by omega, q, by rwa [List.getElem?_append_left hlast], hheader⟩
  · rw [List.getElem?_eq_none (by simp; omega)] at hx
    cases hx

theorem streamInv_fresh (c : Constants) : StreamInv c (.fresh c) :=
  ⟨paired_nil, rfl, fun p hp => by simp at hp⟩

/-- `append_packet` keeps the clauses: it checks the packet and its pairing, and absorbs what it adds (R135). -/
theorem StreamInv.after_appendPacket {c : Constants} {q q' : Stream} (hq : StreamInv c q) {p : Packet}
    (h : appendPacket c p q = .ok q') : StreamInv c q' := by
  obtain ⟨⟨hwf, -⟩, hheader, rfl⟩ := (appendPacket_ok_iff ..).mp h
  refine ⟨paired_concat hq.paired hheader, ?_, fun x hx => ?_⟩
  · rw [commitPacket_acc, commitPacket_seq, foldSeq_append, ← hq.checksum, foldSeq, foldSeq]
  · obtain hx | hx := List.mem_append.mp hx
    · exact hq.seqWf x hx
    · exact List.mem_singleton.mp hx ▸ hwf

/-- So does appending a list (R137). -/
theorem StreamInv.after_appendAll {c : Constants} {ps : List Packet} {q q' : Stream} (hq : StreamInv c q)
    (h : appendAll c ps q = .ok q') : StreamInv c q' := by
  induction ps generalizing q with
  | nil => exact Except.ok.inj h ▸ hq
  | cons p ps ih =>
    cases hp : appendPacket c p q with
    | error f => simp only [appendAll, hp] at h; cases h
    | ok q1 =>
      simp only [appendAll, hp] at h
      exact ih (hq.after_appendPacket hp) h

/-! ## The cursor within the table -/

theorem wellFormed_of_family? {c : Constants} (hc : c.WellFormed) {f : String} {S : ConfigurationSpecification}
    (h : c.family? f = some S) : S.WellFormed := by
  obtain ⟨-, -, -, hfamilies, -⟩ := hc
  exact hfamilies S (List.mem_of_find?_eq_some h)

theorem BlockType.wellFormed_of_getElem? {S : ConfigurationSpecification} (hS : S.WellFormed) {b : Nat} {B : BlockType}
    (hB : S.blockTypes[b]? = some B) : B.WellFormed := by
  obtain ⟨-, -, hblocks, -⟩ := hS
  exact hblocks B (List.mem_of_getElem? hB)

/-- Every subtype of a well-formed block type has a frame 0 (R151). -/
theorem exists_subtype_frame {B : BlockType} (hB : B.WellFormed) {i : Nat} (hi : i < B.subtypes.length) :
    ∃ x, B.subtypes[i]? = some x ∧ 0 < x.fpcb := by
  obtain ⟨-, hframes, -⟩ := hB
  exact ⟨_, List.getElem?_eq_getElem hi, hframes _ (List.getElem_mem hi)⟩

/-- A block type with columns has a first frame (R151, R158). -/
theorem exists_first_frame {S : ConfigurationSpecification} (hS : S.WellFormed) {ncols : List Nat}
    (hlen : ncols.length = S.blockTypes.length) {b m : Nat} (hb : ncols[b]? = some m) (hm : 0 < m) :
    ∃ B x n, S.blockTypes[b]? = some B ∧ B.subtypes[0]? = some x ∧ ncols[b]? = some n ∧ 0 < x.fpcb ∧ 0 < n := by
  obtain ⟨hlt, -⟩ := List.getElem?_eq_some_iff.mp hb
  have hB : S.blockTypes[b]? = some (S.blockTypes[b]'(hlen ▸ hlt)) := List.getElem?_eq_getElem _
  have hwf := BlockType.wellFormed_of_getElem? hS hB
  obtain ⟨x, hx, hpos⟩ := exists_subtype_frame hwf (List.length_pos_iff.mpr hwf.1)
  exact ⟨_, x, m, hB, hx, hb, hpos, hm⟩

/-- A device with frames has a block type with columns (R158). -/
theorem exists_firstWithColumns_of_frames {ncols : List Nat} {Bs : List BlockType} (h : 0 < deviceFrames ncols Bs) :
    ∃ b, firstWithColumns ncols = some b := by
  induction ncols generalizing Bs with
  | nil => simp [deviceFrames] at h
  | cons n ns ih =>
    rw [firstWithColumns]
    by_cases hn : 0 < n
    · exact ⟨0, if_pos hn⟩
    · obtain rfl : n = 0 := by omega
      cases Bs with
      | nil => simp [deviceFrames] at h
      | cons B Bs =>
        obtain ⟨b, hb⟩ := ih (Bs := Bs) (by simpa [deviceFrames] using h)
        exact ⟨b + 1, by simp [hb]⟩

/-- `FA.START` leaves the cursor in the table (R158). -/
theorem startCursor_inTable {S : ConfigurationSpecification} (hS : S.WellFormed) {ncols : List Nat}
    (hlen : ncols.length = S.blockTypes.length) : Safety.CursorInTable S (startCursor S ncols) := by
  obtain hzero | hpos := Nat.eq_zero_or_pos (deviceFrames ncols S.blockTypes)
  · rw [startCursor_of_noFrames hzero]
    exact ⟨hlen, fun hdone => by cases hdone⟩
  · obtain ⟨b, hfirst⟩ := exists_firstWithColumns_of_frames hpos
    obtain ⟨⟨m, hb, hm⟩, -⟩ := firstWithColumns_eq_some.mp hfirst
    rw [startCursor_of_frames hpos hfirst]
    exact ⟨hlen, fun _ => exists_first_frame hS hlen hb hm⟩

/-- The five ways a cursor advances, in the order R159 tries them. -/
theorem advanceCursor_cases (nsub fpcb ncol : Nat) (fa : Cursor) :
    (fa.frm + 1 < fpcb ∧ advanceCursor nsub fpcb ncol fa = { fa with frm := fa.frm + 1 }) ∨
    (fpcb ≤ fa.frm + 1 ∧ fa.sub + 1 < nsub ∧
      advanceCursor nsub fpcb ncol fa = { fa with sub := fa.sub + 1, frm := 0 }) ∨
    (fpcb ≤ fa.frm + 1 ∧ nsub ≤ fa.sub + 1 ∧ fa.col + 1 < ncol ∧
      advanceCursor nsub fpcb ncol fa = { fa with col := fa.col + 1, sub := 0, frm := 0 }) ∨
    fpcb ≤ fa.frm + 1 ∧ nsub ≤ fa.sub + 1 ∧ ncol ≤ fa.col + 1 ∧
      ((∃ b, nextWithColumns fa.ncols fa.bt = some b ∧
        advanceCursor nsub fpcb ncol fa = { fa with bt := b, col := 0, sub := 0, frm := 0 }) ∨
      nextWithColumns fa.ncols fa.bt = none ∧ advanceCursor nsub fpcb ncol fa = { fa with done := true }) := by
  obtain hfrm | hfrm := lt_or_ge (fa.frm + 1) fpcb
  · exact .inl ⟨hfrm, advanceCursor_nextFrame hfrm⟩
  obtain hsub | hsub := lt_or_ge (fa.sub + 1) nsub
  · exact .inr (.inl ⟨hfrm, hsub, advanceCursor_nextSubtype hfrm hsub⟩)
  obtain hcol | hcol := lt_or_ge (fa.col + 1) ncol
  · exact .inr (.inr (.inl ⟨hfrm, hsub, hcol, advanceCursor_nextColumn hfrm hsub hcol⟩))
  refine .inr (.inr (.inr ⟨hfrm, hsub, hcol, ?_⟩))
  cases hnext : nextWithColumns fa.ncols fa.bt with
  | some b => exact .inl ⟨b, rfl, advanceCursor_nextBlockType hfrm hsub hcol hnext⟩
  | none => exact .inr ⟨rfl, advanceCursor_end hfrm hsub hcol hnext⟩

/-- `FA.NEXT` keeps the cursor in the table (R159). -/
theorem advanceCursor_inTable {S : ConfigurationSpecification} (hS : S.WellFormed) {fa : Cursor} {B : BlockType}
    {x : BlockSubType} {n : Nat} (hlen : fa.ncols.length = S.blockTypes.length) (hB : S.blockTypes[fa.bt]? = some B)
    (hx : B.subtypes[fa.sub]? = some x) (hn : fa.ncols[fa.bt]? = some n) (hcol : fa.col < n) :
    Safety.CursorInTable S (advanceCursor B.subtypes.length x.fpcb n fa) := by
  have hwf := BlockType.wellFormed_of_getElem? hS hB
  refine ⟨(congrArg List.length (advanceCursor_frame ..).2).trans hlen, ?_⟩
  obtain ⟨hfrm, e⟩ | ⟨-, hsub, e⟩ | ⟨-, -, hcol', e⟩ | ⟨-, -, -, ⟨b, hnext, e⟩ | ⟨-, e⟩⟩ :=
    advanceCursor_cases B.subtypes.length x.fpcb n fa
  all_goals rw [e]
  · exact fun _ => ⟨B, x, n, hB, hx, hn, hfrm, hcol⟩
  · obtain ⟨y, hy, hpos⟩ := exists_subtype_frame hwf hsub
    exact fun _ => ⟨B, y, n, hB, hy, hn, hpos, hcol⟩
  · obtain ⟨y, hy, hpos⟩ := exists_subtype_frame hwf (List.length_pos_iff.mpr hwf.1)
    exact fun _ => ⟨B, y, n, hB, hy, hn, hpos, hcol'⟩
  · obtain ⟨-, ⟨m, hm, hpos⟩, -⟩ := nextWithColumns_eq_some.mp hnext
    exact fun _ => exists_first_frame hS hlen hm hpos
  · exact fun hdone => by cases hdone

/-! ## The invariant of a run -/

end Sys2Proof.Machine

namespace Sys2Proof.Safety

open Sys2Proof.Machine

theorem inv_resetOf (c : Constants) : Inv (State.resetOf c) where
  paired := paired_nil
  checksum := rfl
  seqWf _ hp := by simp at hp
  pktWf _ hp := by simp at hp
  famBound _ hf := by simp at hf
  cursor _ hactive := by simp at hactive

namespace Inv

variable {s : State}

/-- The clauses of the invariant that speak of the stream. -/
theorem streamInv (h : Inv s) : StreamInv s.consts s.stream := ⟨h.paired, h.checksum, h.seqWf⟩

/-- The invariant does not speak of the latch and the result port. -/
theorem after_raise (h : Inv s) (f : BlockFault) : Inv (raise f s) :=
  ⟨h.paired, h.checksum, h.seqWf, h.pktWf, h.famBound, h.cursor⟩

theorem after_succeed (h : Inv s) (v : ResultValue) : Inv (succeed v s) :=
  ⟨h.paired, h.checksum, h.seqWf, h.pktWf, h.famBound, h.cursor⟩

theorem after_reject (h : Inv s) (e : DecodeError) : Inv (rejectTransaction e s) := by
  obtain ⟨f, hreject⟩ | ⟨v, hreject⟩ := rejectTransaction_cases e s
  · exact hreject ▸ h.after_raise f
  · exact hreject ▸ h.after_succeed v

/-- Nor does it speak of the moves still to come. -/
theorem withHost (h : Inv s) (rest : List HostEvent) : Inv { s with host := rest } :=
  ⟨h.paired, h.checksum, h.seqWf, h.pktWf, h.famBound, h.cursor⟩

theorem after_reset (s : State) : Inv (resetBlock s) := (inv_resetOf s.consts).withHost s.host

theorem withStream (h : Inv s) {q : Stream} (hq : StreamInv s.consts q) : Inv (s.withStream q) :=
  ⟨hq.paired, hq.checksum, hq.seqWf, h.pktWf, h.famBound, h.cursor⟩

theorem withPkt (h : Inv s) {p : Packet} (hp : p.WellFormed s.consts ∧ ¬ (p.htype = .t2 ∧ p.opcode = .nop)) :
    Inv { s with pkt := some p } :=
  ⟨h.paired, h.checksum, h.seqWf, fun _ hp' => Option.some.inj hp' ▸ hp, h.famBound, h.cursor⟩

/-- A family of the table may be selected, with the cursor cleared (R154). -/
theorem withFam (h : Inv s) {f : String} {S : ConfigurationSpecification} (hS : s.consts.family? f = some S) :
    Inv { s with fam := some f, fa := Cursor.cleared } :=
  ⟨h.paired, h.checksum, h.seqWf, h.pktWf, fun _ hf => Option.some.inj hf ▸ Option.isSome_of_eq_some hS,
    fun _ hactive => by simp at hactive⟩

/-- A cursor in the table of the selected family may replace the one before. -/
theorem withCursor (h : Inv s) {fa : Cursor} {f : String} {S : ConfigurationSpecification} (hf : s.fam = some f)
    (hS : s.consts.family? f = some S) (hfa : s.consts.WellFormed → CursorInTable S fa) : Inv { s with fa := fa } :=
  ⟨h.paired, h.checksum, h.seqWf, h.pktWf, h.famBound, fun hc _ => ⟨f, S, hf, hS, hfa hc⟩⟩

/-- An active cursor is that of the selected family, and lies in its table (R25). -/
theorem cursorInTable (h : Inv s) (hc : s.consts.WellFormed) (ha : s.fa.active = true) {f : String}
    {S : ConfigurationSpecification} (hf : s.fam = some f) (hS : s.consts.family? f = some S) :
    CursorInTable S s.fa := by
  obtain ⟨f', S', hf', hS', hfa⟩ := h.cursor hc ha
  obtain rfl : f = f' := Option.some.inj (hf.symm.trans hf')
  obtain rfl : S = S' := Option.some.inj (hS.symm.trans hS')
  exact hfa

/-- Every kind of next state of an instruction keeps the invariant. -/
theorem after_effect (h : Inv s) {i : Instr} {t : State} (ht : Effect i s t) : Inv t := by
  cases ht with
  | raised f => exact h.after_raise f
  | reported v => exact h.after_succeed v
  | staged p hi hp => exact (h.withPkt hp).after_succeed _
  | appended ps v hi hps => exact (h.withStream (h.streamInv.after_appendAll hps)).after_succeed v
  | freshened ps v hi hps => exact (h.withStream ((streamInv_fresh s.consts).after_appendAll hps)).after_succeed v
  | resolved f S v hi hS => exact (h.withFam hS).after_succeed v
  | started l f S v hi hf hS hl =>
    exact (h.withCursor hf hS fun hc => startCursor_inTable (wellFormed_of_family? hc hS) hl).after_succeed v
  | advanced f S B x n v hi ha hd hf hS hB hx hn =>
    refine (h.withCursor hf hS fun hc => ?_).after_succeed v
    obtain ⟨hlen, hplace⟩ := h.cursorInTable hc ha hf hS
    obtain ⟨B', x', n', -, -, hn', -, hcol⟩ := hplace hd
    obtain rfl : n = n' := Option.some.inj (hn.symm.trans hn')
    exact advanceCursor_inTable (wellFormed_of_family? hc hS) hlen hB hx hn hcol

end Inv

end Sys2Proof.Safety

namespace Sys2Proof.Machine

open Sys2Proof.Safety

/-- Settles O18: idling, a reset, an instruction and a rejected transaction each keep the invariant. -/
theorem stepKeepsTheInvariant : Obligations.StepKeepsTheInvariant := by
  intro s t hs h
  obtain ⟨-, rfl⟩ | ⟨rest, -, rfl⟩ | ⟨rest, x, i, -, -, hexec⟩ | ⟨rest, x, e, -, -, rfl⟩ := step_cases h
  · exact hs
  · exact Inv.after_reset _
  · exact (hs.withHost rest).after_effect (exec_effect hexec)
  · exact (hs.withHost rest).after_reject e

/-- Whatever the OPEN values are, the block types of V6 lie within the bounds of R151. -/
theorem v6BlockTypesBounded_wellFormed :
    Config.v6BlockTypesBounded ≠ [] ∧ (∀ b ∈ Config.v6BlockTypesBounded, b.WellFormed) ∧
      (Config.v6BlockTypesBounded.map (·.name)).Nodup := by
  unfold Config.v6BlockTypesBounded
  split_ifs with h
  · exact h
  · decide

theorem v6_wellFormed : Config.v6.WellFormed := by
  obtain ⟨hne, hblocks, hnames⟩ := v6BlockTypesBounded_wellFormed
  have hpos : 0 < Config.v6BlockTypesBounded.length := List.length_pos_iff.mpr hne
  exact ⟨le_max_left 1 _, hne, hblocks, hnames, Nat.mod_lt _ hpos, Nat.mod_lt _ hpos⟩

/-- Settles O17: the reset state has nothing to check, and the default tables meet R225. -/
theorem invariantHoldsAtReset : Obligations.InvariantHoldsAtReset := by
  refine ⟨inv_resetOf, ⟨by decide, by decide, by decide, fun S hS => ?_, by simp [State.reset, Config.constants]⟩,
    inv_resetOf _⟩
  obtain rfl : S = Config.v6 := by simpa [State.reset, Config.constants] using hS
  exact v6_wellFormed

end Sys2Proof.Machine
end

section
/-! PROOFS of the family `other`, stops and isolation: where the model stops (R247), and what an operation does not read
(R27, R29, R160). -/

namespace Sys2Proof.Machine

/-! ## Where the model stops -/

/-- `FAM` names no entry of the table, and the instruction reads that entry (log entry 9). -/
def FamilyUnbound (i : Instr) (s : State) : Prop :=
  s.fam.bind s.consts.family? = none ∧
    ((∃ f, s.fam = some f) ∨ i = .faNext ∧ s.fa.active = true ∧ s.fa.done = false)

/-- The table has an entry at the cursor: block type, subtype and column count (R25, R159). -/
def CursorHasEntry (S : ConfigurationSpecification) (fa : Cursor) : Prop :=
  ∃ B x n, S.blockTypes[fa.bt]? = some B ∧ B.subtypes[fa.sub]? = some x ∧ fa.ncols[fa.bt]? = some n

/-- `FA.NEXT` at an active, unfinished cursor that points at no entry of the table (log entry 9). -/
def CursorOutside (i : Instr) (s : State) : Prop :=
  i = .faNext ∧ s.fa.active = true ∧ s.fa.done = false ∧
    ∃ f S, s.fam = some f ∧ s.consts.family? f = some S ∧ ¬ CursorHasEntry S s.fa

/-- A next state, or one of the two stops. -/
def EndsOrStops (i : Instr) (s : State) (o : Host.Outcome State Fault Refusal) : Prop :=
  (∃ t, o = .next t) ∨ (o = .fault .familyUnbound ∧ FamilyUnbound i s) ∨
    (o = .fault .cursorOutsideTable ∧ CursorOutside i s)

theorem endsOrStops_next {i : Instr} {s : State} (t : State) : EndsOrStops i s (.next t) := .inl ⟨t, rfl⟩

/-- An operation that needs a family ends where its continuation does (R195). -/
theorem endsOrStops_withFamily {i : Instr} {s : State}
    {k : ConfigurationSpecification → Host.Outcome State Fault Refusal} (hk : ∀ S, ∃ t, k S = .next t) :
    EndsOrStops i s (withFamily s k) := by
  obtain ⟨-, e⟩ | ⟨f, hf, hS, e⟩ | ⟨f, S, -, -, e⟩ := withFamily_cases s k
  all_goals rw [e]
  · exact endsOrStops_next _
  · exact .inr (.inl ⟨rfl, by rw [hf, Option.bind_some, hS], .inl ⟨f, hf⟩⟩)
  · exact .inl (hk S)

theorem cursorEntry_eq_none {S : ConfigurationSpecification} {fa : Cursor} (h : ¬ CursorHasEntry S fa) :
    cursorEntry S fa = none := by
  cases hB : S.blockTypes[fa.bt]? with
  | none => simp [cursorEntry, hB]
  | some B =>
    cases hx : B.subtypes[fa.sub]? with
    | none => simp [cursorEntry, hB, hx]
    | some x =>
      cases hn : fa.ncols[fa.bt]? with
      | none => simp [cursorEntry, hB, hx, hn]
      | some n => exact absurd ⟨B, x, n, hB, hx, hn⟩ h

/-- Where `FA.NEXT` finds the cursor: inactive, done, without a family entry, outside the table, or in it (R159). -/
theorem exec_faNext_cases (s : State) :
    s.fa.active = false ∨ s.fa.active = true ∧ s.fa.done = true ∨
    s.fa.active = true ∧ s.fa.done = false ∧
      (s.fam.bind s.consts.family? = none ∧ exec .faNext s = .fault .familyUnbound ∨
      ∃ f S, s.fam = some f ∧ s.consts.family? f = some S ∧
        (¬ CursorHasEntry S s.fa ∧ exec .faNext s = .fault .cursorOutsideTable ∨ CursorHasEntry S s.fa)) := by
  cases ha : s.fa.active with
  | false => exact .inl rfl
  | true =>
    cases hd : s.fa.done with
    | true => exact .inr (.inl ⟨rfl, rfl⟩)
    | false =>
      refine .inr (.inr ⟨rfl, rfl, ?_⟩)
      cases hS : s.fam.bind s.consts.family? with
      | none => exact .inl ⟨rfl, by simp [exec, execFaNext, ha, hd, hS]⟩
      | some S =>
        obtain ⟨f, hf, hfS⟩ := Option.bind_eq_some_iff.mp hS
        refine .inr ⟨f, S, hf, hfS, (em (CursorHasEntry S s.fa)).symm.imp_left fun hentry => ⟨hentry, ?_⟩⟩
        simp [exec, execFaNext, ha, hd, hS, cursorEntry_eq_none hentry]

theorem endsOrStops_faNext (s : State) : EndsOrStops .faNext s (exec .faNext s) := by
  obtain ha | ⟨ha, hd⟩ | ⟨ha, hd, ⟨hS, e⟩ | ⟨f, S, hf, hS, ⟨hentry, e⟩ | ⟨B, x, n, hB, hx, hn⟩⟩⟩ := exec_faNext_cases s
  · exact .inl ⟨_, exec_faNext_of_inactive ha⟩
  · exact .inl ⟨_, exec_faNext_of_done ha hd⟩
  · exact .inr (.inl ⟨e, hS, .inr ⟨rfl, ha, hd⟩⟩)
  · exact .inr (.inr ⟨e, rfl, ha, hd, f, S, hf, hS, hentry⟩)
  · exact .inl ⟨_, execFaNext_inTable ha hd hf hS hB hx hn⟩

/-- Every instruction has a next state but for the two stops: only `FA.NEXT` reads the table at the cursor. -/
theorem exec_endsOrStops (i : Instr) (s : State) : EndsOrStops i s (exec i s) := by
  cases i with
  | csTotal bt => exact endsOrStops_withFamily fun S => ⟨_, rfl⟩
  | csLocate bt col t => exact endsOrStops_withFamily fun S => ⟨_, rfl⟩
  | faStart l =>
    refine endsOrStops_withFamily fun S => ?_
    by_cases hl : l.length ≠ S.blockTypes.length
    · exact ⟨_, if_pos hl⟩
    · exact ⟨_, if_neg hl⟩
  | gnInit w => exact endsOrStops_withFamily fun S => ⟨_, rfl⟩
  | gnEnd => exact endsOrStops_withFamily fun S => ⟨_, rfl⟩
  | faNext => exact endsOrStops_faNext s
  | sqAdd =>
    cases hpkt : s.pkt with
    | none => rw [exec_sqAdd_of_none hpkt]; exact endsOrStops_next _
    | some p => rw [exec_sqAdd_of_some hpkt rfl]; exact endsOrStops_next _
  | csResolve f =>
    cases hS : s.consts.family? f with
    | none => rw [exec_csResolve_of_none hS]; exact endsOrStops_next _
    | some S => rw [exec_csResolve_of_some hS]; exact endsOrStops_next _
  | gnFdri l =>
    obtain hl | hl := lt_or_ge t2MaxWords l.length
    · rw [exec_gnFdri_of_overflow hl]; exact endsOrStops_next _
    · rw [exec_gnFdri hl rfl]; exact endsOrStops_next _
  | t1Nop | t1Read | t1Write | t1Reserved | t2Nop | t2Read | t2Write | t2Reserved => exact endsOrStops_next _
  | lkReg | lkOp | pkNop | pkW1 | pkT1 | pkT2 | decHdr => exact endsOrStops_next _
  | sqNew | sqAddAll | sqCrcw | gnInitp | gnEndp => exact endsOrStops_next _

/-- Settles O20: an instruction ends in a next state or in one of the two stops, so in no refusal. -/
theorem stopsOnlyOutsideTheTable : Obligations.StopsOnlyOutsideTheTable := by
  intro i s
  obtain ⟨t, e⟩ | ⟨e, hunbound⟩ | ⟨e, houtside⟩ := exec_endsOrStops i s
  all_goals rw [e]
  · exact ⟨fun r h => (by cases h), fun r h => (by cases h)⟩
  · exact ⟨fun r h => (by cases h), fun r h => (by cases h; exact .inl ⟨rfl, hunbound⟩)⟩
  · exact ⟨fun r h => (by cases h), fun r h => (by cases h; exact .inr ⟨rfl, houtside⟩)⟩

/-- In a safe run `FAM` has its entry wherever the table is read (R26). -/
theorem not_familyUnbound_of_inv {s : State} (hc : s.consts.WellFormed) (h : Safety.Inv s) (i : Instr) :
    ¬ FamilyUnbound i s := by
  have bound : ∀ f, s.fam = some f → s.fam.bind s.consts.family? ≠ none := fun f hf => by
    rw [hf, Option.bind_some]
    exact Option.isSome_iff_ne_none.mp (h.famBound f hf)
  rintro ⟨hnone, ⟨f, hf⟩ | ⟨-, ha, -⟩⟩
  · exact bound f hf hnone
  · obtain ⟨f, S, hf, -⟩ := h.cursor hc ha
    exact bound f hf hnone

/-- In a safe run an active, unfinished cursor points at an entry of the table (R158, R159). -/
theorem not_cursorOutside_of_inv {s : State} (hc : s.consts.WellFormed) (h : Safety.Inv s) (i : Instr) :
    ¬ CursorOutside i s := by
  rintro ⟨-, ha, hd, f, S, hf, hS, houtside⟩
  obtain ⟨-, hplace⟩ := h.cursorInTable hc ha hf hS
  obtain ⟨B, x, n, hB, hx, hn, -⟩ := hplace hd
  exact houtside ⟨B, x, n, hB, hx, hn⟩

/-- With well-formed constants the invariant leaves an instruction no stop. -/
theorem exec_next_of_inv {s : State} (hc : s.consts.WellFormed) (h : Safety.Inv s) (i : Instr) :
    ∃ t, exec i s = .next t := by
  obtain hnext | ⟨-, hunbound⟩ | ⟨-, houtside⟩ := exec_endsOrStops i s
  · exact hnext
  · exact absurd hunbound (not_familyUnbound_of_inv hc h i)
  · exact absurd houtside (not_cursorOutside_of_inv hc h i)

/-- Settles O19: only an instruction could stop a step, and none does. -/
theorem stepAlwaysHasANextState : Obligations.StepAlwaysHasANextState := by
  intro s hc h
  cases hhost : s.host with
  | nil => exact ⟨s, by simp only [step, hhost]⟩
  | cons e rest =>
    cases e with
    | reset => exact ⟨resetBlock { s with host := rest }, by simp only [step, hhost]⟩
    | transaction x =>
      cases hdecode : decode x with
      | error e => exact ⟨_, step_of_decode_error hhost hdecode⟩
      | ok i =>
        obtain ⟨t, ht⟩ := exec_next_of_inv (s := { s with host := rest }) hc (h.withHost rest) i
        exact ⟨t, by simp only [step, hhost, hdecode, ht]⟩

/-! ## The latch and the result port are not read -/

/-- The state with other contents in the latch and on the result port. -/
def State.withLatch (s : State) (e : BitVec 8) (n : Word) (r : ResultPort) : State :=
  { s with lasterr := e, lastinfo := n, result := r }

section Latch

variable (s : State) (e : BitVec 8) (n : Word) (r : ResultPort)

theorem raise_withLatch (f : BlockFault) : raise f (s.withLatch e n r) = raise f s := rfl

/-- An operation that answers overwrites both. -/
theorem answer_withLatch {α : Type} (x : Except BlockFault α) (v : α → ResultValue) :
    complete (s.withLatch e n r) (x.map fun a => (s.withLatch e n r, v a)) = complete s (x.map fun a => (s, v a)) := by
  cases x with
  | error f => rfl
  | ok a => rfl

theorem stage_withLatch (x : Except BlockFault Packet) : stage (s.withLatch e n r) x = stage s x := by
  cases x with
  | error f => rfl
  | ok p => rfl

/-- So does an operation that appends, whose result is read off the stream it leaves. -/
theorem completeAppend_withLatch (x : Except BlockFault Stream) (v : State → ResultValue)
    (hv : ∀ q, v ((s.withLatch e n r).withStream q) = v (s.withStream q)) :
    completeAppend (s.withLatch e n r) x v = completeAppend s x v := by
  cases x with
  | error f => rfl
  | ok q => rw [completeAppend_ok, completeAppend_ok, hv]; rfl

theorem withFamily_withLatch {k k' : ConfigurationSpecification → Host.Outcome State Fault Refusal}
    (hk : ∀ S, k S = k' S) : withFamily (s.withLatch e n r) k = withFamily s k' := by
  rw [show k = k' from funext hk]
  rfl

theorem exec_withLatch (i : Instr) : exec i (s.withLatch e n r) = exec i s := by
  cases i with
  | lkReg name => exact congrArg Host.Outcome.next (answer_withLatch s e n r _ _)
  | lkOp name => exact congrArg Host.Outcome.next (answer_withLatch s e n r _ _)
  | pkNop => rfl
  | pkW1 o rn v => exact congrArg Host.Outcome.next (stage_withLatch s e n r _)
  | pkT1 o rn c l => exact congrArg Host.Outcome.next (stage_withLatch s e n r _)
  | pkT2 o rn c l => exact congrArg Host.Outcome.next (stage_withLatch s e n r _)
  | sqNew => rfl
  | sqAdd =>
    cases hpkt : s.pkt with
    | none => rw [exec_sqAdd_of_none hpkt, exec_sqAdd_of_none (s := s.withLatch e n r) hpkt, raise_withLatch]
    | some p =>
      rw [exec_sqAdd_of_some hpkt rfl, exec_sqAdd_of_some (s := s.withLatch e n r) hpkt rfl]
      exact congrArg Host.Outcome.next (completeAppend_withLatch s e n r _ _ fun _ => rfl)
  | sqAddAll l => exact congrArg Host.Outcome.next (completeAppend_withLatch s e n r _ _ fun _ => rfl)
  | sqCrcw => exact congrArg Host.Outcome.next (completeAppend_withLatch s e n r _ _ fun _ => rfl)
  | csResolve f =>
    cases hS : s.consts.family? f with
    | none => rw [exec_csResolve_of_none hS, exec_csResolve_of_none (s := s.withLatch e n r) hS, raise_withLatch]
    | some S => rw [exec_csResolve_of_some hS, exec_csResolve_of_some (s := s.withLatch e n r) hS]; rfl
  | csTotal bt => exact withFamily_withLatch s e n r fun S => congrArg Host.Outcome.next (answer_withLatch s e n r _ _)
  | csLocate bt col t =>
    refine withFamily_withLatch s e n r fun S => congrArg Host.Outcome.next ?_
    cases blockTypeOperand S bt with
    | error f => rfl
    | ok B => exact answer_withLatch s e n r _ _
  | faStart l => exact withFamily_withLatch s e n r fun S => rfl
  | faNext => rfl
  | gnInit w =>
    refine withFamily_withLatch s e n r fun S => congrArg Host.Outcome.next ?_
    exact completeAppend_withLatch s e n r _ _ fun _ => rfl
  | gnFdri l =>
    obtain hl | hl := lt_or_ge t2MaxWords l.length
    · rw [exec_gnFdri_of_overflow hl, exec_gnFdri_of_overflow hl, raise_withLatch]
    · rw [exec_gnFdri hl rfl, exec_gnFdri hl rfl]
      exact congrArg Host.Outcome.next (completeAppend_withLatch s e n r _ _ fun _ => rfl)
  | gnEnd =>
    refine withFamily_withLatch s e n r fun S => congrArg Host.Outcome.next ?_
    exact completeAppend_withLatch s e n r _ _ fun _ => rfl
  | gnInitp _ | gnEndp | decHdr _ => rfl
  | t1Nop _ _ _ | t1Read _ _ _ | t1Write _ _ _ | t1Reserved _ _ _ => rfl
  | t2Nop _ | t2Read _ | t2Write _ | t2Reserved _ => rfl

end Latch

/-- Settles O15: every operation ends by overwriting the latch and the result port. -/
theorem latchAndResultPortAreNeverRead : Obligations.LatchAndResultPortAreNeverRead :=
  fun i s e n r => exec_withLatch s e n r i

/-! ## The frame-address unit is isolated -/

/-- The operations of the frame-address unit (R150, R160). -/
def IsFrameUnit (i : Instr) : Prop :=
  (∃ f, i = .csResolve f) ∨ (∃ b, i = .csTotal b) ∨ (∃ b c t, i = .csLocate b c t) ∨ (∃ l, i = .faStart l) ∨ i = .faNext

/-- No operation of the unit appends, begins a sequence or builds a packet. -/
theorem IsFrameUnit.not_writer {i : Instr} (hi : IsFrameUnit i) : ¬ (IsAppend i ∨ IsFresh i) ∧ ¬ IsBuild i := by
  obtain ⟨f, rfl⟩ | ⟨b, rfl⟩ | ⟨b, c, t, rfl⟩ | ⟨l, rfl⟩ | rfl := hi
  all_goals simp [IsAppend, IsFresh, IsBuild]

/-- The state with other contents in `SEQ`, `ACC` and `PKT`. -/
def State.withPackets (s : State) (q : List Packet) (a : Word) (p : Option Packet) : State :=
  { s with seq := q, acc := a, pkt := p }

section Packets

variable {s t : State} {q : List Packet} {a : Word} {p : Option Packet}

/-- An operation that only answers writes the latch and the result port alone. -/
theorem answer_withPackets {α : Type} (x : Except BlockFault α) (v : α → ResultValue) :
    complete (s.withPackets q a p) (x.map fun y => (s.withPackets q a p, v y)) =
      (complete s (x.map fun y => (s, v y))).withPackets q a p := by
  cases x with
  | error f => rfl
  | ok y => rfl

theorem withFamily_withPackets {k k' : ConfigurationSpecification → Host.Outcome State Fault Refusal}
    (hk : ∀ S, k S = .next t → k' S = .next (t.withPackets q a p)) (h : withFamily s k = .next t) :
    withFamily (s.withPackets q a p) k' = .next (t.withPackets q a p) := by
  obtain ⟨hf, e⟩ | ⟨f, -, -, e⟩ | ⟨f, S, hf, hS, e⟩ := withFamily_cases s k
  all_goals rw [e] at h
  · cases h
    exact withFamily_none (s := s.withPackets q a p) hf k'
  · cases h
  · exact (withFamily_some (s := s.withPackets q a p) hf hS k').trans (hk S h)

theorem exec_faNext_withPackets (h : exec .faNext s = .next t) :
    exec .faNext (s.withPackets q a p) = .next (t.withPackets q a p) := by
  obtain ha | ⟨ha, hd⟩ | ⟨ha, hd, ⟨-, e⟩ | ⟨f, S, hf, hS, ⟨-, e⟩ | ⟨B, x, n, hB, hx, hn⟩⟩⟩ := exec_faNext_cases s
  · rw [exec_faNext_of_inactive ha] at h
    cases h
    exact exec_faNext_of_inactive (s := s.withPackets q a p) ha
  · rw [exec_faNext_of_done ha hd] at h
    cases h
    exact exec_faNext_of_done (s := s.withPackets q a p) ha hd
  · cases e.symm.trans h
  · cases e.symm.trans h
  · cases (execFaNext_inTable ha hd hf hS hB hx hn).symm.trans h
    exact execFaNext_inTable (s := s.withPackets q a p) ha hd hf hS hB hx hn

/-- With other contents in `SEQ`, `ACC` and `PKT` an operation of the unit does the same. -/
theorem exec_withPackets {i : Instr} (hi : IsFrameUnit i) (h : exec i s = .next t) :
    exec i (s.withPackets q a p) = .next (t.withPackets q a p) := by
  obtain ⟨f, rfl⟩ | ⟨b, rfl⟩ | ⟨b, c, n, rfl⟩ | ⟨l, rfl⟩ | rfl := hi
  · cases hS : s.consts.family? f with
    | none =>
      rw [exec_csResolve_of_none hS] at h
      cases h
      exact exec_csResolve_of_none (s := s.withPackets q a p) hS
    | some S =>
      rw [exec_csResolve_of_some hS] at h
      cases h
      exact exec_csResolve_of_some (s := s.withPackets q a p) hS
  · refine withFamily_withPackets (fun S hS => ?_) h
    cases hS
    exact congrArg Host.Outcome.next (answer_withPackets _ _)
  · refine withFamily_withPackets (fun S hS => ?_) h
    cases hS
    refine congrArg Host.Outcome.next ?_
    cases blockTypeOperand S b with
    | error f => rfl
    | ok B => exact answer_withPackets _ _
  · refine withFamily_withPackets (fun S hS => ?_) h
    by_cases hl : l.length ≠ S.blockTypes.length
    · rw [if_pos hl] at hS
      cases hS
      exact if_pos hl
    · rw [if_neg hl] at hS
      cases hS
      exact if_neg hl
  · exact exec_faNext_withPackets h

end Packets

/-- Settles O23: the unit is no writer of the three, and reads none of them. -/
theorem frameAddressUnitIsIsolated : Obligations.FrameAddressUnitIsIsolated := by
  intro i hi s q a p t h
  obtain ⟨keepsStream, notBuild⟩ := IsFrameUnit.not_writer hi
  have stream := (exec_effect h).stream_cases.resolve_right keepsStream
  have pkt := (exec_effect h).pkt_cases.resolve_right fun hbuild => notBuild hbuild.1
  exact ⟨congrArg Stream.seq stream, congrArg Stream.acc stream, pkt, exec_withPackets hi h⟩

end Sys2Proof.Machine
end

section
/-! PROOFS of the family `other`, checksum and sequence: the default checksum as polynomial division (R131), the
checksum as a plain fold (R33, R139), and lists of packets however they are split (R139, R181, R84). -/

namespace Sys2Proof.Machine

/-! ## The default checksum -/

/-- The generator polynomial where a bit falls out at the top, and nothing else (R131). -/
def polyIf (b : Bool) : Word := if b then crcPoly else 0#32

theorem polyIf_xor (a b : Bool) : polyIf (a ^^ b) = polyIf a ^^^ polyIf b := by
  cases a with
  | false => cases b <;> rfl
  | true => cases b <;> rfl

theorem xor_polyIf (v : Word) (b : Bool) : v ^^^ polyIf b = if b then v ^^^ crcPoly else v := by
  cases b with
  | false => exact BitVec.xor_zero
  | true => rfl

/-- One shift-and-reduce of the division by the generator polynomial (R131). -/
def shiftReduce (v : Word) : Word := (v <<< 1) ^^^ polyIf (v.getLsbD 31)

theorem shiftReduce_xor (a b : Word) : shiftReduce (a ^^^ b) = shiftReduce a ^^^ shiftReduce b := by
  rw [shiftReduce, BitVec.getLsbD_xor, BitVec.shiftLeft_xor_distrib, polyIf_xor, shiftReduce, shiftReduce]
  ac_rfl

/-- A shift of the accumulator takes in the next bit of a word that stands above the top (R131). -/
theorem shiftReduce_xor_shiftLeft {k : Nat} (hk : k < 32) (acc w : Word) :
    shiftReduce (acc ^^^ (w <<< (32 - (k + 1)))) =
      (if acc.getLsbD 31 != w.getLsbD k then (acc <<< 1) ^^^ crcPoly else acc <<< 1) ^^^ (w <<< (32 - k)) := by
  have hshift : (w <<< (32 - (k + 1))) <<< 1 = w <<< (32 - k) := by
    rw [← BitVec.shiftLeft_add]
    congr 1
    omega
  have htop : (w <<< (32 - (k + 1))).getLsbD 31 = w.getLsbD k := by
    have hbit : 31 - (32 - (k + 1)) = k := by omega
    rw [BitVec.getLsbD_shiftLeft, hbit]
    simp
  rw [← xor_polyIf, Bool.bne_eq_xor, shiftReduce, BitVec.getLsbD_xor, BitVec.shiftLeft_xor_distrib, hshift, htop,
    BitVec.xor_assoc, BitVec.xor_assoc, BitVec.xor_comm (polyIf _)]

/-- The loop of R131 with `k` bits left is `k` shifts of the accumulator with those bits added at the top. -/
theorem crcBits_eq_iterate {k : Nat} (hk : k ≤ 32) (acc w : Word) :
    crcBits k acc w = shiftReduce^[k] (acc ^^^ (w <<< (32 - k))) := by
  induction k generalizing acc with
  | zero => simp [crcBits]
  | succ k ih => rw [crcBits, ih (by omega), Function.iterate_succ_apply, shiftReduce_xor_shiftLeft (by omega)]

/-- The default `CRC_STEP` is 32 shifts of the accumulator with the word added (R131). -/
theorem crcStep_bitSerial (acc w : Word) : crcStep .bitSerial acc w = shiftReduce^[32] (acc ^^^ w) := by
  rw [crcStep, crcBits_eq_iterate le_rfl, Nat.sub_self, BitVec.shiftLeft_zero]

theorem iterate_shiftReduce_xor (n : Nat) (a b : Word) :
    shiftReduce^[n] (a ^^^ b) = shiftReduce^[n] a ^^^ shiftReduce^[n] b := by
  induction n generalizing a b with
  | zero => rfl
  | succ n ih => rw [Function.iterate_succ_apply, shiftReduce_xor, ih]; rfl

/-- Below the top bit a shift is the next power of two (R131). -/
theorem shiftReduce_twoPow {k : Nat} (hk : k < 31) : shiftReduce (1#32 <<< k) = 1#32 <<< (k + 1) := by
  have htop : (1#32 <<< k).getLsbD 31 = false := by
    have hbit : 31 - k ≠ 0 := by omega
    simp [hbit]
  rw [shiftReduce, htop, BitVec.shiftLeft_add]
  exact BitVec.xor_zero

theorem iterate_shiftReduce_one {k : Nat} (hk : k ≤ 31) : shiftReduce^[k] 1#32 = 1#32 <<< k := by
  induction k with
  | zero => rfl
  | succ k ih => rw [Function.iterate_succ_apply', ih (by omega), shiftReduce_twoPow (by omega)]

/-- The value at bit 0 is the polynomial: the bit reaches the top in 31 shifts and falls out in the last (R131). -/
theorem iterate_shiftReduce_one_eq_poly : shiftReduce^[32] 1#32 = crcPoly := by
  rw [Function.iterate_succ_apply', iterate_shiftReduce_one le_rfl]
  decide

/-- Settles O35: the step is 32 shifts of `acc xor w`; each shift is linear, and the shift of a power of two below the
top is the next one. -/
theorem defaultCrcIsPolynomialDivision : Obligations.DefaultCrcIsPolynomialDivision := by
  unfold Obligations.DefaultCrcIsPolynomialDivision
  simp only [crcStep_bitSerial, BitVec.zero_xor]
  refine ⟨fun _ _ => trivial, iterate_shiftReduce_xor 32, Function.iterate_fixed (by decide) 32,
    iterate_shiftReduce_one_eq_poly, fun k hk => ?_⟩
  rw [← shiftReduce_twoPow hk, ← Function.iterate_succ_apply, Function.iterate_succ_apply']
  exact xor_polyIf _ _

/-! ## The checksum as a fold -/

theorem fold_append (f : CrcFunction) (acc : Word) (a b : List Word) :
    fold f acc (a ++ b) = fold f (fold f acc a) b := by
  induction a generalizing acc with
  | nil => rfl
  | cons w a ih => exact ih _

/-- Settles O34, by induction on the first list. -/
theorem foldIsAppendAssociative : Obligations.FoldIsAppendAssociative := fold_append

/-- Where no packet resets the checksum, `fold_seq` is the fold over the word stream (R33 (I-b)). -/
theorem foldSeq_eq_fold {c : Constants} {seq : List Packet} (h : ∀ p ∈ seq, ∀ w ∈ p.payload, ¬ ResetsCrc c p w)
    (acc : Word) : foldSeq c acc seq = fold c.crcFunction acc (wordStream c seq) := by
  induction seq generalizing acc with
  | nil => rfl
  | cons p ps ih =>
    rw [foldSeq, wordStream, fold_append, absorb_eq_fold (h p (by simp)), ih fun x hx => h x (by simp [hx])]

/-- Settles O37: either condition leaves no reset word in the sequence. -/
theorem checksumIsPlainFoldWithoutReset : Obligations.ChecksumIsPlainFoldWithoutReset := by
  intro c acc seq h
  refine foldSeq_eq_fold (fun p hp w hw hreset => ?_) acc
  obtain ⟨hcmd, hop, hreg⟩ := hreset
  obtain hnone | hquiet := h
  · cases hnone.symm.trans hcmd
  · exact hquiet p hp hop hreg w hw hcmd

/-- Settles O38: the stream is the packets' words one after the other. -/
theorem wordCountIsHeadersPlusPayloads : Obligations.WordCountIsHeadersPlusPayloads := by
  intro s
  rw [State.nwords, State.words]
  induction s.seq with
  | nil => rfl
  | cons p ps ih => rw [wordStream, List.length_append, words_length, ih, List.map_cons, List.sum_cons]

/-! ## Splitting a list append -/

/-- `SQ.ADDALL` succeeds exactly when every packet is accepted, with the stream they leave (R137, R193). -/
theorem exec_sqAddAll_success_iff {s u : State} {ps : List Packet} :
    exec (.sqAddAll ps) s = .next u ∧ u.lasterr = 0#8 ↔
      ∃ q, appendAll s.consts ps s.stream = .ok q ∧ u = succeed (.acc q.acc) (s.withStream q) := by
  cases h : appendAll s.consts ps s.stream with
  | error f =>
    rw [exec_sqAddAll h, completeAppend_error]
    refine iff_of_false ?_ (by simp)
    rintro ⟨⟨⟩, hlatch⟩
    exact f.code_ne_zero hlatch
  | ok q =>
    rw [exec_sqAddAll h, completeAppend_ok]
    constructor
    · rintro ⟨⟨⟩, -⟩
      exact ⟨q, rfl, rfl⟩
    · rintro ⟨q', ⟨⟩, rfl⟩
      exact ⟨rfl, rfl⟩

/-- Settles O42: `append_packet` over a list is over its two parts in turn, and over one packet itself. -/
theorem addAllSplitsFreely : Obligations.AddAllSplitsFreely := by
  refine ⟨fun s u ps qs => ?_, fun s p hp => ?_⟩
  · rw [exec_sqAddAll_success_iff, appendAll_append]
    constructor
    · rintro ⟨q, hq, rfl⟩
      cases hps : appendAll s.consts ps s.stream with
      | error f => rw [hps] at hq; cases hq
      | ok q1 =>
        rw [hps] at hq
        have first := exec_sqAddAll_success_iff.mpr ⟨q1, hps, rfl⟩
        exact ⟨_, first.1, first.2, exec_sqAddAll_success_iff.mpr ⟨q, hq, rfl⟩⟩
    · rintro ⟨t, ht, hlatch, hu, hulatch⟩
      obtain ⟨q1, hps, rfl⟩ := exec_sqAddAll_success_iff.mp ⟨ht, hlatch⟩
      obtain ⟨q, hqs, rfl⟩ := exec_sqAddAll_success_iff.mp ⟨hu, hulatch⟩
      exact ⟨q, by rw [hps]; exact hqs, rfl⟩
  · rw [exec_sqAdd_of_some hp rfl, exec_sqAddAll rfl, appendPacket_eq_appendAll]

end Sys2Proof.Machine
end

section
/-! PROOFS of the family `other`, expansions: the initial block for two IDCODEs (R172, R181) and the pseudo-operations
(R84). -/

namespace Sys2Proof.Machine

/-! ## Two initial blocks -/

/-- The packets of the initial block before the IDCODE write (R172). -/
def initBefore (g : GenRec) : List Packet :=
  padding g.nSyncNop ++ [writePacket "WBSTAR" g.wbstarReset, writePacket "TIMER" g.timerReset,
    writePacket g.calReg g.calReset, writePacket g.corReg g.corValue]

/-- The packets of the initial block after the IDCODE write (R172). -/
def initAfter (g : GenRec) : List Packet :=
  [writePacket "CMD" g.cmdSwitch, writePacket "MASK" g.initMask, writePacket g.initCtlReg g.initCtl] ++
    padding g.nInitPad

theorem initBlock_split (g : GenRec) (w : Word) :
    initBlock g w = initBefore g ++ writePacket "IDCODE" w :: initAfter g := by
  simp [initBlock, initBefore, initAfter]

theorem initBefore_length (g : GenRec) : (initBefore g).length = g.nSyncNop + 4 := by
  simp [initBefore]

theorem wordStream_padding_length (c : Constants) (n : Nat) : (wordStream c (padding n)).length = n := by
  induction n with
  | zero => rfl
  | succ n ih =>
    rw [show padding (n + 1) = nopPacket :: padding n from rfl, wordStream, List.length_append, words_length, ih]
    simp [nopPacket, Nat.add_comm]

/-- The words of the initial block before the IDCODE word: its header is the last of them (R172). -/
def initWordsBefore (c : Constants) (g : GenRec) : List Word :=
  wordStream c (initBefore g) ++ [header c (writePacket "IDCODE" 0#32)]

theorem initWordsBefore_length (c : Constants) (g : GenRec) : (initWordsBefore c g).length = g.nSyncNop + 9 := by
  simp [initWordsBefore, initBefore, wordStream_append, wordStream_padding_length, wordStream, writePacket]

/-- The header of a one-word write does not depend on the value written (R74). -/
theorem wordStream_initBlock (c : Constants) (g : GenRec) (w : Word) :
    wordStream c (initBlock g w) = initWordsBefore c g ++ w :: wordStream c (initAfter g) := by
  rw [initBlock_split, wordStream_append, initWordsBefore, List.append_assoc]
  rfl

/-- Two lists that differ in one place are equal in every other. -/
theorem getElem?_append_cons_of_ne {α : Type} {l m : List α} {a b : α} {i : Nat} (h : i ≠ l.length) :
    (l ++ a :: m)[i]? = (l ++ b :: m)[i]? := by
  obtain hi | hi := lt_or_gt_of_ne h
  · rw [List.getElem?_append_left hi, List.getElem?_append_left hi]
  · obtain ⟨k, rfl⟩ := Nat.exists_eq_add_of_lt hi
    simp [List.getElem?_append_right, Nat.add_assoc]

/-- `GN.INIT` that succeeds found every register of its block known (R172). -/
theorem known_of_exec_gnInit {s t : State} {f : String} {S : ConfigurationSpecification} {w : Word}
    (hf : s.fam = some f) (hS : s.consts.family? f = some S) (h : exec (.gnInit w) s = .next t) (ht : t.lasterr = 0#8) :
    ∀ r ∈ registerNames (initBlock S.generator w), s.consts.IsRegister (.named r) := by
  by_contra hall
  obtain ⟨r, hr⟩ := not_forall.mp hall
  rw [exec_gnInit hf hS (appendAll_of_unknown (isBlock_initBlock S.generator w) ⟨r, Classical.not_imp.mp hr⟩ _)] at h
  cases h
  exact BlockFault.code_ne_zero .invalidRegister ht

/-- With every register known `GN.INIT` leaves its block as the sequence (R172). -/
theorem exec_gnInit_of_known {s t : State} {f : String} {S : ConfigurationSpecification} {w : Word}
    (hf : s.fam = some f) (hS : s.consts.family? f = some S)
    (hknown : ∀ r ∈ registerNames (initBlock S.generator w), s.consts.IsRegister (.named r))
    (h : exec (.gnInit w) s = .next t) :
    t.lasterr = 0#8 ∧ t.seq = initBlock S.generator w ∧ t.words = wordStream s.consts (initBlock S.generator w) := by
  rw [exec_gnInit hf hS (appendAll_of_known (isBlock_initBlock S.generator w) hknown _)] at h
  cases h
  exact ⟨rfl, rfl, rfl⟩

/-- Settles O52: both blocks and both word streams are one list with the IDCODE in one place. -/
theorem initialBlockIsInputIsolated : Obligations.InitialBlockIsInputIsolated := by
  intro s t u a b f S hf hS ht hu hlatch
  have known := known_of_exec_gnInit hf hS ht hlatch
  obtain ⟨-, htseq, htwords⟩ := exec_gnInit_of_known hf hS known ht
  rw [registerNames_initBlock, ← registerNames_initBlock S.generator b] at known
  obtain ⟨hulatch, huseq, huwords⟩ := exec_gnInit_of_known hf hS known hu
  rw [htseq, huseq, htwords, huwords, wordStream_initBlock, wordStream_initBlock, initBlock_split, initBlock_split,
    ← initBefore_length, ← initWordsBefore_length s.consts]
  refine ⟨hulatch, by simp, by simp, fun i => getElem?_append_cons_of_ne,
    ⟨writePacket "IDCODE" a, by simp, rfl, by simp [writePacket]⟩, fun i => getElem?_append_cons_of_ne,
    by simp, by simp⟩

/-! ## Runs of operations -/

/-- A fault ends the run (R84). -/
theorem runUntilFault_of_raise {i : Instr} {is : List Instr} {s t : State} {f : BlockFault}
    (h : exec i s = .next (raise f t)) : runUntilFault (i :: is) s = .next (raise f t) := by
  rw [runUntilFault, h]
  exact if_neg f.code_ne_zero

/-- After a success the run goes on (R84). -/
theorem runUntilFault_of_succeed {i : Instr} {is : List Instr} {s t : State} {v : ResultValue}
    (h : exec i s = .next (succeed v t)) : runUntilFault (i :: is) s = runUntilFault is (succeed v t) := by
  rw [runUntilFault, h]
  rfl

/-- `n` times `SQ.ADD` of a staged NOP packet (R84, R136). -/
theorem runUntilFault_sqAdd_nop (n : Nat) {s : State} (hpkt : s.pkt = some nopPacket) (hlatch : s.lasterr = 0#8) :
    ∃ t, runUntilFault (List.replicate n .sqAdd) s = .next t ∧ t.seq = s.seq ++ padding n ∧
      t.acc = foldSeq s.consts s.acc (padding n) ∧ t.lasterr = 0#8 := by
  induction n generalizing s with
  | zero => exact ⟨s, rfl, (List.append_nil _).symm, rfl, hlatch⟩
  | succ n ih =>
    have added := exec_sqAdd_of_some hpkt (appendPacket_t1 (nopPacket_wellFormed s.consts) rfl s.stream)
    rw [completeAppend_ok] at added
    obtain ⟨t, ht, hseq, hacc, hlatch'⟩ :=
      ih (s := succeed (.acc (absorb s.consts s.acc nopPacket))
        (s.withStream (commitPacket s.consts nopPacket s.stream))) hpkt rfl
    refine ⟨t, (runUntilFault_of_succeed added).trans ht, hseq.trans ?_, hacc, hlatch'⟩
    exact List.append_assoc s.seq [nopPacket] (padding n)

section BuildThenAdd

variable {b : Instr} {s : State} {p : Packet}

/-- A staged packet that keeps the pairing is appended and absorbed (R84, R136). -/
theorem run_build_add (hb : exec b s = .next (succeed .unit { s with pkt := some p })) (hwf : p.WellFormed s.consts)
    (hnop : ¬ (p.htype = .t2 ∧ p.opcode = .nop))
    (hheader : p.htype = .t2 → ∃ q, s.seq.getLast? = some q ∧ HeaderFor q p) :
    runUntilFault [b, .sqAdd] s = .next (succeed (.acc (absorb s.consts s.acc p))
      { s with pkt := some p, seq := s.seq ++ [p], acc := absorb s.consts s.acc p }) := by
  have accepted : appendPacket s.consts p s.stream = .ok (commitPacket s.consts p s.stream) :=
    (appendPacket_ok_iff ..).mpr ⟨⟨hwf, hnop⟩, hheader, rfl⟩
  have added := exec_sqAdd_of_some (s := succeed .unit { s with pkt := some p }) rfl accepted
  exact (runUntilFault_of_succeed hb).trans (runUntilFault_of_succeed added)

/-- A staged Type-2 packet whose header is not the last packet stays staged (R84, R136). -/
theorem run_build_add_orphan (hb : exec b s = .next (succeed .unit { s with pkt := some p }))
    (hwf : p.WellFormed s.consts) (hnop : ¬ (p.htype = .t2 ∧ p.opcode = .nop)) (ht : p.htype = .t2)
    (horphan : ∀ q, s.seq.getLast? = some q → ¬ HeaderFor q p) :
    runUntilFault [b, .sqAdd] s = .next (raise (.malformedPacket .t2Orphan) { s with pkt := some p }) := by
  have refused : appendPacket s.consts p s.stream = .error (.malformedPacket .t2Orphan) :=
    appendPacket_of_orphan ((checkPacket_ok_iff ..).mpr ⟨hwf, hnop⟩) ht horphan
  have added := exec_sqAdd_of_some (s := succeed .unit { s with pkt := some p }) rfl refused
  exact (runUntilFault_of_succeed hb).trans (runUntilFault_of_raise added)

end BuildThenAdd

/-! ## The pseudo-operations -/

/-- The five pseudo-operations of one build operation and one `SQ.ADD`, each with its build operation (R84). -/
def BuildsThenAdds (e : Pseudo) (b : Instr) : Prop :=
  (∃ o r v, e = .w1 o r v ∧ b = .pkW1 o r v) ∨ (∃ o r n l, e = .t1 o r n l ∧ b = .pkT1 o r n l) ∨
    (∃ o r n l, e = .t2 o r n l ∧ b = .pkT2 o r n l) ∨ (∃ o r, e = .hdr0 o r ∧ b = .pkT1 o r 0 []) ∨
    ∃ v, e = .cmd v ∧ b = .pkW1 "WRITE" (.named "CMD") v

theorem BuildsThenAdds.expand {e : Pseudo} {b : Instr} (h : BuildsThenAdds e b) :
    expandPseudo e = [b, .sqAdd] ∧ IsBuild b := by
  obtain ⟨o, r, v, rfl, rfl⟩ | ⟨o, r, n, l, rfl, rfl⟩ | ⟨o, r, n, l, rfl, rfl⟩ | ⟨o, r, rfl, rfl⟩ | ⟨v, rfl, rfl⟩ := h
  · exact ⟨rfl, .inr (.inl ⟨o, r, v, rfl⟩)⟩
  · exact ⟨rfl, .inr (.inr (.inl ⟨o, r, n, l, rfl⟩))⟩
  · exact ⟨rfl, .inr (.inr (.inr ⟨o, r, n, l, rfl⟩))⟩
  · exact ⟨rfl, .inr (.inr (.inl ⟨o, r, 0, [], rfl⟩))⟩
  · exact ⟨rfl, .inr (.inl ⟨_, _, v, rfl⟩)⟩

theorem exists_name_of_isRegister {c : Constants} {r : RegName} (h : c.IsRegister r) : ∃ n, r = .named n := by
  obtain ⟨a, ha⟩ := Option.isSome_iff_exists.mp h
  obtain ⟨n, hn, -⟩ := mem_of_addrOf?_eq_some ha
  exact ⟨n, hn⟩

/-- `PK.W1` to a register that is no key faults, at the opcode name or at the register (R112). -/
theorem buildW1_of_not_isRegister {c : Constants} {r : RegName} (hreg : ¬ c.IsRegister r) (n : String) (v : Word) :
    ∃ f, buildW1 c n r v = .error f := by
  by_cases hn : n ∈ opcodeTable.map Prod.fst
  · obtain ⟨o, ho⟩ := exists_opcode_of_mem_names hn
    exact ⟨_, buildW1_of_unknownRegister (lookupOpcode_of_mem ho) hreg v⟩
  · exact ⟨_, buildW1_of_unknownName (lookupOpcode_of_not_mem hn) v⟩

/-- Settles O56: `EM.NOP n` is `n` adds of one staged packet; in the other five the build faults or stages a packet,
whose pairing decides the add. -/
theorem pseudoOperationsExpand : Obligations.PseudoOperationsExpand := by
  refine ⟨fun s n => ?_, fun s r v hreg => ?_, fun s n r v hreg => ?_, fun s e b hexpand => ?_⟩
  · have built := runUntilFault_of_succeed (is := List.replicate n .sqAdd) (exec_pkNop s)
    obtain ⟨t, ht, hadded⟩ := runUntilFault_sqAdd_nop n (s := succeed .unit { s with pkt := some nopPacket }) rfl rfl
    exact ⟨t, built.trans ht, hadded⟩
  · obtain ⟨n, rfl⟩ := exists_name_of_isRegister hreg
    have built : exec (.pkW1 "WRITE" (.named n) v) s = .next (succeed .unit { s with pkt := some (writePacket n v) }) :=
      exec_pkW1 (buildW1_passes rfl (by decide) hreg v)
    exact ⟨_, run_build_add built (writePacket_wellFormed hreg v) (by simp) (by simp), rfl, rfl, rfl⟩
  · obtain ⟨f, hf⟩ := buildW1_of_not_isRegister hreg n v
    have built : exec (.pkW1 n r v) s = .next (raise f s) := exec_pkW1 hf
    exact ⟨raise f s, runUntilFault_of_raise built, rfl, rfl, rfl, f.code_ne_zero⟩
  · obtain ⟨hrun, hbuild⟩ := BuildsThenAdds.expand hexpand
    rw [runPseudo, hrun]
    obtain ⟨f, hf⟩ | ⟨p, hp, hwf, hnop⟩ := exec_build hbuild s
    · refine .inl ⟨f, fun t ht => ?_⟩
      subst ht
      exact ⟨hf, runUntilFault_of_raise hf⟩
    · exact .inr ⟨p, hp, run_build_add hp hwf hnop, run_build_add_orphan hp hwf hnop⟩

end Sys2Proof.Machine
end

section
/-! PROOFS of the family `other`, frame addresses: `locate` by ranges of frames (R156, R160), and the enumeration of a
device by the rank of the cursor (R158 to R160). -/

namespace Sys2Proof.Machine

open Sys2Proof.Safety

/-! ## Locating a frame -/

theorem sumFpcb_take_mono (l : List BlockSubType) {i j : Nat} (h : i ≤ j) :
    sumFpcb (l.take i) ≤ sumFpcb (l.take j) := by
  rw [sumFpcb_eq_sum, sumFpcb_eq_sum]
  exact ((List.take_sublist_take_left h).map _).sum_le_sum fun _ _ => Nat.zero_le _

/-- The ranges of frames of the subtypes follow each other: an earlier frame lies in no later subtype (R156). -/
theorem subtype_le_of_frame_le {l : List BlockSubType} {i i' t t' : Nat} {x' : BlockSubType} (hle : t ≤ t')
    (ht : sumFpcb (l.take i) ≤ t) (hx' : l[i']? = some x') (ht' : t' < sumFpcb (l.take i') + x'.fpcb) : i ≤ i' := by
  by_contra hlt
  have := sumFpcb_take_mono l (Nat.succ_le_of_lt (Nat.lt_of_not_le hlt))
  rw [Nat.succ_eq_add_one, sumFpcb_take_succ hx'] at this
  omega

/-- `locate` gives the one subtype whose range holds the frame, and the place of the frame in it (R156). -/
theorem locate_eq_ok_iff {B : BlockType} {t sub base k : Nat} :
    locate B t = .ok (sub, base, k) ↔
      ∃ x, B.subtypes[sub]? = some x ∧ base = sumFpcb (B.subtypes.take sub) ∧ k < x.fpcb ∧ t = base + k := by
  obtain ⟨exhausted, found⟩ := locateFrom_spec t B.subtypes 0 0 (Nat.zero_le t)
  simp only [Nat.zero_add] at exhausted found
  constructor
  · intro h
    obtain hout | hin := le_or_gt (sumFpcb B.subtypes) t
    · rw [locate, exhausted hout] at h
      cases h
    · obtain ⟨i, x, hx, hbase, hfrm, e⟩ := found hin
      rw [locate, e] at h
      cases h
      exact ⟨x, hx, rfl, by omega, by omega⟩
  · rintro ⟨x, hx, rfl, hk, rfl⟩
    have hin : sumFpcb (B.subtypes.take sub) + k < sumFpcb B.subtypes := by
      have := sumFpcb_take_mono B.subtypes (List.getElem?_eq_some_iff.mp hx).1
      rw [sumFpcb_take_succ hx, List.take_length] at this
      omega
    obtain ⟨i, y, hy, hbase, hfrm, e⟩ := found hin
    obtain rfl : i = sub := le_antisymm (subtype_le_of_frame_le le_rfl hbase hx (by omega))
      (subtype_le_of_frame_le le_rfl (Nat.le_add_right _ _) hy hfrm)
    rw [locate, e, Nat.add_sub_cancel_left]

/-- Settles O47: each range is located at its own subtype, and the ranges follow each other. -/
theorem locateIsOntoAndMonotone : Obligations.LocateIsOntoAndMonotone := by
  refine fun B => ⟨fun sub x k hx hk => ?_, fun t t' sub base k sub' base' k' hle h h' => ?_⟩
  · rw [← sumFpcb_eq_sum]
    exact locate_eq_ok_iff.mpr ⟨x, hx, rfl, hk, rfl⟩
  · obtain ⟨x, -, hbase, -, ht⟩ := locate_eq_ok_iff.mp h
    obtain ⟨x', hx', hbase', hk', ht'⟩ := locate_eq_ok_iff.mp h'
    exact subtype_le_of_frame_le hle (by omega) hx' (by omega)

/-! ## The enumeration has no repeats -/

/-- Where the addresses of a column lie. -/
theorem of_mem_columnAddrs {bt col s base : Nat} {l : List BlockSubType} {a : FrameAddr}
    (h : a ∈ columnAddrs bt col s base l) : a.bt = bt ∧ a.col = col ∧ s ≤ a.sub := by
  induction l generalizing s base with
  | nil => simp [columnAddrs] at h
  | cons x xs ih =>
    obtain h | h := List.mem_append.mp h
    · obtain ⟨k, -, rfl⟩ := List.mem_map.mp h
      exact ⟨rfl, rfl, le_rfl⟩
    · obtain ⟨hbt, hcol, hsub⟩ := ih h
      exact ⟨hbt, hcol, by omega⟩

theorem columnAddrs_nodup (bt col s base : Nat) (l : List BlockSubType) : (columnAddrs bt col s base l).Nodup := by
  induction l generalizing s base with
  | nil => exact List.nodup_nil
  | cons x xs ih =>
    refine List.Nodup.append (List.nodup_range.map fun k k' h => ?_) (ih _ _) fun a ha ha' => ?_
    · exact congrArg FrameAddr.frm h
    · obtain ⟨k, -, rfl⟩ := List.mem_map.mp ha
      obtain ⟨-, -, hsub⟩ := of_mem_columnAddrs ha'
      exact absurd hsub (Nat.not_succ_le_self s)

/-- The frames of one block type, columns ascending (R158). -/
def blockAddrs (bt n : Nat) (B : BlockType) : List FrameAddr :=
  (List.range n).flatMap fun col => columnAddrs bt col 0 0 B.subtypes

theorem deviceAddrs_cons (bt n : Nat) (ns : List Nat) (B : BlockType) (Bs : List BlockType) :
    deviceAddrs bt (n :: ns) (B :: Bs) = blockAddrs bt n B ++ deviceAddrs (bt + 1) ns Bs := rfl

theorem bt_of_mem_blockAddrs {bt n : Nat} {B : BlockType} {a : FrameAddr} (h : a ∈ blockAddrs bt n B) : a.bt = bt := by
  obtain ⟨col, -, hcol⟩ := List.mem_flatMap.mp h
  exact (of_mem_columnAddrs hcol).1

theorem blockAddrs_nodup (bt n : Nat) (B : BlockType) : (blockAddrs bt n B).Nodup := by
  refine List.nodup_flatMap.mpr ⟨fun col _ => columnAddrs_nodup .., List.nodup_range.imp fun hne a ha ha' => hne ?_⟩
  exact (of_mem_columnAddrs ha).2.1.symm.trans (of_mem_columnAddrs ha').2.1

theorem le_bt_of_mem_deviceAddrs {bt : Nat} {ncols : List Nat} {Bs : List BlockType} {a : FrameAddr}
    (h : a ∈ deviceAddrs bt ncols Bs) : bt ≤ a.bt := by
  induction ncols generalizing bt Bs with
  | nil => simp [deviceAddrs] at h
  | cons n ns ih =>
    cases Bs with
    | nil => simp [deviceAddrs] at h
    | cons B Bs =>
      obtain h | h := List.mem_append.mp h
      · exact (bt_of_mem_blockAddrs h).ge
      · exact (Nat.le_succ bt).trans (ih h)

theorem deviceAddrs_nodup (bt : Nat) (ncols : List Nat) (Bs : List BlockType) : (deviceAddrs bt ncols Bs).Nodup := by
  induction ncols generalizing bt Bs with
  | nil => exact List.nodup_nil
  | cons n ns ih =>
    cases Bs with
    | nil => exact List.nodup_nil
    | cons B Bs =>
      refine List.Nodup.append (blockAddrs_nodup ..) (ih ..) fun a ha ha' => ?_
      have later := le_bt_of_mem_deviceAddrs ha'
      rw [bt_of_mem_blockAddrs ha] at later
      exact absurd later (Nat.not_succ_le_self bt)

/-! ## The enumeration by position -/

@[simp] theorem columnAddrs_length (bt col s base : Nat) (l : List BlockSubType) :
    (columnAddrs bt col s base l).length = sumFpcb l := by
  induction l generalizing s base with
  | nil => rfl
  | cons x xs ih => rw [columnAddrs, List.length_append, List.length_map, List.length_range, ih, sumFpcb]

@[simp] theorem blockAddrs_length (bt n : Nat) (B : BlockType) : (blockAddrs bt n B).length = n * total B := by
  simp [blockAddrs, List.length_flatMap, total]

@[simp] theorem deviceAddrs_length (bt : Nat) (ncols : List Nat) (Bs : List BlockType) :
    (deviceAddrs bt ncols Bs).length = deviceFrames ncols Bs := by
  induction ncols generalizing bt Bs with
  | nil => rfl
  | cons n ns ih =>
    cases Bs with
    | nil => rfl
    | cons B Bs => rw [deviceAddrs_cons, List.length_append, blockAddrs_length, ih, deviceFrames]

/-- Frame `k` of a subtype in the order of its column (R152, R158). -/
theorem columnAddrs_getElem? {bt col s base : Nat} {l : List BlockSubType} {i k : Nat} {x : BlockSubType}
    (hx : l[i]? = some x) (hk : k < x.fpcb) :
    (columnAddrs bt col s base l)[sumFpcb (l.take i) + k]? =
      some ⟨bt, col, s + i, base + sumFpcb (l.take i), k⟩ := by
  induction l generalizing s base i with
  | nil => simp at hx
  | cons y ys ih =>
    cases i with
    | zero =>
      obtain rfl : y = x := by simpa using hx
      rw [columnAddrs, List.take_zero, sumFpcb, Nat.zero_add, List.getElem?_append_left (by simpa using hk)]
      simp [hk]
    | succ i =>
      have place : sumFpcb ((y :: ys).take (i + 1)) + k =
          ((List.range y.fpcb).map fun k => (⟨bt, col, s, base, k⟩ : FrameAddr)).length +
            (sumFpcb (ys.take i) + k) := by
        simp [sumFpcb, Nat.add_assoc]
      rw [place, columnAddrs, List.getElem?_append_right (Nat.le_add_right _ _), Nat.add_sub_cancel_left,
        ih (by simpa using hx)]
      simp [sumFpcb]
      omega

/-- Place `j` of a column in the order of its block type (R158). -/
theorem blockAddrs_getElem? {bt n col j : Nat} {B : BlockType} (hcol : col < n) (hj : j < total B) :
    (blockAddrs bt n B)[col * total B + j]? = (columnAddrs bt col 0 0 B.subtypes)[j]? := by
  induction n with
  | zero => cases hcol
  | succ n ih =>
    have split : blockAddrs bt (n + 1) B = blockAddrs bt n B ++ columnAddrs bt n 0 0 B.subtypes := by
      simp [blockAddrs, List.range_succ]
    rw [split]
    obtain hlt | rfl := Nat.lt_succ_iff_lt_or_eq.mp hcol
    · have inside : col * total B + j < (blockAddrs bt n B).length := by
        have := Nat.mul_le_mul_right (total B) (Nat.succ_le_of_lt hlt)
        rw [Nat.succ_mul] at this
        rw [blockAddrs_length]
        omega
      rw [List.getElem?_append_left inside, ih hlt]
    · rw [← blockAddrs_length bt, List.getElem?_append_right (Nat.le_add_right _ _), Nat.add_sub_cancel_left]

/-- Place `j` of a block type in the order of the device (R158). -/
theorem deviceAddrs_getElem? {bt b n j : Nat} {ncols : List Nat} {Bs : List BlockType} {B : BlockType}
    (hn : ncols[b]? = some n) (hB : Bs[b]? = some B) (hj : j < n * total B) :
    (deviceAddrs bt ncols Bs)[deviceFrames (ncols.take b) (Bs.take b) + j]? = (blockAddrs (bt + b) n B)[j]? := by
  induction ncols generalizing bt b Bs with
  | nil => simp at hn
  | cons m ms ih =>
    cases Bs with
    | nil => simp at hB
    | cons A As =>
      cases b with
      | zero =>
        obtain rfl : m = n := by simpa using hn
        obtain rfl : A = B := by simpa using hB
        rw [deviceAddrs_cons, List.getElem?_append_left (by simpa [deviceFrames] using hj)]
        simp [deviceFrames]
      | succ b =>
        have place : deviceFrames ((m :: ms).take (b + 1)) ((A :: As).take (b + 1)) + j =
            (blockAddrs bt m A).length + (deviceFrames (ms.take b) (As.take b) + j) := by
          simp [deviceFrames, Nat.add_assoc]
        rw [place, deviceAddrs_cons, List.getElem?_append_right (Nat.le_add_right _ _), Nat.add_sub_cancel_left,
          ih (by simpa using hn) (by simpa using hB), Nat.add_assoc, Nat.add_comm 1 b]

/-! ## The rank of the cursor -/

/-- The number of frames before the cursor in the order of R158. -/
def cursorRank (S : ConfigurationSpecification) (fa : Cursor) : Nat :=
  match S.blockTypes[fa.bt]? with
  | none => 0
  | some B =>
    deviceFrames (fa.ncols.take fa.bt) (S.blockTypes.take fa.bt) +
      (fa.col * total B + (sumFpcb (B.subtypes.take fa.sub) + fa.frm))

theorem cursorRank_eq {S : ConfigurationSpecification} {fa : Cursor} {B : BlockType}
    (hB : S.blockTypes[fa.bt]? = some B) :
    cursorRank S fa = deviceFrames (fa.ncols.take fa.bt) (S.blockTypes.take fa.bt) +
      (fa.col * total B + (sumFpcb (B.subtypes.take fa.sub) + fa.frm)) := by
  rw [cursorRank, hB]

/-- The frames before the end of a subtype's column part are at most those of the column (R155). -/
theorem sumFpcb_take_add_le {B : BlockType} {i : Nat} {x : BlockSubType} (hx : B.subtypes[i]? = some x) :
    sumFpcb (B.subtypes.take i) + x.fpcb ≤ total B := by
  have := sumFpcb_take_mono B.subtypes (List.getElem?_eq_some_iff.mp hx).1
  rwa [sumFpcb_take_succ hx, List.take_length] at this

/-- The last subtype ends its column (R155). -/
theorem sumFpcb_take_add_eq {B : BlockType} {i : Nat} {x : BlockSubType} (hx : B.subtypes[i]? = some x)
    (hlast : B.subtypes.length ≤ i + 1) : sumFpcb (B.subtypes.take i) + x.fpcb = total B := by
  rw [← sumFpcb_take_succ hx, List.take_of_length_le hlast, total]

theorem deviceFrames_take_succ {ncols : List Nat} {Bs : List BlockType} {b n : Nat} {B : BlockType}
    (hn : ncols[b]? = some n) (hB : Bs[b]? = some B) :
    deviceFrames (ncols.take (b + 1)) (Bs.take (b + 1)) =
      deviceFrames (ncols.take b) (Bs.take b) + n * total B := by
  induction ncols generalizing b Bs with
  | nil => simp at hn
  | cons m ms ih =>
    cases Bs with
    | nil => simp at hB
    | cons A As =>
      cases b with
      | zero =>
        obtain rfl : m = n := by simpa using hn
        obtain rfl : A = B := by simpa using hB
        simp [deviceFrames]
      | succ b =>
        have := ih (b := b) (by simpa using hn) (by simpa using hB)
        simp only [List.take_succ_cons, deviceFrames] at this ⊢
        omega

/-- Block types without columns add no frames (R158). -/
theorem deviceFrames_take_eq_of_noColumns {ncols : List Nat} {Bs : List BlockType} (hlen : ncols.length = Bs.length)
    {a b : Nat} (hab : a ≤ b) (h : ∀ j m, a ≤ j → j < b → ncols[j]? = some m → m = 0) :
    deviceFrames (ncols.take b) (Bs.take b) = deviceFrames (ncols.take a) (Bs.take a) := by
  induction b, hab using Nat.le_induction with
  | base => rfl
  | succ b hab ih =>
    rw [← ih fun j m hj hlt => h j m hj (by omega)]
    obtain hout | hin := le_or_gt ncols.length b
    · have hout' : Bs.length ≤ b := hlen ▸ hout
      rw [List.take_of_length_le (hout.trans (Nat.le_succ b)), List.take_of_length_le (hout'.trans (Nat.le_succ b)),
        List.take_of_length_le hout, List.take_of_length_le hout']
    · have hn : ncols[b]? = some 0 := by
        rw [List.getElem?_eq_getElem hin, h b _ hab (Nat.lt_succ_self b) (List.getElem?_eq_getElem hin)]
      rw [deviceFrames_take_succ hn (List.getElem?_eq_getElem (hlen ▸ hin)), Nat.zero_mul, Nat.add_zero]

section Rank

variable {S : ConfigurationSpecification} {fa : Cursor} {B : BlockType} {x : BlockSubType} {n : Nat}

/-- The address at a cursor in the table stands at the cursor's rank (R158, R159). -/
theorem deviceAddrs_getElem?_cursorRank (hB : S.blockTypes[fa.bt]? = some B) (hx : B.subtypes[fa.sub]? = some x)
    (hn : fa.ncols[fa.bt]? = some n) (hfrm : fa.frm < x.fpcb) (hcol : fa.col < n) :
    (deviceAddrs 0 fa.ncols S.blockTypes)[cursorRank S fa]? = some (cursorAddr B fa) := by
  have inColumn : sumFpcb (B.subtypes.take fa.sub) + fa.frm < total B := by
    have := sumFpcb_take_add_le hx
    omega
  have inBlock : fa.col * total B + (sumFpcb (B.subtypes.take fa.sub) + fa.frm) < n * total B := by
    have := Nat.mul_le_mul_right (total B) (Nat.succ_le_of_lt hcol)
    rw [Nat.succ_mul] at this
    omega
  rw [cursorRank_eq hB, deviceAddrs_getElem? hn hB inBlock, blockAddrs_getElem? hcol inColumn,
    columnAddrs_getElem? hx hfrm]
  simp [cursorAddr]

/-- Advancing the cursor raises its rank by one, or ends the enumeration at the last frame (R159). -/
theorem cursorRank_advanceCursor (hlen : fa.ncols.length = S.blockTypes.length) (hd : fa.done = false)
    (hB : S.blockTypes[fa.bt]? = some B) (hx : B.subtypes[fa.sub]? = some x) (hn : fa.ncols[fa.bt]? = some n)
    (hfrm : fa.frm < x.fpcb) (hcol : fa.col < n) :
    ((advanceCursor B.subtypes.length x.fpcb n fa).done = false ∧
      cursorRank S (advanceCursor B.subtypes.length x.fpcb n fa) = cursorRank S fa + 1) ∨
    ((advanceCursor B.subtypes.length x.fpcb n fa).done = true ∧
      cursorRank S fa + 1 = deviceFrames fa.ncols S.blockTypes) := by
  have columnEnd : x.fpcb ≤ fa.frm + 1 → B.subtypes.length ≤ fa.sub + 1 →
      sumFpcb (B.subtypes.take fa.sub) + fa.frm + 1 = total B := fun hlast hsub => by
    rw [← sumFpcb_take_add_eq hx hsub]
    omega
  have blockEnd : x.fpcb ≤ fa.frm + 1 → B.subtypes.length ≤ fa.sub + 1 → n ≤ fa.col + 1 →
      cursorRank S fa + 1 = deviceFrames (fa.ncols.take (fa.bt + 1)) (S.blockTypes.take (fa.bt + 1)) :=
    fun hlast hsub hcol' => by
      obtain rfl : n = fa.col + 1 := by omega
      rw [cursorRank_eq hB, deviceFrames_take_succ hn hB, Nat.succ_mul, ← columnEnd hlast hsub]
      omega
  obtain ⟨-, e⟩ | ⟨hlast, -, e⟩ | ⟨hlast, hsub, -, e⟩ | ⟨hlast, hsub, hcol', ⟨b, hnext, e⟩ | ⟨hnext, e⟩⟩ :=
    advanceCursor_cases B.subtypes.length x.fpcb n fa
  all_goals rw [e]
  · refine .inl ⟨hd, ?_⟩
    rw [cursorRank_eq hB, cursorRank_eq (fa := { fa with frm := fa.frm + 1 }) hB]
    dsimp only
    omega
  · refine .inl ⟨hd, ?_⟩
    rw [cursorRank_eq hB, cursorRank_eq (fa := { fa with sub := fa.sub + 1, frm := 0 }) hB]
    dsimp only
    rw [sumFpcb_take_succ hx]
    omega
  · refine .inl ⟨hd, ?_⟩
    rw [cursorRank_eq hB, cursorRank_eq (fa := { fa with col := fa.col + 1, sub := 0, frm := 0 }) hB]
    dsimp only
    rw [Nat.succ_mul, List.take_zero, sumFpcb, ← columnEnd hlast hsub]
    omega
  · obtain ⟨hlt, ⟨m, hm, -⟩, hbetween⟩ := nextWithColumns_eq_some.mp hnext
    have hB' := List.getElem?_eq_getElem (hlen ▸ (List.getElem?_eq_some_iff.mp hm).1)
    refine .inl ⟨hd, ?_⟩
    rw [blockEnd hlast hsub hcol', cursorRank_eq (fa := { fa with bt := b, col := 0, sub := 0, frm := 0 }) hB']
    dsimp only
    rw [deviceFrames_take_eq_of_noColumns hlen hlt fun j m' hj hjb hj' => ?_]
    · simp [sumFpcb]
    · exact (Option.some.inj ((hbetween j hj hjb).symm.trans hj')).symm
  · refine .inr ⟨rfl, ?_⟩
    have hbt : fa.bt + 1 ≤ fa.ncols.length := (List.getElem?_eq_some_iff.mp hn).1
    rw [blockEnd hlast hsub hcol', ← deviceFrames_take_eq_of_noColumns hlen hbt fun j m hj _ hj' =>
      nextWithColumns_eq_none.mp hnext j m hj hj', List.take_length, List.take_of_length_le hlen.ge]

/-- The addresses still to come, the one at the cursor first (R159). -/
def pendingAddrs (S : ConfigurationSpecification) (fa : Cursor) : List FrameAddr :=
  if fa.done then [] else (deviceAddrs 0 fa.ncols S.blockTypes).drop (cursorRank S fa)

theorem pendingAddrs_of_done (hd : fa.done = true) : pendingAddrs S fa = [] := if_pos hd

/-- An unfinished cursor in the table has addresses to come (R158). -/
theorem pendingAddrs_eq_cons (hd : fa.done = false) (hB : S.blockTypes[fa.bt]? = some B)
    (hx : B.subtypes[fa.sub]? = some x) (hn : fa.ncols[fa.bt]? = some n) (hfrm : fa.frm < x.fpcb) (hcol : fa.col < n) :
    pendingAddrs S fa =
      cursorAddr B fa :: (deviceAddrs 0 fa.ncols S.blockTypes).drop (cursorRank S fa + 1) := by
  obtain ⟨hlt, hget⟩ := List.getElem?_eq_some_iff.mp (deviceAddrs_getElem?_cursorRank hB hx hn hfrm hcol)
  rw [pendingAddrs, hd, if_neg (by simp), List.drop_eq_getElem_cons hlt, hget]

theorem pendingAddrs_ne_nil_of_inTable (hin : CursorInTable S fa) (hd : fa.done = false) : pendingAddrs S fa ≠ [] := by
  obtain ⟨B, x, n, hB, hx, hn, hfrm, hcol⟩ := hin.2 hd
  rw [pendingAddrs_eq_cons hd hB hx hn hfrm hcol]
  exact List.cons_ne_nil _ _

/-- `FA.NEXT` takes the first of the addresses to come, and is done exactly when it was the last (R159). -/
theorem pendingAddrs_advanceCursor (hS : S.WellFormed) (hlen : fa.ncols.length = S.blockTypes.length)
    (hd : fa.done = false) (hB : S.blockTypes[fa.bt]? = some B) (hx : B.subtypes[fa.sub]? = some x)
    (hn : fa.ncols[fa.bt]? = some n) (hfrm : fa.frm < x.fpcb) (hcol : fa.col < n) :
    pendingAddrs S fa =
        cursorAddr B fa :: pendingAddrs S (advanceCursor B.subtypes.length x.fpcb n fa) ∧
      (advanceCursor B.subtypes.length x.fpcb n fa).done =
        (pendingAddrs S (advanceCursor B.subtypes.length x.fpcb n fa)).isEmpty := by
  rw [pendingAddrs_eq_cons hd hB hx hn hfrm hcol]
  obtain ⟨hd', hrank⟩ | ⟨hd', hrank⟩ := cursorRank_advanceCursor hlen hd hB hx hn hfrm hcol
  · have nonempty := pendingAddrs_ne_nil_of_inTable (advanceCursor_inTable hS hlen hB hx hn hcol) hd'
    refine ⟨?_, by rw [hd', List.isEmpty_eq_false_iff.mpr nonempty]⟩
    rw [pendingAddrs, hd', if_neg (by simp), hrank, (advanceCursor_frame ..).2]
  · rw [pendingAddrs_of_done hd', hrank, ← deviceAddrs_length 0, List.drop_length]
    exact ⟨rfl, hd'⟩

end Rank

/-- `FA.START` leaves every address of the device to come (R158). -/
theorem pendingAddrs_startCursor {S : ConfigurationSpecification} {ncols : List Nat}
    (hlen : ncols.length = S.blockTypes.length) :
    pendingAddrs S (startCursor S ncols) = deviceAddrs 0 ncols S.blockTypes := by
  obtain hzero | hpos := Nat.eq_zero_or_pos (deviceFrames ncols S.blockTypes)
  · rw [startCursor_of_noFrames hzero, pendingAddrs_of_done rfl]
    exact (List.eq_nil_of_length_eq_zero ((deviceAddrs_length ..).trans hzero)).symm
  · obtain ⟨b, hfirst⟩ := exists_firstWithColumns_of_frames hpos
    obtain ⟨⟨m, hm, -⟩, hbefore⟩ := firstWithColumns_eq_some.mp hfirst
    have hB := List.getElem?_eq_getElem (hlen ▸ (List.getElem?_eq_some_iff.mp hm).1)
    have rank : cursorRank S ⟨true, false, ncols, b, 0, 0, 0⟩ = 0 := by
      rw [cursorRank_eq (fa := ⟨true, false, ncols, b, 0, 0, 0⟩) hB]
      dsimp only
      rw [deviceFrames_take_eq_of_noColumns hlen (Nat.zero_le b) fun j m' _ hjb hj' => ?_]
      · simp [deviceFrames, sumFpcb]
      · exact (Option.some.inj ((hbefore j hjb).symm.trans hj')).symm
    rw [startCursor_of_frames hpos hfirst, pendingAddrs, rank]
    rfl

/-! ## The results of `FA.NEXT` in a row -/

/-- The members of a list, each with whether it is the final one. -/
def markLast {α : Type} : List α → List (α × Bool)
  | [] => []
  | a :: l => (a, l.isEmpty) :: markLast l

theorem markLast_map_fst {α : Type} (l : List α) : (markLast l).map Prod.fst = l := by
  induction l with
  | nil => rfl
  | cons a l ih => rw [markLast, List.map_cons, ih]

theorem markLast_getElem? {α : Type} {l : List α} {k : Nat} {r : α × Bool} (h : (markLast l)[k]? = some r) :
    r.2 = true ↔ k + 1 = l.length := by
  induction l generalizing k with
  | nil => simp [markLast] at h
  | cons a l ih =>
    cases k with
    | zero =>
      obtain rfl : (a, l.isEmpty) = r := by simpa [markLast] using h
      simp
    | succ k =>
      rw [ih (by simpa [markLast] using h), List.length_cons]
      omega

theorem nextResults_of_done {s : State} (ha : s.fa.active = true) (hd : s.fa.done = true) (m : Nat) :
    nextResults m s = [] := by
  cases m with
  | zero => rfl
  | succ m => rw [nextResults, exec_faNext_of_done ha hd]; rfl

theorem nextResults_of_address {s t : State} {a : FrameAddr} {last : Bool}
    (h : exec .faNext s = .next (succeed (.frameAddrLast a last) t)) (m : Nat) :
    nextResults (m + 1) s = (a, last) :: nextResults m (succeed (.frameAddrLast a last) t) := by
  rw [nextResults, h]
  rfl

/-- From a cursor in the table `FA.NEXT`, issued often enough, returns the addresses to come, and `last` with the final
one (R159). -/
theorem nextResults_eq_markLast {s : State} {f : String} {S : ConfigurationSpecification} (hS : S.WellFormed)
    (hf : s.fam = some f) (hfS : s.consts.family? f = some S) (ha : s.fa.active = true) (hin : CursorInTable S s.fa)
    {m : Nat} (hm : (pendingAddrs S s.fa).length ≤ m) : nextResults m s = markLast (pendingAddrs S s.fa) := by
  induction m generalizing s with
  | zero =>
    rw [List.eq_nil_of_length_eq_zero (Nat.le_zero.mp hm)]
    rfl
  | succ m ih =>
    cases hd : s.fa.done with
    | true => rw [nextResults_of_done ha hd, pendingAddrs_of_done hd, markLast]
    | false =>
      obtain ⟨hlen, hplace⟩ := hin
      obtain ⟨B, x, n, hB, hx, hn, hfrm, hcol⟩ := hplace hd
      obtain ⟨hpending, hlast⟩ := pendingAddrs_advanceCursor hS hlen hd hB hx hn hfrm hcol
      rw [hpending, List.length_cons] at hm
      rw [nextResults_of_address (execFaNext_inTable ha hd hf hfS hB hx hn), hpending, markLast, ← hlast]
      exact congrArg _ (ih hf hfS ((advanceCursor_frame ..).1.trans ha) (advanceCursor_inTable hS hlen hB hx hn hcol)
        (Nat.le_of_succ_le_succ hm))

/-- Settles O50: `FA.START` leaves all addresses to come, and `FA.NEXT` takes one at a time. -/
theorem enumerationVisitsEveryFrameOnce : Obligations.EnumerationVisitsEveryFrameOnce := by
  intro s f S ncols hc hf hfS hlen
  have hS := wellFormed_of_family? hc hfS
  refine ⟨deviceAddrs_nodup .., _, exec_faStart_of_cursor hf hfS hlen rfl rfl, by simp, fun m hm => ?_⟩
  rw [← pendingAddrs_startCursor hlen] at hm ⊢
  have results : nextResults m (succeed (.frames (deviceFrames ncols S.blockTypes))
      { s with fa := startCursor S ncols }) = markLast (pendingAddrs S (startCursor S ncols)) :=
    nextResults_eq_markLast (s := succeed (.frames _) { s with fa := startCursor S ncols }) hS hf hfS rfl
      (startCursor_inTable hS hlen) hm
  rw [results]
  exact ⟨markLast_map_fst _, fun k r => markLast_getElem?⟩

end Sys2Proof.Machine
end
